-- ==== Sys2Proof/Word.lean ====
section
/-! DEFINITION. The words of the block (00_scope.md R10): a byte is 8 bits, an address 16, a bus pin word 28, a colour
index 4. Arithmetic on them is Lean's own on `BitVec`; offsets, counters and keys of byte arrays are `Nat` (R12). -/

namespace Sys2Proof

/-- A byte (R10). -/
abbrev Byte := BitVec 8

/-- An address of the memory or the IO space (R10, R42). -/
abbrev Addr := BitVec 16

/-- A `BUS28` pin word (30_encoding.md R91): A 15:0, D 23:16, MREQ 24, IORQ 25, RD 26, WR 27. -/
abbrev Pin := BitVec 28

/-- A colour index 0..15 of the palette (30_encoding.md R101). -/
abbrev Colour := BitVec 4

end Sys2Proof
end

