-- ==== Sys2Proof/Config.lean ====
section
/-! DEFINITION. What an implementation fixes: the configuration record `Cfg` of 00_scope.md R8 (its defaults:
Machine/Defaults.lean), the engine's block that is embedded in the machine state (10_state.md R40), and the free values
of the spec (opaque: no proof can see what they are). -/

namespace Sys2Proof

/-- `RegImage` (10_state.md R40, 44_snapshot_codec.md R244): the engine's registers a quickload hands over. The primed set
A' F' B' C' D' E' H' L' is `altA` .. `altL`. -/
structure RegImage where
  a : Byte
  f : Byte
  b : Byte
  c : Byte
  d : Byte
  e : Byte
  h : Byte
  l : Byte
  altA : Byte
  altF : Byte
  altB : Byte
  altC : Byte
  altD : Byte
  altE : Byte
  altH : Byte
  altL : Byte
  ix : BitVec 16
  iy : BitVec 16
  sp : BitVec 16
  pc : BitVec 16
  i : Byte
  r : Byte
  iff1 : Bool
  iff2 : Bool
  im : BitVec 2
deriving DecidableEq, Repr, Inhabited

/-- The engine's state block `S.cpu` (10_state.md R40): its named registers, the address at which a quickload primed its
prefetch (R43(c), 44_snapshot_codec.md R246), and everything else in the opaque block as one number. -/
structure Cpu where
  regs : RegImage
  prefetch : Option Addr
  rest : Nat
deriving DecidableEq, Repr, Inhabited

/-- One palette entry (45_host_interface.md R266): three intensities. DESIGN CHOICE, safe (log entry 28): they are plain
numbers, because no RGB bit depth may be assumed (91_not_in_source.md N29); neither the type nor `cfgOk` bounds them. -/
structure Rgb where
  r : Nat
  g : Nat
  b : Nat
deriving DecidableEq, Repr, Inhabited

/-- One entry of `KEYMAP` (43_input_mux.md R201): key code `code` presses half-row `row`, sense line `line`. A code with
several entries presses several positions; a code with none presses nothing. -/
structure KeyEntry where
  code : Byte
  row : Fin 8
  line : Fin 5
deriving DecidableEq, Repr, Inhabited

/-- The parameter function `us_to_ticks` (42_sequencer.md R188, D39, U10; log entry 25): the reference definition, or the
`k`-th of any other functions, of which nothing is known. -/
inductive Conversion where
  | reference
  | other (k : Nat)
deriving DecidableEq, Repr, Inhabited

/-- The open part of the parameter function `engine_from_image` (45_host_interface.md R262, 44_snapshot_codec.md R246, D33,
U10; log entry 29): what a quickload makes of the engine's block beside the registers and the primed prefetch. It is the
engine's reset value, or the `k`-th of any other functions of the image, of which nothing is known. -/
inductive ImageRest where
  | atReset
  | other (k : Nat)
deriving DecidableEq, Repr, Inhabited

/-- The configuration record (00_scope.md R8). The derived sizes `FB_WIDTH`, `FB_HEIGHT`, `FB_STRIDE`, `FB_SIZE` are the
formulas of R8, computed in Machine/Operands.lean. `conversion` is the parameter function of 42_sequencer.md R188,
`engineReset` the parameter function `engine_reset()` of 45_host_interface.md R262, `imageRest` the open part of its
`engine_from_image`. -/
structure Cfg where
  scanlinePeriod : Nat
  totalScanlines : Nat
  intHoldTicks : Nat
  topBorderLines : Nat
  bottomBorderLines : Nat
  leftBorderPx : Nat
  rightBorderPx : Nat
  firstFbLine : Nat
  blinkBit : Nat
  romBanks : Nat
  videoBank : Nat
  clockHz : Nat
  conversion : Conversion
  snapshotVersion : BitVec 32
  palette : List Rgb
  keymap : List KeyEntry
  supportedHwModes : List Byte
  pageOffset : Nat
  engineReset : Cpu
  imageRest : ImageRest
deriving DecidableEq, Repr

/-- FREE VALUE: the n-th byte drawn where the spec says `any` (IRD.OPEN, 40_bus_dispatcher.md R147, U1; NOACC, R149, U3;
`data_in` where the last cycle was no defined read, 42_sequencer.md R180, U17). Log entry 6. -/
opaque Config.freeByte : Nat → Byte

/-- PARAMETER: the engine's block after one bus cycle, `cpu'` of `engine_step(cpu, int_in, data_in)` (42_sequencer.md
R180), given the transaction it answered with. Log entry 9. -/
opaque Config.engineNext : Cpu → Bool → Byte → Pin → Cpu

/-- PARAMETER: the transaction `txn` of `engine_step(cpu, int_in, data_in)` (42_sequencer.md R180), used where no answer
was given from outside. Log entry 8. -/
opaque Config.engineAnswer : Cpu → Bool → Byte → Pin

/-- PARAMETER: the ticks that the `k`-th conversion other than the reference one gives for so many microseconds
(42_sequencer.md R188, U10). Log entry 25. -/
opaque Config.usToTicks : Nat → Nat → Nat

/-- PARAMETER: the part of the engine's block that is neither a register nor the prefetch, as the `k`-th
`engine_from_image` other than the one that keeps the reset value makes it from a register image (45_host_interface.md
R262, U10). Log entry 29. -/
opaque Config.restOfImage : Nat → RegImage → Nat

end Sys2Proof
end

