-- ==== Sys2Proof/Machine/Defaults.lean ====
section
/-! DEFINITION. The default configuration: the values of 00_scope.md R8, the reference palette of 45_host_interface.md R266
and the reference key table of 43_input_mux.md R201. -/

namespace Sys2Proof

/-- The reference `PALETTE` of 45_host_interface.md R266, in the levels of its table. PRESUMED (the spec's own general
knowledge, log entry 5). -/
def Cfg.referencePalette : List Rgb :=
  [⟨0, 0, 0⟩, ⟨0, 0, 0xD7⟩, ⟨0xD7, 0, 0⟩, ⟨0xD7, 0, 0xD7⟩,
   ⟨0, 0xD7, 0⟩, ⟨0, 0xD7, 0xD7⟩, ⟨0xD7, 0xD7, 0⟩, ⟨0xD7, 0xD7, 0xD7⟩,
   ⟨0, 0, 0⟩, ⟨0, 0, 0xFF⟩, ⟨0xFF, 0, 0⟩, ⟨0xFF, 0, 0xFF⟩,
   ⟨0, 0xFF, 0⟩, ⟨0, 0xFF, 0xFF⟩, ⟨0xFF, 0xFF, 0⟩, ⟨0xFF, 0xFF, 0xFF⟩]

/-- The letter keys of the reference `KEYMAP` (43_input_mux.md R201), by lower-case ASCII code. PRESUMED, log entry 5. -/
def Cfg.letterKeys : List KeyEntry :=
  [⟨0x7A, 0, 1⟩, ⟨0x78, 0, 2⟩, ⟨0x63, 0, 3⟩, ⟨0x76, 0, 4⟩] ++
  [⟨0x61, 1, 0⟩, ⟨0x73, 1, 1⟩, ⟨0x64, 1, 2⟩, ⟨0x66, 1, 3⟩, ⟨0x67, 1, 4⟩] ++
  [⟨0x71, 2, 0⟩, ⟨0x77, 2, 1⟩, ⟨0x65, 2, 2⟩, ⟨0x72, 2, 3⟩, ⟨0x74, 2, 4⟩] ++
  [⟨0x70, 5, 0⟩, ⟨0x6F, 5, 1⟩, ⟨0x69, 5, 2⟩, ⟨0x75, 5, 3⟩, ⟨0x79, 5, 4⟩] ++
  [⟨0x6C, 6, 1⟩, ⟨0x6B, 6, 2⟩, ⟨0x6A, 6, 3⟩, ⟨0x68, 6, 4⟩] ++
  [⟨0x6D, 7, 2⟩, ⟨0x6E, 7, 3⟩, ⟨0x62, 7, 4⟩]

/-- The digit keys of the reference `KEYMAP` (43_input_mux.md R201), by ASCII code. PRESUMED, log entry 5. -/
def Cfg.digitKeys : List KeyEntry :=
  [⟨0x31, 3, 0⟩, ⟨0x32, 3, 1⟩, ⟨0x33, 3, 2⟩, ⟨0x34, 3, 3⟩, ⟨0x35, 3, 4⟩] ++
  [⟨0x36, 4, 4⟩, ⟨0x37, 4, 3⟩, ⟨0x38, 4, 2⟩, ⟨0x39, 4, 1⟩, ⟨0x30, 4, 0⟩]

/-- ENTER, SPACE and the cursor combinations (CAPS SHIFT with 5, 8, 6, 7) of the reference `KEYMAP` (43_input_mux.md
R201). PRESUMED, log entry 5. -/
def Cfg.controlKeys : List KeyEntry :=
  [⟨0x0D, 6, 0⟩, ⟨0x20, 7, 0⟩] ++
  [⟨0x08, 0, 0⟩, ⟨0x08, 3, 4⟩, ⟨0x09, 0, 0⟩, ⟨0x09, 4, 2⟩] ++
  [⟨0x0A, 0, 0⟩, ⟨0x0A, 4, 4⟩, ⟨0x0B, 0, 0⟩, ⟨0x0B, 4, 3⟩]

/-- The engine's reset block in the default configuration: all zero. DESIGN CHOICE, unsafe (log entry 2): the spec leaves
`engine_reset()` a parameter; claims quantify over `Cfg`. -/
def Cfg.zeroCpu : Cpu where
  regs :=
    { a := 0, f := 0, b := 0, c := 0, d := 0, e := 0, h := 0, l := 0,
      altA := 0, altF := 0, altB := 0, altC := 0, altD := 0, altE := 0, altH := 0, altL := 0,
      ix := 0, iy := 0, sp := 0, pc := 0, i := 0, r := 0, iff1 := false, iff2 := false, im := 0 }
  prefetch := none
  rest := 0

/-- The defaults of 00_scope.md R8. `snapshotVersion` has none there ("any fixed 32-bit value"): 1, DESIGN CHOICE, log
entry 4. `conversion` is the reference definition of 42_sequencer.md R188 (log entry 25), `imageRest` what
the pseudocode of 44_snapshot_codec.md R246 says (log entry 29). -/
def Cfg.default : Cfg where
  scanlinePeriod := 224
  totalScanlines := 312
  intHoldTicks := 32
  topBorderLines := 32
  bottomBorderLines := 32
  leftBorderPx := 32
  rightBorderPx := 32
  firstFbLine := 32
  blinkBit := 3
  romBanks := 1
  videoBank := 0
  clockHz := 3500000
  conversion := .reference
  snapshotVersion := 1
  palette := Cfg.referencePalette
  keymap := Cfg.letterKeys ++ Cfg.digitKeys ++ Cfg.controlKeys
  supportedHwModes := [0, 1, 2]
  pageOffset := 3
  engineReset := Cfg.zeroCpu
  imageRest := .atReset

end Sys2Proof
end

