-- ==== Sys2Proof/Syntax.lean ====
section
/-! DEFINITION. The operations of the block: one constructor of `Instr` per row of spec/opcode_table.json, the named
alternatives their operands range over, and the packets that carry them. -/

namespace Sys2Proof

/-- The joystick modes (10_state.md R30, 30_encoding.md R106), in the order of their numbers 0..3. -/
inductive JoyMode where
  | none | kempston | sinclair1 | sinclair2
deriving DecidableEq, Repr, Inhabited

/-- The five joystick functions (30_encoding.md R103). -/
inductive JoyFn where
  | left | right | down | up | fire
deriving DecidableEq, Repr, Inhabited

/-- The classes of a well-formed bus transaction (30_encoding.md R92, R93). -/
inductive BusClass where
  | mrd | mwr | irdUla | iwrUla | irdJoy | irdOpen | iwrOpen | idle | noaccM | noaccIo
deriving DecidableEq, Repr, Inhabited

/-- The classes of a frame line (30_encoding.md R102). -/
inductive LineClass where
  | outside | border | bitmap
deriving DecidableEq, Repr, Inhabited

/-- Where a snapshot page goes (30_encoding.md R113). -/
inductive PageDest where
  | ram (bank : Nat)
  | junk
deriving DecidableEq, Repr, Inhabited

/-- A token of the compressed stream (30_encoding.md R114). `badRun` carries the one byte that may follow `ED ED`. -/
inductive Token where
  | stop
  | run (cc vv : Byte)
  | badRun (cc : Option Byte)
  | litEd
  | lit (b : Byte)
deriving DecidableEq, Repr, Inhabited

/-- Why a quickload fails (60_exceptions.md R271). -/
inductive LoadCause where
  | truncatedHeader | truncatedExtHeader | extHeaderTooShort | unsupportedHwMode | truncatedPageHeader
  | uncompressedPage | pageOverrun | truncatedRun | outputOverflow
deriving DecidableEq, Repr, Inhabited

/-- Why a host operation fails (60_exceptions.md R271). -/
inductive Failure where
  | badRom
  | load (cause : LoadCause)
  | versionMismatch
deriving DecidableEq, Repr, Inhabited

/-- The formats of spec/opcode_table.json (30_encoding.md R90). `rle32` says whether the terminator is enabled (R115). -/
inductive Format where
  | bus28 | host8 | z80hdr
  | rle32 (term : Bool)
deriving DecidableEq, Repr, Inhabited

/-- One encoded operation as it reaches the block: its format, its bytes, and, for INIT only, the configuration record
that is handed over beside the ROM image (70_reset_and_hazards.md R300). The byte layout is log entry 13. -/
structure Packet where
  fmt : Format
  bytes : List Byte
  cfg : Option Cfg
deriving DecidableEq, Repr

/-- Why bytes are not an operation. -/
inductive DecodeError where
  /-- A pin word of 30_encoding.md R94. -/
  | malformedTransaction
  /-- A first byte that 30_encoding.md R107 gives no operation. -/
  | unknownSelector
  /-- Operand bytes that are too few or too many for the operation. -/
  | badOperand
  /-- JMODE with a value outside the four modes (43_input_mux.md R206, U4). -/
  | modeOutOfRange
  /-- JOY with a mask above 31 (43_input_mux.md R207, U4). -/
  | maskOutOfRange
  /-- Fewer than the 30 bytes of a `Z80HDR` (30_encoding.md R108, R109). -/
  | shortHeader
  /-- No byte where a stream token should start. -/
  | emptyStream
deriving DecidableEq, Repr, Inhabited

/-- The operations of the block, one constructor per row of spec/opcode_table.json (30_encoding.md R120). A bus
transaction keeps the whole word it arrived with: its address `a` and its data byte `d` (on a read `d` is not looked at). -/
inductive Instr where
  /-- MRD, 40_bus_dispatcher.md R141. -/
  | mrd (a : Addr) (d : Byte)
  /-- MWR, R142. -/
  | mwr (a : Addr) (d : Byte)
  /-- IRD.ULA, R144. -/
  | irdUla (a : Addr) (d : Byte)
  /-- IWR.ULA, R145. -/
  | iwrUla (a : Addr) (d : Byte)
  /-- IRD.JOY, R146. -/
  | irdJoy (a : Addr) (d : Byte)
  /-- IRD.OPEN, R147. -/
  | irdOpen (a : Addr) (d : Byte)
  /-- IWR.OPEN, R148. -/
  | iwrOpen (a : Addr) (d : Byte)
  /-- IDLE, R149. -/
  | idle (a : Addr) (d : Byte)
  /-- NOACC.M, R149. -/
  | noaccM (a : Addr) (d : Byte)
  /-- NOACC.IO, R149. -/
  | noaccIo (a : Addr) (d : Byte)
  /-- INIT, 70_reset_and_hazards.md R300; an absent image is the empty one. -/
  | init (rom : List Byte) (cfg : Cfg)
  /-- RESET, R303. -/
  | reset
  /-- EXEC, 42_sequencer.md R187. -/
  | execUs (us : Nat)
  /-- KEYDN, 43_input_mux.md R202. -/
  | keydn (cc : Byte)
  /-- KEYUP, R205. -/
  | keyup (cc : Byte)
  /-- JMODE, R206. -/
  | jmode (m : JoyMode)
  /-- JOY, R207. -/
  | joy (mm : BitVec 5)
  /-- QLOAD, 44_snapshot_codec.md R220. -/
  | qload (b : List Byte)
  /-- SAVE, R250. -/
  | save
  /-- RESTORE, R251; `k` names one of the records the host holds. -/
  | restore (k : Nat)
  /-- DINFO, 45_host_interface.md R265. -/
  | dinfo
  /-- TICK, 42_sequencer.md R181; `w` is the pin word the engine answers with. -/
  | tick (w : Pin)
  /-- LINE, outside class, 41_video_decoder.md R161. -/
  | lineOutside (n : Nat)
  /-- LINE, border class, R162. -/
  | lineBorder (n : Nat)
  /-- LINE, bitmap class, R163. -/
  | lineBitmap (n : Nat)
  /-- QLOAD, extended layout, 44_snapshot_codec.md R226. -/
  | qloadExt (b : List Byte)
  /-- QLOAD, legacy layout, R224. -/
  | qloadLegacy (b : List Byte)
  /-- Stream token END, R240. -/
  | rleEnd
  /-- Stream token RUN, R240. -/
  | rleRun (cc vv : Byte)
  /-- Stream token BADRUN, R240; `cc` is the byte after `ED ED`, if there is one. -/
  | rleBadRun (cc : Option Byte)
  /-- Stream token LITED, R240. -/
  | rleLitEd
  /-- Stream token LIT, R240. -/
  | rleLit (b : Byte)
deriving DecidableEq, Repr

end Sys2Proof
end

