-- ==== Sys2Proof/Machine/Operands.lean ====
section
/-! DEFINITION. Every operand form: how a field is cut out of a word, how a 16-bit value is assembled from bytes, how a
bus address selects a port, a line index a raster class, a row and column a video offset, an attribute two colours, a key
code a joystick function, a page number a bank (30_encoding.md R90-R116, 41_video_decoder.md R166, 43_input_mux.md R203,
44_snapshot_codec.md R244). Nothing here reads the machine's state. -/

namespace Sys2Proof.Machine

/-! ## Bytes and numbers (00_scope.md R10) -/

/-- Byte `i` of a byte string; 0 past its end (every caller checks the length first, 44_snapshot_codec.md R221). -/
def byteAt (b : List Byte) (i : Nat) : Byte := b.getD i 0

/-- `u16le(b, i)`: low byte first (R10, 20_memory.md R67). -/
def u16le (b : List Byte) (i : Nat) : Nat := (byteAt b i).toNat + 256 * (byteAt b (i + 1)).toNat

/-- The natural number whose base-256 digits are the bytes, low byte first (packet operands, log entry 13). -/
def natOfBytes : List Byte → Nat
  | [] => 0
  | b :: bs => b.toNat + 256 * natOfBytes bs

/-- The base-256 digits of `n`, low byte first, at most `fuel` of them. -/
def natDigits : Nat → Nat → List Byte
  | 0, _ => []
  | fuel + 1, n => if n = 0 then [] else BitVec.ofNat 8 n :: natDigits fuel (n / 256)

/-- The bytes of a natural number, low byte first, none for 0; inverse of `natOfBytes`. -/
def bytesOfNat (n : Nat) : List Byte := natDigits n n

/-! ## The bus pin word (30_encoding.md R91-R94) -/

/-- `A`, bits 15:0. -/
def pinAddr (w : Pin) : Addr := w.extractLsb' 0 16

/-- `D`, bits 23:16. -/
def pinData (w : Pin) : Byte := w.extractLsb' 16 8

/-- `WR RD IORQ MREQ`, bits 27:24. -/
def pinKind (w : Pin) : BitVec 4 := w.extractLsb' 24 4

/-- The pin word with the given kind bits, data and address. -/
def mkPin (kind : BitVec 4) (d : Byte) (a : Addr) : Pin := kind ++ d ++ a

/-- The port an IO read selects (R93): the ULA when A0 is 0, else the joystick when A[7:5] are 0, else open. -/
def readPort (a : Addr) : BusClass :=
  if a.getLsbD 0 = false then .irdUla else if a.extractLsb' 5 3 = 0 then .irdJoy else .irdOpen

/-- The port an IO write selects (R93). -/
def writePort (a : Addr) : BusClass := if a.getLsbD 0 = false then .iwrUla else .iwrOpen

/-- The class of a pin word (R92, R93); none for the malformed words of R94. -/
def classify (w : Pin) : Option BusClass :=
  match (pinKind w).toNat with
  | 0 => some .idle
  | 1 => some .noaccM
  | 2 => some .noaccIo
  | 5 => some .mrd
  | 6 => some (readPort (pinAddr w))
  | 9 => some .mwr
  | 10 => some (writePort (pinAddr w))
  | _ => none

/-- The pin word of "no transaction this tick" (R92). -/
def idlePin : Pin := 0

/-- `slot(addr) = addr[15:14]` (20_memory.md R60). -/
def slotOf (a : Addr) : Nat := (a.extractLsb' 14 2).toNat

/-- `offset(addr) = addr[13:0]` (20_memory.md R60). -/
def offsetOf (a : Addr) : Nat := (a.extractLsb' 0 14).toNat

/-- The half-row select byte `sel = ~AH & 0xFF` (R97). -/
def halfRowSelect (a : Addr) : BitVec 8 := ~~~ (a.extractLsb' 8 8)

/-! ## The ULA port byte (30_encoding.md R95, 10_state.md R28) -/

/-- BORDER, bits 2:0 of a ULA write. -/
def ulaBorder (d : Byte) : BitVec 3 := d.extractLsb' 0 3

/-- BEEP, bit 4 of a ULA write. -/
def ulaBeep (d : Byte) : Bool := d.getLsbD 4

/-! ## The raster (00_scope.md R8, 30_encoding.md R102) -/

/-- `FB_WIDTH`. -/
def fbWidth (c : Cfg) : Nat := c.leftBorderPx + 256 + c.rightBorderPx

/-- `FB_HEIGHT`. -/
def fbHeight (c : Cfg) : Nat := c.topBorderLines + 192 + c.bottomBorderLines

/-- `FB_STRIDE`. -/
def fbStride (c : Cfg) : Nat := fbWidth c / 2

/-- `FB_SIZE`. -/
def fbSize (c : Cfg) : Nat := fbStride c * fbHeight c

/-- The framebuffer row `y = n - FIRST_FB_LINE` of a frame line that has one. -/
def fbRow (c : Cfg) (n : Nat) : Nat := n - c.firstFbLine

/-- The class of frame line `n` (R102). -/
def lineClass (c : Cfg) (n : Nat) : LineClass :=
  if n < c.firstFbLine ∨ fbHeight c ≤ fbRow c n then .outside
  else if fbRow c n < c.topBorderLines ∨ c.topBorderLines + 192 ≤ fbRow c n then .border
  else .bitmap

/-- The bitmap row `yy` of a bitmap line (R102). -/
def bitmapRow (c : Cfg) (n : Nat) : Nat := fbRow c n - c.topBorderLines

/-- `us_to_ticks`, a parameter function (42_sequencer.md R188, D39, U10; log entry 25): the reference definition, or any
other that gives no tick for 0 microseconds (R187's corner case). -/
def usToTicks (c : Cfg) (us : Nat) : Nat :=
  match c.conversion with
  | .reference => us * c.clockHz / 1000000
  | .other k => if us = 0 then 0 else Config.usToTicks k us

/-! ## Video offsets and colours (30_encoding.md R98-R101, 41_video_decoder.md R166) -/

/-- `voff(yy, x)`: the row bits stand as y7 y6 y2 y1 y0 y5 y4 y3 above the column (R99). -/
def voff (yy x : Nat) : Nat :=
  ((yy &&& 0xC0) <<< 5) ||| ((yy &&& 0x07) <<< 8) ||| ((yy &&& 0x38) <<< 2) ||| x

/-- `aoff(yy, x)` (R100). -/
def aoff (yy x : Nat) : Nat := 0x1800 + (yy >>> 3) * 32 + x

/-- INK, bits 2:0 (R98). -/
def attrInk (attr : Byte) : BitVec 3 := attr.extractLsb' 0 3

/-- PAPER, bits 5:3. -/
def attrPaper (attr : Byte) : BitVec 3 := attr.extractLsb' 3 3

/-- BRIGHT, bit 6. -/
def attrBright (attr : Byte) : Bool := attr.getLsbD 6

/-- FLASH, bit 7. -/
def attrFlash (attr : Byte) : Bool := attr.getLsbD 7

/-- A colour index: bit 3 is the bright bit, bits 2:0 the colour (R101). -/
def colourIndex (bright : Bool) (colour : BitVec 3) : Colour := BitVec.ofBool bright ++ colour

/-- `colours(attr, blink_counter)` given the blink phase: (fg, bg) (41_video_decoder.md R166). -/
def colours (attr : Byte) (phase : Bool) : Colour × Colour :=
  let fg := if attrFlash attr && phase then attrPaper attr else attrInk attr
  let bg := if attrFlash attr && phase then attrInk attr else attrPaper attr
  (colourIndex (attrBright attr) fg, colourIndex (attrBright attr) bg)

/-- A framebuffer byte: high nibble the even (left) pixel, low nibble the odd one (R101). -/
def pixelPair (left right : Colour) : Byte := left ++ right

/-- The byte of two border pixels of colour `c` (41_video_decoder.md R162). -/
def borderByte (c : BitVec 3) : Byte := pixelPair (colourIndex false c) (colourIndex false c)

/-- The colour of pixel `k` (0 leftmost) of a cell: bit `7 - k` of the pixel byte picks foreground or background
(41_video_decoder.md R168). -/
def pixelColour (pix : Byte) (fgbg : Colour × Colour) (k : Nat) : Colour :=
  if pix.getLsbD (7 - k) then fgbg.1 else fgbg.2

/-- Framebuffer byte `j` (0..3) of a cell (41_video_decoder.md R163). -/
def cellByte (pix : Byte) (fgbg : Colour × Colour) (j : Nat) : Byte :=
  pixelPair (pixelColour pix fgbg (2 * j)) (pixelColour pix fgbg (2 * j + 1))

/-! ## Keys and joysticks (30_encoding.md R103-R106, 43_input_mux.md R203) -/

/-- `function(cc)`: the joystick function of a reserved code, none for every other code (R103). -/
def joyFn? (cc : Byte) : Option JoyFn :=
  match cc.toNat with
  | 0x08 => some .left
  | 0x09 => some .right
  | 0x0A => some .down
  | 0x0B => some .up
  | 0x20 => some .fire
  | _ => none

/-- `joybit`: the mask bit of a function (R104, R203). -/
def joyBit : JoyFn → BitVec 5
  | .right => 0x01
  | .left => 0x02
  | .down => 0x04
  | .up => 0x08
  | .fire => 0x10

/-- `sinclair_key(Sinclair1, f)` (R105). -/
def sinclair1Key : JoyFn → Byte
  | .left => 0x31
  | .right => 0x32
  | .down => 0x33
  | .up => 0x34
  | .fire => 0x35

/-- `sinclair_key(Sinclair2, f)` (R105). -/
def sinclair2Key : JoyFn → Byte
  | .left => 0x36
  | .right => 0x37
  | .down => 0x38
  | .up => 0x39
  | .fire => 0x30

/-- The order in which JOY visits the functions (43_input_mux.md R207). -/
def joyFns : List JoyFn := [.left, .right, .down, .up, .fire]

/-- The number of a mode (R106). -/
def modeNumber : JoyMode → Byte
  | .none => 0
  | .kempston => 1
  | .sinclair1 => 2
  | .sinclair2 => 3

/-- The mode of a number; none outside 0..3 (R106, U4). -/
def modeOf (m : Byte) : Option JoyMode :=
  match m.toNat with
  | 0 => some .none
  | 1 => some .kempston
  | 2 => some .sinclair1
  | 3 => some .sinclair2
  | _ => none

/-! ## The snapshot stream (30_encoding.md R108-R114, 44_snapshot_codec.md R244) -/

/-- Bytes of a `Z80HDR` (R109). -/
def headerLength : Nat := 30

/-- `FLAGS0` (R110), byte 12. -/
def flags0 (b : List Byte) : Byte := byteAt b 12

/-- BORDER, bits 3:1 of `FLAGS0` (R110). -/
def snapBorder (b : List Byte) : BitVec 3 := (flags0 b).extractLsb' 1 3

/-- The R register: bits 6:0 of byte 11, bit 7 from `FLAGS0` bit 0 (R116, R244). -/
def snapR (b : List Byte) : Byte :=
  BitVec.ofBool ((flags0 b).getLsbD 0) ++ (byteAt b 11).extractLsb' 0 7

/-- `reg_image(b, pc)` (R244). -/
def regImage (b : List Byte) (pc : Nat) : RegImage where
  a := byteAt b 0
  f := byteAt b 1
  c := byteAt b 2
  b := byteAt b 3
  l := byteAt b 4
  h := byteAt b 5
  e := byteAt b 13
  d := byteAt b 14
  altC := byteAt b 15
  altB := byteAt b 16
  altE := byteAt b 17
  altD := byteAt b 18
  altL := byteAt b 19
  altH := byteAt b 20
  altA := byteAt b 21
  altF := byteAt b 22
  ix := BitVec.ofNat 16 (u16le b 25)
  iy := BitVec.ofNat 16 (u16le b 23)
  sp := BitVec.ofNat 16 (u16le b 8)
  pc := BitVec.ofNat 16 pc
  i := byteAt b 10
  r := snapR b
  iff1 := byteAt b 27 != 0
  iff2 := byteAt b 28 != 0
  im := (byteAt b 29).extractLsb' 0 2

/-- `page_bank(PAGE)`: subtract the offset, then the special case 5 becomes 0, then 0..2 are RAM (R113, D29). -/
def pageBank (c : Cfg) (page : Byte) : PageDest :=
  let raw : Int := (page.toNat : Int) - (c.pageOffset : Int)
  let idx : Int := if raw = 5 then 0 else raw
  if 0 ≤ idx ∧ idx ≤ 2 then .ram idx.toNat else .junk

/-- The token at the head of the bytes that are left (R114, in its order; `term` is R115's terminator enable). None at the
end of the stream. -/
def tokenAt (term : Bool) (rest : List Byte) : Option Token :=
  if term = true ∧ rest.take 4 = [0x00, 0xED, 0xED, 0x00] then some .stop
  else
    match rest with
    | [] => none
    | b :: rest1 =>
      if b ≠ 0xED then some (.lit b)
      else
        match rest1 with
        | [] => some .litEd
        | b1 :: rest2 =>
          if b1 ≠ 0xED then some .litEd
          else
            match rest2 with
            | [] => some (.badRun none)
            | [cc] => some (.badRun (some cc))
            | cc :: vv :: _ => some (.run cc vv)

/-! ## The checks of 00_scope.md R9 and 30_encoding.md R108 -/

/-- The constraints of 00_scope.md R9, and the 16 entries of the palette (R7). The derived sizes equal their formulas by
construction (log entry 1). -/
def cfgOk (c : Cfg) : Bool :=
  decide (1 ≤ c.scanlinePeriod) && decide (1 ≤ c.totalScanlines) && decide (1 ≤ c.intHoldTicks) &&
  decide (c.leftBorderPx % 2 = 0) && decide (c.rightBorderPx % 2 = 0) && decide (c.blinkBit < 32) &&
  decide (1 ≤ c.romBanks) && decide (c.videoBank ≤ 2) && decide (1 ≤ c.clockHz) &&
  decide (c.palette.length = 16)

/-- `b` is a whole header that selects the extended layout (30_encoding.md R108: its PC field is 0). -/
def isExtended (b : List Byte) : Bool := decide (headerLength ≤ b.length) && decide (u16le b 6 = 0)

/-- `b` is a whole header that selects the legacy layout (R108: its PC field is not 0). -/
def isLegacy (b : List Byte) : Bool := decide (headerLength ≤ b.length) && decide (u16le b 6 ≠ 0)

end Sys2Proof.Machine
end

