-- ==== Sys2Proof/WellFormed.lean ====
section
/-! DEFINITION. The checks an operation or a configuration must pass to be one the spec gives a meaning: the constraints
on `Cfg` (00_scope.md R9) and, per constructor of `Instr`, the selection conditions of its row (30_encoding.md R92-R94,
R102, R108, R114). -/

namespace Sys2Proof

open Machine

/-- The operation is one its row of the opcode table selects, in a machine configured as `c`. -/
def Instr.wellFormed (c : Cfg) : Instr → Bool
  | .mrd _ _ => true
  | .mwr _ _ => true
  | .irdUla a _ => readPort a == .irdUla
  | .iwrUla a _ => writePort a == .iwrUla
  | .irdJoy a _ => readPort a == .irdJoy
  | .irdOpen a _ => readPort a == .irdOpen
  | .iwrOpen a _ => writePort a == .iwrOpen
  | .idle _ _ => true
  | .noaccM _ _ => true
  | .noaccIo _ _ => true
  | .init _ cfg => cfgOk cfg
  | .reset => true
  | .execUs _ => true
  | .keydn _ => true
  | .keyup _ => true
  | .jmode _ => true
  | .joy _ => true
  | .qload _ => true
  | .save => true
  | .restore _ => true
  | .dinfo => true
  | .tick w => (classify w).isSome
  | .lineOutside n => lineClass c n == .outside
  | .lineBorder n => lineClass c n == .border
  | .lineBitmap n => lineClass c n == .bitmap
  | .qloadExt b => isExtended b
  | .qloadLegacy b => isLegacy b
  | .rleEnd => true
  | .rleRun _ _ => true
  | .rleBadRun _ => true
  | .rleLitEd => true
  | .rleLit b => b != 0xED

end Sys2Proof
end

