-- ==== Sys2Proof/Decode.lean ====
section
/-! DEFINITION. From packets to operations and back (30_encoding.md R91-R94, R107, R108, R114; the byte layout of a packet
is log entry 13). The decoder is total on any bytes and names every rejection; the encoder is written from the same
tables. Last, the opcode table's words laid out as packets. -/

namespace Sys2Proof

open Machine

/-! ## The decoder -/

/-- The bus operation of a class (R92, R93). -/
def busInstr (k : BusClass) (a : Addr) (d : Byte) : Instr :=
  match k with
  | .mrd => .mrd a d
  | .mwr => .mwr a d
  | .irdUla => .irdUla a d
  | .iwrUla => .iwrUla a d
  | .irdJoy => .irdJoy a d
  | .irdOpen => .irdOpen a d
  | .iwrOpen => .iwrOpen a d
  | .idle => .idle a d
  | .noaccM => .noaccM a d
  | .noaccIo => .noaccIo a d

/-- The bus operation a pin word is; a malformed word is rejected (R94). -/
def decodePin (w : Pin) : Except DecodeError Instr :=
  match classify w with
  | some k => .ok (busInstr k (pinAddr w) (pinData w))
  | none => .error .malformedTransaction

/-- A pin word from its four bytes, lowest first; the four bits above the word's 28 must be 0. -/
def pinOfBytes (b0 b1 b2 b3 : Byte) : Option Pin :=
  if b3.extractLsb' 4 4 = 0 then some (b3.extractLsb' 0 4 ++ b2 ++ b1 ++ b0) else none

/-- The bus item of a packet's bytes. -/
def decodeBus (bytes : List Byte) : Except DecodeError Instr :=
  match bytes with
  | [b0, b1, b2, b3] =>
    match pinOfBytes b0 b1 b2 b3 with
    | some w => decodePin w
    | none => .error .badOperand
  | _ => .error .badOperand

/-- TICK: its operand is the engine's pin word, which must not be malformed (R94). -/
def decodeTick (args : List Byte) : Except DecodeError Instr :=
  match args with
  | [b0, b1, b2, b3] =>
    match pinOfBytes b0 b1 b2 b3 with
    | some w => if (classify w).isSome then .ok (.tick w) else .error .malformedTransaction
    | none => .error .badOperand
  | _ => .error .badOperand

/-- LINE: the row is the class of the line index in this configuration (R102). -/
def decodeLine (c : Cfg) (n : Nat) : Instr :=
  match lineClass c n with
  | .outside => .lineOutside n
  | .border => .lineBorder n
  | .bitmap => .lineBitmap n

/-- An operation whose operand is exactly one byte. -/
def decodeByteArg (args : List Byte) (f : Byte → Except DecodeError Instr) : Except DecodeError Instr :=
  match args with
  | [x] => f x
  | _ => .error .badOperand

/-- An operation with no operand. -/
def decodeNoArg (args : List Byte) (i : Instr) : Except DecodeError Instr :=
  match args with
  | [] => .ok i
  | _ :: _ => .error .badOperand

/-- JMODE's operand is one of the four modes (R106, U4). -/
def decodeMode (m : Byte) : Except DecodeError Instr :=
  match modeOf m with
  | some j => .ok (.jmode j)
  | none => .error .modeOutOfRange

/-- JOY's operand is a mask 0..31 (R104, U4). -/
def decodeMask (mm : Byte) : Except DecodeError Instr :=
  if mm.extractLsb' 5 3 = 0 then .ok (.joy (mm.extractLsb' 0 5)) else .error .maskOutOfRange

/-- A host operation: the selector byte of R107, then its operand bytes. DESIGN CHOICE, unsafe (log entry 30): an INIT call
that brings no configuration record is taken under `Cfg.default`; the record (an operand, 70_reset_and_hazards.md R300) is
used by no other operation. -/
def decodeHost (c : Cfg) (cfg? : Option Cfg) (bytes : List Byte) : Except DecodeError Instr :=
  match bytes with
  | [] => .error .unknownSelector
  | sel :: args =>
    match sel.toNat with
    | 0x00 => .ok (.init args (cfg?.getD Cfg.default))
    | 0x01 => decodeNoArg args .reset
    | 0x02 => .ok (.execUs (natOfBytes args))
    | 0x03 => decodeByteArg args fun cc => .ok (.keydn cc)
    | 0x04 => decodeByteArg args fun cc => .ok (.keyup cc)
    | 0x05 => decodeByteArg args decodeMode
    | 0x06 => decodeByteArg args decodeMask
    | 0x07 => .ok (.qload args)
    | 0x08 => decodeNoArg args .save
    | 0x09 => .ok (.restore (natOfBytes args))
    | 0x0A => decodeNoArg args .dinfo
    | 0x10 => decodeTick args
    | 0x11 => .ok (decodeLine c (natOfBytes args))
    | _ => .error .unknownSelector

/-- A snapshot handed over as such: the layout is chosen by the header's PC field (R108). -/
def decodeSnapshot (bytes : List Byte) : Except DecodeError Instr :=
  if bytes.length < headerLength then .error .shortHeader
  else if u16le bytes 6 = 0 then .ok (.qloadExt bytes) else .ok (.qloadLegacy bytes)

/-- The operation of a stream token (R114). -/
def tokenInstr : Token → Instr
  | .stop => .rleEnd
  | .run cc vv => .rleRun cc vv
  | .badRun cc => .rleBadRun cc
  | .litEd => .rleLitEd
  | .lit b => .rleLit b

/-- The token at the head of a compressed stream (R114). -/
def decodeToken (term : Bool) (rest : List Byte) : Except DecodeError Instr :=
  match tokenAt term rest with
  | some t => .ok (tokenInstr t)
  | none => .error .emptyStream

/-- The operation a packet carries, in a machine configured as `c` (which only LINE looks at). -/
def decode (c : Cfg) (p : Packet) : Except DecodeError Instr :=
  match p.fmt with
  | .bus28 => decodeBus p.bytes
  | .host8 => decodeHost c p.cfg p.bytes
  | .z80hdr => decodeSnapshot p.bytes
  | .rle32 term => decodeToken term p.bytes

/-! ## The encoder -/

/-- The kind bits 27:24 of a bus class (R92, R93). -/
def kindBits : BusClass → BitVec 4
  | .mrd => 5
  | .mwr => 9
  | .irdUla => 6
  | .irdJoy => 6
  | .irdOpen => 6
  | .iwrUla => 10
  | .iwrOpen => 10
  | .idle => 0
  | .noaccM => 1
  | .noaccIo => 2

/-- The four bytes of a pin word, lowest first. -/
def pinBytes (w : Pin) : List Byte :=
  [w.extractLsb' 0 8, w.extractLsb' 8 8, w.extractLsb' 16 8, (0 : BitVec 4) ++ w.extractLsb' 24 4]

/-- The packet of a bus transaction. -/
def busPacket (k : BusClass) (a : Addr) (d : Byte) : Packet :=
  { fmt := .bus28, bytes := pinBytes (mkPin (kindBits k) d a), cfg := none }

/-- The packet of a host operation: selector and operand bytes. -/
def hostPacket (sel : Byte) (args : List Byte) : Packet :=
  { fmt := .host8, bytes := sel :: args, cfg := none }

/-- The packet of a stream token; only END needs the terminator enabled (R115). -/
def tokenPacket (term : Bool) (bytes : List Byte) : Packet :=
  { fmt := .rle32 term, bytes := bytes, cfg := none }

/-- The packet of an operation. -/
def encode : Instr → Packet
  | .mrd a d => busPacket .mrd a d
  | .mwr a d => busPacket .mwr a d
  | .irdUla a d => busPacket .irdUla a d
  | .iwrUla a d => busPacket .iwrUla a d
  | .irdJoy a d => busPacket .irdJoy a d
  | .irdOpen a d => busPacket .irdOpen a d
  | .iwrOpen a d => busPacket .iwrOpen a d
  | .idle a d => busPacket .idle a d
  | .noaccM a d => busPacket .noaccM a d
  | .noaccIo a d => busPacket .noaccIo a d
  | .init rom cfg => { fmt := .host8, bytes := 0x00 :: rom, cfg := some cfg }
  | .reset => hostPacket 0x01 []
  | .execUs us => hostPacket 0x02 (bytesOfNat us)
  | .keydn cc => hostPacket 0x03 [cc]
  | .keyup cc => hostPacket 0x04 [cc]
  | .jmode m => hostPacket 0x05 [modeNumber m]
  | .joy mm => hostPacket 0x06 [(0 : BitVec 3) ++ mm]
  | .qload b => hostPacket 0x07 b
  | .save => hostPacket 0x08 []
  | .restore k => hostPacket 0x09 (bytesOfNat k)
  | .dinfo => hostPacket 0x0A []
  | .tick w => hostPacket 0x10 (pinBytes w)
  | .lineOutside n => hostPacket 0x11 (bytesOfNat n)
  | .lineBorder n => hostPacket 0x11 (bytesOfNat n)
  | .lineBitmap n => hostPacket 0x11 (bytesOfNat n)
  | .qloadExt b => { fmt := .z80hdr, bytes := b, cfg := none }
  | .qloadLegacy b => { fmt := .z80hdr, bytes := b, cfg := none }
  | .rleEnd => tokenPacket true [0x00, 0xED, 0xED, 0x00]
  | .rleRun cc vv => tokenPacket false [0xED, 0xED, cc, vv]
  | .rleBadRun none => tokenPacket false [0xED, 0xED]
  | .rleBadRun (some cc) => tokenPacket false [0xED, 0xED, cc]
  | .rleLitEd => tokenPacket false [0xED]
  | .rleLit b => tokenPacket false [b]

/-! ## The words of spec/opcode_table.json -/

/-- Byte `i` (0 lowest) of a table word. -/
def wordByte (w i : Nat) : Byte := BitVec.ofNat 8 (w >>> (8 * i))

/-- Zero operand bytes that a one-byte `HOST8` row needs after its selector: one for KEYDN, KEYUP, JMODE and JOY, four for
TICK; the other operands are 0 or empty when no byte follows. -/
def zeroOperands (sel : Nat) : List Byte :=
  if 3 ≤ sel ∧ sel ≤ 6 then [0] else if sel = 0x10 then [0, 0, 0, 0] else []

/-- A header of zeros but for its PC field (R109). -/
def headerWithPc (pc : Nat) : List Byte :=
  List.replicate 6 0 ++ [wordByte pc 0, wordByte pc 1] ++ List.replicate 22 0

/-- A table word as a packet (log entry 17). One byte is a `HOST8` selector, two the PC field of a `Z80HDR`, three a
window of the compressed stream cut short by its end, four a `BUS28` word, but for the words no `BUS28` row can be (a bit
above 27 set) and the word of END, which are `RLE32` windows; a window's first byte is its most significant one. -/
def tablePacket (nbits w : Nat) : Packet :=
  if nbits = 0 then tokenPacket true [0]
  else if nbits ≤ 8 then hostPacket (wordByte w 0) (zeroOperands w)
  else if nbits ≤ 16 then { fmt := .z80hdr, bytes := headerWithPc w, cfg := none }
  else if nbits ≤ 24 then tokenPacket true [wordByte w 2, wordByte w 1, wordByte w 0]
  else if w = 0x00EDED00 ∨ 2 ^ 28 ≤ w then
    tokenPacket true [wordByte w 3, wordByte w 2, wordByte w 1, wordByte w 0]
  else { fmt := .bus28, bytes := [wordByte w 0, wordByte w 1, wordByte w 2, wordByte w 3], cfg := none }

/-- What the decoder reads from a table word, in the default configuration. -/
def decodeTableWord (nbits w : Nat) : Option Instr :=
  match decode Cfg.default (tablePacket nbits w) with
  | .ok i => some i
  | .error _ => none

end Sys2Proof
end

