-- ==== Sys2Proof/Machine/State.lean ====
section
/-! DEFINITION. The state: MachineState `S` of 10_state.md R20 field for field, the configuration it runs under, the
block's boundary (output trace, bus data, results, records), and the model's own input queue, token scan and free-value
counter. All plain data. INVENTORY.md lists every field with its rule and reset value. -/

namespace Sys2Proof.Machine

/-- A byte array in canonical form: keys strictly rising, no entry equal to what an unlisted key reads as
(`Memory.wf`, Machine/Ops.lean). -/
abbrev Memory := List Host.Cell

/-- MachineState `S` (10_state.md R20): what a save/restore record copies. -/
structure MachineState where
  /-- `S.ram[b][o]` at key `16384*b + o` (R21). -/
  ram : Memory
  /-- `S.rom[r][o]` at key `16384*r + o` (R22). -/
  rom : Memory
  /-- `S.junk[o]` (R23). -/
  junk : Memory
  /-- `S.fb[k]` (R24). -/
  fb : Memory
  /-- `S.scanline_counter`, 1..P (R25). -/
  scanlineCounter : Nat
  /-- `S.line`, 0..N-1 (R26). -/
  line : Nat
  /-- `S.blink_counter` (R27). -/
  blinkCounter : BitVec 32
  /-- `S.last_ula_out` (R28). -/
  lastUlaOut : Byte
  /-- `S.border_color` (R29). -/
  borderColor : BitVec 3
  /-- `S.joy_mode` (R30). -/
  joyMode : JoyMode
  /-- `S.kbd_joymask` (R31). -/
  kbdJoymask : BitVec 5
  /-- `S.joy_joymask` (R32). -/
  joyJoymask : BitVec 5
  /-- `S.int_hold`, 0..H (R33). -/
  intHold : Nat
  /-- `S.int_line` (R34). -/
  intLine : Bool
  /-- `S.kbd.down`, the codes held, strictly rising (R38; log entry 23). -/
  kbdDown : List Byte
  /-- `S.cpu` (R40). -/
  cpu : Cpu
deriving DecidableEq, Repr

/-- A save/restore record (44_snapshot_codec.md R250): version tag and a copy of `S`. `savedUnder` is the model's own
note of the configuration, so that R251's refusal can be made (log entry 12). -/
structure Record where
  version : BitVec 32
  savedUnder : Cfg
  machine : MachineState
deriving DecidableEq, Repr

/-- An output event `Beeper(level)` with its tick stamp (10_state.md R41). -/
structure Beep where
  level : Bool
  tick : Nat
deriving DecidableEq, Repr

/-- The handle to a framebuffer that `display_info` returns (45_host_interface.md R265); a machine has one. -/
inductive FbHandle where
  | fb
deriving DecidableEq, Repr

/-- The answer of `display_info` (45_host_interface.md R265). -/
structure DisplayInfo where
  width : Nat
  height : Nat
  bitsPerPixel : Nat
  strideBytes : Nat
  sizeBytes : Nat
  buffer : FbHandle
  palette : List Rgb
deriving DecidableEq, Repr

/-- What a host operation returns (45_host_interface.md R260, 60_exceptions.md R270). -/
inductive Result where
  /-- No operation that returns a value has been performed. -/
  | none
  /-- INIT made a machine (70_reset_and_hazards.md R300). -/
  | created
  /-- EXEC's tick count (42_sequencer.md R187). -/
  | ticks (n : Nat)
  /-- QLOAD returned true (44_snapshot_codec.md R220). -/
  | loaded
  /-- SAVE returned the record at this place of `records` (44_snapshot_codec.md R250). -/
  | saved (k : Nat)
  /-- RESTORE returned true (44_snapshot_codec.md R251). -/
  | restored
  /-- DINFO's answer (45_host_interface.md R265). -/
  | display (info : DisplayInfo)
  /-- The operation failed and changed nothing; the boolean result is false (60_exceptions.md R270, R271). -/
  | failed (f : Failure)
deriving DecidableEq, Repr

/-- A run of the run-length decoder in progress (44_snapshot_codec.md R240): the bytes not yet scanned, the bytes produced
(newest first), the terminator enable, and whether the scan was stopped. -/
structure Scan where
  rest : List Byte
  outRev : List Byte
  term : Bool
  stopped : Bool
deriving DecidableEq, Repr

/-- The state of the model. -/
structure State where
  /-- A machine exists (70_reset_and_hazards.md R301, R306; log entry 10). -/
  created : Bool
  /-- `Cfg` (00_scope.md R8), fixed by INIT (10_state.md R44; log entry 1). -/
  cfg : Cfg
  /-- `S`. -/
  m : MachineState
  /-- The engine's answers to the ticks of EXEC to come, oldest first (42_sequencer.md R180; log entry 8). -/
  engineIn : List Pin
  /-- `data_in` (42_sequencer.md R180): the byte the engine's last cycle read; none where that cycle was no read, and before
  the first one (U17; log entry 7). -/
  busData : Option Byte
  /-- MODEL'S OWN: how many free values were drawn (log entry 6). -/
  draws : Nat
  /-- Ticks executed since init, the stamp of the trace (10_state.md R41). -/
  ticks : Nat
  /-- The output trace, oldest first (10_state.md R41). -/
  trace : List Beep
  /-- What the last host operation that returns a value returned (log entry 21). -/
  result : Result
  /-- The records the host holds (log entry 12). -/
  records : List Record
  /-- MODEL'S OWN: a stand-alone run of the run-length decoder (log entry 16). -/
  scan : Scan
  /-- MODEL'S OWN: the host's calls and the bus items not yet taken, oldest first (log entry 14). -/
  inbox : List Packet
deriving DecidableEq, Repr

/-- Why the machine stops with a fault: never. The block has no trap, no stuck state and no race (60_exceptions.md R270,
R272; 93_implementation_defined.md Part 1), so this type has no constructor. -/
inductive Fault where
deriving DecidableEq, Repr

/-- Why an operation gets no meaning. -/
inductive Refusal where
  /-- An operation whose meaning is not written yet. Raised by no arm of `exec`; safe. -/
  | notModelled (mnemonic : String)
  /-- The packet is no operation of the block; raised by `step` with the decoder's reason: a malformed pin word (R94, R150,
  U2), a mode outside the four or a mask above 31 (U4), or bytes that encode nothing. Safe. -/
  | undecodable (e : DecodeError)
  /-- TICK or EXEC met a malformed pin word from the engine (R94, R150, U2). Safe. -/
  | malformedTransaction
  /-- An operation on a machine that was never successfully made (70_reset_and_hazards.md R306, U8); raised by every
  operation on a machine but INIT. Safe. -/
  | noMachine
  /-- INIT with a `Cfg` that violates 00_scope.md R9 (70_reset_and_hazards.md R300, U4). Safe. -/
  | badCfg
  /-- RESTORE of a record saved under another `Cfg` (44_snapshot_codec.md R251, U15). Safe. -/
  | cfgMismatch
  /-- RESTORE of a record the host does not hold: no record is named (log entry 12). Safe. -/
  | noSuchRecord
  /-- A term of `Instr` that its row's selection does not admit: LINE of another class, QLOAD of the other layout (log
  entry 24); the decoder produces none. Safe. -/
  | illFormed
deriving DecidableEq, Repr

/-- The machine right after a successful init (10_state.md R45; 70_reset_and_hazards.md R306: there is no other power-on
state) under the default configuration, with nothing called. The ROM image, an argument of init, is all 0 here: DESIGN
CHOICE, unsafe (log entry 3); the engine's block is the configuration's (log entry 2). -/
def State.reset : State where
  created := true
  cfg := Cfg.default
  m :=
    { ram := [], rom := [], junk := [], fb := [],
      scanlineCounter := 224, line := 0, blinkCounter := 0,
      lastUlaOut := 0, borderColor := 0,
      joyMode := .none, kbdJoymask := 0, joyJoymask := 0,
      intHold := 0, intLine := false,
      kbdDown := [], cpu := Cfg.zeroCpu }
  engineIn := []
  busData := none
  draws := 0
  ticks := 0
  trace := []
  result := .none
  records := []
  scan := { rest := [], outRev := [], term := false, stopped := false }
  inbox := []

/-! ## Named updates, one field each (their lemmas: Sys2Proof/Laws/State.lean) -/

/-- `m` with `ram` replaced. -/
def MachineState.setRam (m : MachineState) (v : Memory) : MachineState := { m with ram := v }

/-- `m` with `junk` replaced. -/
def MachineState.setJunk (m : MachineState) (v : Memory) : MachineState := { m with junk := v }

/-- `m` with `fb` replaced. -/
def MachineState.setFb (m : MachineState) (v : Memory) : MachineState := { m with fb := v }

/-- `m` with `scanlineCounter` replaced. -/
def MachineState.setScanlineCounter (m : MachineState) (v : Nat) : MachineState := { m with scanlineCounter := v }

/-- `m` with `line` replaced. -/
def MachineState.setLine (m : MachineState) (v : Nat) : MachineState := { m with line := v }

/-- `m` with `blinkCounter` replaced. -/
def MachineState.setBlinkCounter (m : MachineState) (v : BitVec 32) : MachineState := { m with blinkCounter := v }

/-- `m` with `lastUlaOut` replaced. -/
def MachineState.setLastUlaOut (m : MachineState) (v : Byte) : MachineState := { m with lastUlaOut := v }

/-- `m` with `borderColor` replaced. -/
def MachineState.setBorderColor (m : MachineState) (v : BitVec 3) : MachineState := { m with borderColor := v }

/-- `m` with `joyMode` replaced. -/
def MachineState.setJoyMode (m : MachineState) (v : JoyMode) : MachineState := { m with joyMode := v }

/-- `m` with `kbdJoymask` replaced. -/
def MachineState.setKbdJoymask (m : MachineState) (v : BitVec 5) : MachineState := { m with kbdJoymask := v }

/-- `m` with `joyJoymask` replaced. -/
def MachineState.setJoyJoymask (m : MachineState) (v : BitVec 5) : MachineState := { m with joyJoymask := v }

/-- `m` with `intHold` replaced. -/
def MachineState.setIntHold (m : MachineState) (v : Nat) : MachineState := { m with intHold := v }

/-- `m` with `intLine` replaced. -/
def MachineState.setIntLine (m : MachineState) (v : Bool) : MachineState := { m with intLine := v }

/-- `m` with `kbdDown` replaced. -/
def MachineState.setKbdDown (m : MachineState) (v : List Byte) : MachineState := { m with kbdDown := v }

/-- `m` with `cpu` replaced. -/
def MachineState.setCpu (m : MachineState) (v : Cpu) : MachineState := { m with cpu := v }

/-- `s` with `m` replaced. -/
def State.setMachine (s : State) (v : MachineState) : State := { s with m := v }

/-- `s` with `engineIn` replaced. -/
def State.setEngineIn (s : State) (v : List Pin) : State := { s with engineIn := v }

/-- `s` with `busData` replaced. -/
def State.setBusData (s : State) (v : Option Byte) : State := { s with busData := v }

/-- `s` with `draws` replaced. -/
def State.setDraws (s : State) (v : Nat) : State := { s with draws := v }

/-- `s` with `ticks` replaced. -/
def State.setTicks (s : State) (v : Nat) : State := { s with ticks := v }

/-- `s` with `trace` replaced. -/
def State.setTrace (s : State) (v : List Beep) : State := { s with trace := v }

/-- `s` with `result` replaced. -/
def State.setResult (s : State) (v : Result) : State := { s with result := v }

/-- `s` with `records` replaced. -/
def State.setRecords (s : State) (v : List Record) : State := { s with records := v }

/-- `s` with `scan` replaced. -/
def State.setScan (s : State) (v : Scan) : State := { s with scan := v }

/-- `s` with `inbox` replaced. -/
def State.setInbox (s : State) (v : List Packet) : State := { s with inbox := v }

end Sys2Proof.Machine
end

