-- ==== Sys2Proof/Machine/Ops.lean ====
section
/-! DEFINITION. The named operations over the state that the meanings share: byte arrays in canonical form, memory behind
the bank map (20_memory.md R60-R66), the keyboard matrix (43_input_mux.md R200), the free values, the beeper event, the
frame interrupt (raised and withdrawn: 60_exceptions.md R276, R277), failure results (R270), and the order in which
outcomes are chained. -/

namespace Sys2Proof.Machine

/-! ## Outcomes -/

/-- The outcome of an operation of this block. -/
abbrev Out := Host.Outcome State Fault Refusal

/-- Run `k` after `o`, if `o` gives a next state. -/
def andThen (o : Out) (k : State → Out) : Out :=
  match o with
  | .next s => k s
  | .fault r => .fault r
  | .refused r => .refused r

/-- Every operation on a machine but INIT: refused where no machine exists (70_reset_and_hazards.md R306). -/
def live (s : State) (o : Out) : Out := if s.created then o else .refused .noMachine

/-- `raise`: the operation returns its failure result and `S` stays as it was (60_exceptions.md R270). -/
def failWith (s : State) (f : Failure) : Out := .next (s.setResult (.failed f))

/-! ## Byte arrays -/

/-- What a byte that is not listed reads as: 0, since init zeroes all banks and the framebuffer (10_state.md R45). -/
def unlistedByte : Byte := 0

/-- The byte at key `k`. -/
def Memory.read : Memory → Nat → Byte
  | [], _ => unlistedByte
  | (a, v) :: rest, k => if a = k then v else Memory.read rest k

/-- The entries of a byte string laid out from key `base` on, without the bytes an unlisted key reads as. -/
def cellsFrom : Nat → List Byte → Memory
  | _, [] => []
  | base, b :: bs =>
    if b = unlistedByte then cellsFrom (base + 1) bs else (base, b) :: cellsFrom (base + 1) bs

/-- The array with the byte string written from key `base` on. -/
def Memory.writeBytes (mem : Memory) (base : Nat) (bs : List Byte) : Memory :=
  mem.filter (fun c => decide (c.1 < base)) ++ cellsFrom base bs ++
    mem.filter (fun c => decide (base + bs.length ≤ c.1))

/-- The canonical form of an array of `size` bytes. -/
abbrev Memory.wf (size : Nat) (mem : Memory) : Prop :=
  mem.Pairwise (fun x y => x.1 < y.1) ∧ ∀ c ∈ mem, c.1 < size ∧ c.2 ≠ unlistedByte

/-- `BANK_SIZE` (00_scope.md R7). -/
def bankSize : Nat := 16384

/-- `RAM_BANKS` banks of RAM in bytes (00_scope.md R7). -/
def ramSize : Nat := 3 * bankSize

/-! ## Memory behind the bank map -/

/-- A bank of the map (20_memory.md R61). -/
inductive Bank where
  | rom (b : Nat)
  | ram (b : Nat)
deriving DecidableEq, Repr

/-- `bank_of(addr)` (20_memory.md R62). -/
def bankOf (a : Addr) : Bank :=
  match slotOf a with
  | 0 => .rom 0
  | slot + 1 => .ram slot

/-- The key of offset `o` in bank `b`. -/
def bankKey (b o : Nat) : Nat := b * bankSize + o

/-- `MemRead(addr, 1)` (20_memory.md R64). -/
def memRead (m : MachineState) (a : Addr) : Byte :=
  match bankOf a with
  | .rom b => m.rom.read (bankKey b (offsetOf a))
  | .ram b => m.ram.read (bankKey b (offsetOf a))

/-- `MemWrite(addr, 1, v)` (20_memory.md R65). -/
def memWrite (m : MachineState) (a : Addr) (v : Byte) : MachineState :=
  match bankOf a with
  | .rom _ => m
  | .ram b => m.setRam (m.ram.writeBytes (bankKey b (offsetOf a)) [v])

/-- `VidRead(off)` (20_memory.md R66). -/
def vidRead (c : Cfg) (m : MachineState) (off : Nat) : Byte := m.ram.read (bankKey c.videoBank off)

/-! ## The keyboard matrix (43_input_mux.md R200) -/

/-- `kbd_key_down(cc)`: the set with `cc` in it. -/
def keyPress (down : List Byte) (cc : Byte) : List Byte :=
  down.filter (fun k => decide (k.toNat < cc.toNat)) ++ [cc] ++ down.filter (fun k => decide (cc.toNat < k.toNat))

/-- `kbd_key_up(cc)`: the set without `cc`. -/
def keyRelease (down : List Byte) (cc : Byte) : List Byte := down.filter (fun k => decide (k ≠ cc))

/-- `kbd_key_down(cc)` on the machine. -/
def kbdKeyDown (m : MachineState) (cc : Byte) : MachineState := m.setKbdDown (keyPress m.kbdDown cc)

/-- `kbd_key_up(cc)` on the machine. -/
def kbdKeyUp (m : MachineState) (cc : Byte) : MachineState := m.setKbdDown (keyRelease m.kbdDown cc)

/-- The sense line a `KEYMAP` entry presses in half-row `r`. -/
def entryLine (down : List Byte) (r : Nat) (e : KeyEntry) : BitVec 5 :=
  if e.row.val = r ∧ e.code ∈ down then BitVec.ofNat 5 (2 ^ e.line.val) else 0

/-- OR of a list of sense lines. -/
def orAll : List (BitVec 5) → BitVec 5
  | [] => 0
  | l :: ls => l ||| orAll ls

/-- `matrix(S)[r]` (10_state.md R38). -/
def matrixRow (c : Cfg) (down : List Byte) (r : Nat) : BitVec 5 := orAll (c.keymap.map (entryLine down r))

/-- The lines of every selected half-row, ORed (30_encoding.md R97). -/
def selectedLines (c : Cfg) (down : List Byte) (sel : BitVec 8) : BitVec 5 :=
  orAll ((List.range 8).map fun r => if sel.getLsbD r then matrixRow c down r else 0)

/-! ## Free values, the engine's data byte, the beeper -/

/-- The dispatcher returns a byte the spec calls `any`: a fresh free value (40_bus_dispatcher.md R147, R149). -/
def drawBusByte (s : State) : State := (s.setBusData (some (Config.freeByte s.draws))).setDraws (s.draws + 1)

/-- `data_in` of the next engine step (42_sequencer.md R180): the byte the engine's last cycle read, or `any` where that
cycle was no defined read (U17; log entry 7). -/
def dataIn (s : State) : Byte := s.busData.getD (Config.freeByte s.draws)

/-- `emit Beeper(level)` (10_state.md R41). -/
def emitBeeper (s : State) (level : Bool) : State := s.setTrace (s.trace ++ [{ level := level, tick := s.ticks }])

/-! ## The frame interrupt (60_exceptions.md) -/

/-- `raise_int()` (R276): the block's whole side of taking the frame interrupt (R280). -/
def raiseInt (c : Cfg) (m : MachineState) : MachineState := (m.setIntLine true).setIntHold c.intHoldTicks

/-- `hold_step()` (R277): the line is withdrawn by time alone (R281). -/
def holdStep (m : MachineState) : MachineState :=
  if m.intLine then
    if m.intHold - 1 = 0 then (m.setIntHold 0).setIntLine false else m.setIntHold (m.intHold - 1)
  else m

end Sys2Proof.Machine
end

