-- ==== Sys2Proof/Machine/Control.lean ====
section
/-! DEFINITION. INIT and RESET (70_reset_and_hazards.md R300, R303) and DINFO (45_host_interface.md R265). -/

namespace Sys2Proof.Machine

/-- The ROM image in the ROM banks: `S.rom[r][o] = rom_image[r*16384 + o]` (R300). -/
def installRom (rom : List Byte) : Memory := cellsFrom 0 rom

/-- `S` after a successful init (10_state.md R45). -/
def initMachine (c : Cfg) (rom : List Byte) : MachineState where
  ram := []
  rom := installRom rom
  junk := []
  fb := []
  scanlineCounter := c.scanlinePeriod
  line := 0
  blinkCounter := 0
  lastUlaOut := 0
  borderColor := 0
  joyMode := .none
  kbdJoymask := 0
  joyJoymask := 0
  intHold := 0
  intLine := false
  kbdDown := []
  cpu := c.engineReset

/-- `S` after reset (10_state.md R46, 70_reset_and_hazards.md R303): RAM, ROM, junk, framebuffer and joystick mode stay. -/
def resetMachine (c : Cfg) (m : MachineState) : MachineState :=
  { initMachine c [] with ram := m.ram, rom := m.rom, junk := m.junk, fb := m.fb, joyMode := m.joyMode }

/-- A new machine in the model's state: trace and tick count start over, the engine has read nothing yet. Records, inputs
and the free-value counter belong to the world outside it and stay (log entries 10, 27). -/
def startMachine (c : Cfg) (rom : List Byte) (s : State) : State :=
  { s with created := true, cfg := c, m := initMachine c rom, busData := none, ticks := 0, trace := [], result := .created }

/-- INIT (R300, R301): refused for a `Cfg` outside 00_scope.md R9; a ROM image of the wrong size fails and leaves no
machine (60_exceptions.md R273, log entry 10). -/
def execInit (rom : List Byte) (cfg : Cfg) (s : State) : Out :=
  if cfgOk cfg then
    if rom.length = cfg.romBanks * bankSize then .next (startMachine cfg rom s)
    else failWith { s with created := false } .badRom
  else .refused .badCfg

/-- RESET (R303). -/
def execReset (s : State) : Out := live s (.next (s.setMachine (resetMachine s.cfg s.m)))

/-- The answer of `display_info` (45_host_interface.md R265). -/
def displayInfo (c : Cfg) : DisplayInfo where
  width := fbWidth c
  height := fbHeight c
  bitsPerPixel := 4
  strideBytes := fbStride c
  sizeBytes := fbSize c
  buffer := .fb
  palette := c.palette

/-- DINFO (45_host_interface.md R265): returns the geometry; `S` is unchanged. -/
def execDinfo (s : State) : Out := live s (.next (s.setResult (.display (displayInfo s.cfg))))

end Sys2Proof.Machine
end

