-- ==== Sys2Proof/Machine/Input.lean ====
section
/-! DEFINITION. The Keyboard/Joystick Multiplexer (43_input_mux.md): KEYDN, KEYUP, JMODE, JOY, each one function that
matches on the mode. -/

namespace Sys2Proof.Machine

/-- The code a key event puts to the matrix in a Sinclair mode: a reserved code becomes its digit (R202, R205). -/
def sinclairCode (digit : JoyFn → Byte) (cc : Byte) : Byte :=
  match joyFn? cc with
  | some f => digit f
  | none => cc

/-- KEYDN on the machine (R202, R203). -/
def keyDown (cc : Byte) (m : MachineState) : MachineState :=
  match m.joyMode with
  | .none => kbdKeyDown m cc
  | .kempston =>
    match joyFn? cc with
    | some f => m.setKbdJoymask (m.kbdJoymask ||| joyBit f)
    | none => kbdKeyDown m cc
  | .sinclair1 => kbdKeyDown m (sinclairCode sinclair1Key cc)
  | .sinclair2 => kbdKeyDown m (sinclairCode sinclair2Key cc)

/-- KEYUP on the machine (R205, R204). -/
def keyUp (cc : Byte) (m : MachineState) : MachineState :=
  match m.joyMode with
  | .none => kbdKeyUp m cc
  | .kempston =>
    match joyFn? cc with
    | some f => m.setKbdJoymask (m.kbdJoymask &&& ~~~ joyBit f)
    | none => kbdKeyUp m cc
  | .sinclair1 => kbdKeyUp m (sinclairCode sinclair1Key cc)
  | .sinclair2 => kbdKeyUp m (sinclairCode sinclair2Key cc)

/-- One function of a Sinclair JOY call: its digit pressed or released as the mask says (R207). -/
def joyDigit (digit : JoyFn → Byte) (mm : BitVec 5) (m : MachineState) (f : JoyFn) : MachineState :=
  if mm &&& joyBit f ≠ 0 then kbdKeyDown m (digit f) else kbdKeyUp m (digit f)

/-- JOY on the machine (R207). -/
def joystick (mm : BitVec 5) (m : MachineState) : MachineState :=
  match m.joyMode with
  | .none => m.setJoyJoymask mm
  | .kempston => m.setJoyJoymask mm
  | .sinclair1 => joyFns.foldl (joyDigit sinclair1Key mm) m
  | .sinclair2 => joyFns.foldl (joyDigit sinclair2Key mm) m

/-- KEYDN (R202). -/
def execKeydn (cc : Byte) (s : State) : Out := live s (.next (s.setMachine (keyDown cc s.m)))

/-- KEYUP (R205). -/
def execKeyup (cc : Byte) (s : State) : Out := live s (.next (s.setMachine (keyUp cc s.m)))

/-- JMODE (R206): only the mode changes. -/
def execJmode (mode : JoyMode) (s : State) : Out := live s (.next (s.setMachine (s.m.setJoyMode mode)))

/-- JOY (R207). -/
def execJoy (mm : BitVec 5) (s : State) : Out := live s (.next (s.setMachine (joystick mm s.m)))

end Sys2Proof.Machine
end

