-- ==== Sys2Proof/Machine/Flags.lean ====
section
/-! DEFINITION. Every one-bit condition the spec computes (10_state.md R39 and the port bytes): the blink phase, the
header's compression flag, the tape bit and the byte of a ULA read, the byte of a joystick read. The interrupt line is
`raiseInt` and `holdStep` of Machine/Ops.lean. -/

namespace Sys2Proof.Machine

/-- The blink phase: bit `BLINK_BIT` of `S.blink_counter` (41_video_decoder.md R170). -/
def blinkPhase (c : Cfg) (m : MachineState) : Bool := m.blinkCounter.getLsbD c.blinkBit

/-- The header's compression flag COMPR, bit 5 of `FLAGS0` (30_encoding.md R110): enables the terminator (R115). -/
def comprFlag (b : List Byte) : Bool := (flags0 b).getLsbD 5

/-- TAPE: bit 4 or bit 3 of the last ULA write is 1 (30_encoding.md R96, D8). -/
def tapeBit (m : MachineState) : Bool := m.lastUlaOut &&& 0x18 != 0

/-- The byte of a ULA port read: 1 TAPE 1 KEYS (30_encoding.md R96, 40_bus_dispatcher.md R144). -/
def ulaReadByte (c : Cfg) (m : MachineState) (a : Addr) : Byte :=
  (1 : BitVec 1) ++ BitVec.ofBool (tapeBit m) ++ (1 : BitVec 1) ++
    ~~~ (selectedLines c m.kbdDown (halfRowSelect a))

/-- The byte of a joystick port read (40_bus_dispatcher.md R146). -/
def joyReadByte (m : MachineState) : Byte := (0 : BitVec 3) ++ (m.kbdJoymask ||| m.joyJoymask)

end Sys2Proof.Machine
end

