-- ==== Sys2Proof/Machine/Bus.lean ====
section
/-! DEFINITION. The Bus Dispatcher (40_bus_dispatcher.md): one meaning per bus row, and `dispatch`, which resolves a pin
word against them. A meaning here is the dispatcher's part of a tick (R140); the rest of the tick is Machine/Sequencer.lean
(log entry 15). -/

namespace Sys2Proof.Machine

/-- MRD (R141): the engine gets `MemRead(A, 1)`; nothing else changes. -/
def execMrd (a : Addr) (_d : Byte) (s : State) : Out := live s (.next (s.setBusData (some (memRead s.m a))))

/-- MWR (R142): `MemWrite(A, 1, D)`; a ROM address is ignored. -/
def execMwr (a : Addr) (d : Byte) (s : State) : Out := live s (.next (s.setMachine (memWrite s.m a d)))

/-- IRD.ULA (R144). -/
def execIrdUla (a : Addr) (_d : Byte) (s : State) : Out :=
  live s (.next (s.setBusData (some (ulaReadByte s.cfg s.m a))))

/-- IWR.ULA (R145): the byte is stored, the border taken from it, and the beeper event emitted. -/
def execIwrUla (_a : Addr) (d : Byte) (s : State) : Out :=
  live s (.next (emitBeeper (s.setMachine ((s.m.setLastUlaOut d).setBorderColor (ulaBorder d))) (ulaBeep d)))

/-- IRD.JOY (R146). -/
def execIrdJoy (_a : Addr) (_d : Byte) (s : State) : Out := live s (.next (s.setBusData (some (joyReadByte s.m))))

/-- IRD.OPEN (R147): `S` is unchanged, the byte is `any` (log entry 6). -/
def execIrdOpen (_a : Addr) (_d : Byte) (s : State) : Out := live s (.next (drawBusByte s))

/-- IWR.OPEN (R148): nothing. -/
def execIwrOpen (_a : Addr) (_d : Byte) (s : State) : Out := live s (.next s)

/-- IDLE (R149): nothing. In a tick no byte is handed over, so the next `data_in` is `any` (`beginTick`; U17, log entry 7). -/
def execIdle (_a : Addr) (_d : Byte) (s : State) : Out := live s (.next s)

/-- NOACC.M (R149): nothing; a byte the engine latches in this cycle is `any` (U3, log entry 7). -/
def execNoaccM (_a : Addr) (_d : Byte) (s : State) : Out := live s (.next (drawBusByte s))

/-- NOACC.IO (R149), the engine's interrupt acknowledge cycle: nothing; a byte the engine latches in it is `any` (U3, log
entry 7). -/
def execNoaccIo (_a : Addr) (_d : Byte) (s : State) : Out := live s (.next (drawBusByte s))

/-- Resolve a pin word by its class (R143); a malformed one has no meaning (R150). -/
def dispatch (w : Pin) (s : State) : Out :=
  match classify w with
  | some .mrd => execMrd (pinAddr w) (pinData w) s
  | some .mwr => execMwr (pinAddr w) (pinData w) s
  | some .irdUla => execIrdUla (pinAddr w) (pinData w) s
  | some .iwrUla => execIwrUla (pinAddr w) (pinData w) s
  | some .irdJoy => execIrdJoy (pinAddr w) (pinData w) s
  | some .irdOpen => execIrdOpen (pinAddr w) (pinData w) s
  | some .iwrOpen => execIwrOpen (pinAddr w) (pinData w) s
  | some .idle => execIdle (pinAddr w) (pinData w) s
  | some .noaccM => execNoaccM (pinAddr w) (pinData w) s
  | some .noaccIo => execNoaccIo (pinAddr w) (pinData w) s
  | none => .refused .malformedTransaction

end Sys2Proof.Machine
end

