-- ==== Sys2Proof/Machine/Video.lean ====
section
/-! DEFINITION. The Scanline Video Decoder (41_video_decoder.md): LINE in its three classes, on the machine and as the
meanings of the three LINE rows. -/

namespace Sys2Proof.Machine

/-- The bytes of `px` border pixels of the current border colour (R162, R167). -/
def borderBytes (m : MachineState) (px : Nat) : List Byte := List.replicate (px / 2) (borderByte m.borderColor)

/-- The four framebuffer bytes of cell `x` of bitmap row `yy` (R163-R168). -/
def cellBytes (c : Cfg) (m : MachineState) (yy x : Nat) : List Byte :=
  let pix := vidRead c m (voff yy x)
  let fgbg := colours (vidRead c m (aoff yy x)) (blinkPhase c m)
  [cellByte pix fgbg 0, cellByte pix fgbg 1, cellByte pix fgbg 2, cellByte pix fgbg 3]

/-- The bytes of a border line (R162). -/
def borderRow (c : Cfg) (m : MachineState) : List Byte := List.replicate (fbStride c) (borderByte m.borderColor)

/-- The bytes of a bitmap line: left border, 32 cells, right border (R163). -/
def bitmapRowBytes (c : Cfg) (m : MachineState) (yy : Nat) : List Byte :=
  borderBytes m c.leftBorderPx ++ (List.range 32).flatMap (cellBytes c m yy) ++ borderBytes m c.rightBorderPx

/-- The framebuffer with row `y` replaced (10_state.md R24). -/
def writeRow (c : Cfg) (m : MachineState) (y : Nat) (bytes : List Byte) : MachineState :=
  m.setFb (m.fb.writeBytes (y * fbStride c) bytes)

/-- A border line (R162). -/
def drawBorder (c : Cfg) (n : Nat) (m : MachineState) : MachineState := writeRow c m (fbRow c n) (borderRow c m)

/-- A bitmap line (R163). -/
def drawBitmap (c : Cfg) (n : Nat) (m : MachineState) : MachineState :=
  writeRow c m (fbRow c n) (bitmapRowBytes c m (bitmapRow c n))

/-- `LINE n` (R160). -/
def drawLine (c : Cfg) (n : Nat) (m : MachineState) : MachineState :=
  match lineClass c n with
  | .outside => m
  | .border => drawBorder c n m
  | .bitmap => drawBitmap c n m

/-- LINE, outside class (R161): writes nothing and reads nothing. -/
def execLineOutside (n : Nat) (s : State) : Out :=
  live s (if lineClass s.cfg n = .outside then .next s else .refused .illFormed)

/-- LINE, border class (R162). -/
def execLineBorder (n : Nat) (s : State) : Out :=
  live s (if lineClass s.cfg n = .border then .next (s.setMachine (drawBorder s.cfg n s.m)) else .refused .illFormed)

/-- LINE, bitmap class (R163). -/
def execLineBitmap (n : Nat) (s : State) : Out :=
  live s (if lineClass s.cfg n = .bitmap then .next (s.setMachine (drawBitmap s.cfg n s.m)) else .refused .illFormed)

end Sys2Proof.Machine
end

