-- ==== Sys2Proof/Machine/Sequencer.lean ====
section
/-! DEFINITION. The Frame/Interrupt Sequencer (42_sequencer.md): the two halves of a tick around the transaction, one tick,
a run of ticks, and the meanings of TICK and EXEC. -/

namespace Sys2Proof.Machine

/-- Step 1 of the tick (R181): the engine steps with `int_in` the interrupt line and `data_in` (R180), and answers with the
pin word `w`. With that, the byte of the last cycle is used up: only a read in this tick hands the next one a byte, else it
is `any` (U17; log entry 7). The tick is counted for the output trace (10_state.md R41). -/
def beginTick (w : Pin) (s : State) : State :=
  (((s.setMachine (s.m.setCpu (Config.engineNext s.m.cpu s.m.intLine (dataIn s) w))).setBusData none).setDraws
    (s.draws + 1)).setTicks (s.ticks + 1)

/-- The frame wrap (R184): the line index returns to 0, the blink counter counts a frame, the interrupt is raised. -/
def frameWrap (c : Cfg) (m : MachineState) : MachineState :=
  raiseInt c ((m.setLine 0).setBlinkCounter (m.blinkCounter + 1))

/-- The end of a scanline (R182-R184) and step 4 of the tick: reload, decode the current line, advance the line index;
at the frame wrap raise the interrupt, else let the hold run (R181). -/
def lineEnd (c : Cfg) (m : MachineState) : MachineState :=
  let drawn := drawLine c m.line (m.setScanlineCounter c.scanlinePeriod)
  if c.totalScanlines ≤ m.line + 1 then frameWrap c drawn else holdStep (drawn.setLine (m.line + 1))

/-- Steps 3 and 4 of the tick (R181). -/
def rasterStep (c : Cfg) (m : MachineState) : MachineState :=
  if m.scanlineCounter - 1 = 0 then lineEnd c m else holdStep (m.setScanlineCounter (m.scanlineCounter - 1))

/-- What follows the transaction in a tick. -/
def endTick (s : State) : State := s.setMachine (rasterStep s.cfg s.m)

/-- One tick in which the engine answers with `w` (R181). -/
def tickWith (w : Pin) (s : State) : Out := andThen (dispatch w (beginTick w s)) fun t => .next (endTick t)

/-- The engine is assumed never to issue a malformed word (93_implementation_defined.md U2): an answer that no input gave
ranges over the well-formed words (log entry 8). -/
def wellFormedAnswer (w : Pin) : Pin := if (classify w).isSome then w else idlePin

/-- The engine's answer to the next tick of EXEC: the oldest given from outside, else the engine function's. -/
def engineAnswer (s : State) : Pin :=
  match s.engineIn with
  | w :: _ => w
  | [] => wellFormedAnswer (Config.engineAnswer s.m.cpu s.m.intLine (dataIn s))

/-- The state with that answer taken. -/
def takeAnswer (s : State) : State := s.setEngineIn s.engineIn.tail

/-- `n` ticks (R187). -/
def runTicks : Nat → State → Out
  | 0, s => .next s
  | n + 1, s =>
    match tickWith (engineAnswer s) (takeAnswer s) with
    | .next t => runTicks n t
    | .fault r => .fault r
    | .refused r => .refused r

/-- TICK (R181). -/
def execTick (w : Pin) (s : State) : Out := live s (tickWith w s)

/-- EXEC (R187): `us_to_ticks(us)` ticks; returns their number. -/
def execExecUs (us : Nat) (s : State) : Out :=
  live s (andThen (runTicks (usToTicks s.cfg us) s) fun t => .next (t.setResult (.ticks (usToTicks s.cfg us))))

end Sys2Proof.Machine
end

