-- ==== Sys2Proof/Machine/Snapshot.lean ====
section
/-! DEFINITION. The Snapshot Codec (44_snapshot_codec.md): the run-length decoder and its five tokens, the two layouts of
QLOAD with their staging copy and commit, and SAVE and RESTORE of a record. -/

namespace Sys2Proof.Machine

/-! ## The run-length decoder (R240) -/

/-- The scan past a token of `k` bytes that produced `bs` (all alike, or one). -/
def scanTake (sc : Scan) (k : Nat) (bs : List Byte) : Scan :=
  { sc with rest := sc.rest.drop k, outRev := bs ++ sc.outRev }

/-- END: consumes 4, produces nothing, stops the scan. -/
def scanEnd (sc : Scan) : Scan := { sc with rest := sc.rest.drop 4, stopped := true }

/-- RUN: consumes 4, produces `cc` copies of `vv`. -/
def scanRun (cc vv : Byte) (sc : Scan) : Scan := scanTake sc 4 (List.replicate cc.toNat vv)

/-- LITED: consumes 1, produces `ED`. -/
def scanLitEd (sc : Scan) : Scan := scanTake sc 1 [0xED]

/-- LIT: consumes 1, produces the byte. -/
def scanLit (b : Byte) (sc : Scan) : Scan := scanTake sc 1 [b]

/-- A scan of `src` not yet begun. -/
def scanOf (src : List Byte) (term : Bool) : Scan := { rest := src, outRev := [], term := term, stopped := false }

/-- The scan goes on to its end, at most `fuel` tokens (each takes a byte). -/
def scanLoop : Nat → Scan → Except LoadCause Scan
  | 0, sc => .ok sc
  | fuel + 1, sc =>
    if sc.stopped then .ok sc
    else
      match tokenAt sc.term sc.rest with
      | none => .ok sc
      | some .stop => .ok (scanEnd sc)
      | some (.run cc vv) => scanLoop fuel (scanRun cc vv sc)
      | some (.badRun _) => .error .truncatedRun
      | some .litEd => scanLoop fuel (scanLitEd sc)
      | some (.lit b) => scanLoop fuel (scanLit b sc)

/-- `rle(src, term)` (R240). -/
def rle (src : List Byte) (term : Bool) : Except LoadCause (List Byte) :=
  match scanLoop src.length (scanOf src term) with
  | .ok sc => .ok sc.outRev.reverse
  | .error e => .error e

/-- END (R240) on the stand-alone scan. -/
def execRleEnd (s : State) : Out := .next (s.setScan (scanEnd s.scan))

/-- RUN (R240) on the stand-alone scan. -/
def execRleRun (cc vv : Byte) (s : State) : Out := .next (s.setScan (scanRun cc vv s.scan))

/-- BADRUN (R240): the decoder fails with TruncatedRun and stops. -/
def execRleBadRun (_cc : Option Byte) (s : State) : Out :=
  failWith (s.setScan { s.scan with stopped := true }) (.load .truncatedRun)

/-- LITED (R240) on the stand-alone scan. -/
def execRleLitEd (s : State) : Out := .next (s.setScan (scanLitEd s.scan))

/-- LIT (R240) on the stand-alone scan. -/
def execRleLit (b : Byte) (s : State) : Out := .next (s.setScan (scanLit b s.scan))

/-! ## Quickload -/

/-- The staging copy of the banks a load may write (R221). -/
structure Stage where
  ram : Memory
  junk : Memory
deriving DecidableEq, Repr

/-- Output written into a staged bank from offset 0 (R236, R237). -/
def stagePage (st : Stage) (dest : PageDest) (out : List Byte) : Stage :=
  match dest with
  | .ram b => { st with ram := st.ram.writeBytes (bankKey b 0) out }
  | .junk => { st with junk := st.junk.writeBytes 0 out }

/-- The legacy layout after its header (R224, R225): one block, laid out from RAM bank 0 offset 0 on. -/
def parseLegacy (b : List Byte) (st : Stage) : Except LoadCause Stage :=
  match rle (b.drop headerLength) (comprFlag b) with
  | .error e => .error e
  | .ok out =>
    if ramSize < out.length then .error .outputOverflow
    else .ok { st with ram := st.ram.writeBytes 0 out }

/-- One page (R231-R237): the bytes after it, or why the load fails. `bytes` is what is left of the input, not empty. -/
def parsePage (c : Cfg) (bytes : List Byte) (st : Stage) : Except LoadCause (List Byte × Stage) :=
  if bytes.length < 3 then .error .truncatedPageHeader
  else if u16le bytes 0 = 0xFFFF then .error .uncompressedPage
  else if (bytes.drop 3).length < u16le bytes 0 then .error .pageOverrun
  else
    match rle ((bytes.drop 3).take (u16le bytes 0)) false with
    | .error e => .error e
    | .ok out =>
      if bankSize < out.length then .error .outputOverflow
      else .ok ((bytes.drop 3).drop (u16le bytes 0), stagePage st (pageBank c (byteAt bytes 2)) out)

/-- The page loop (R231), at most `fuel` pages (each takes 3 bytes). -/
def pageLoop (c : Cfg) : Nat → List Byte → Stage → Except LoadCause Stage
  | 0, _, st => .ok st
  | fuel + 1, bytes, st =>
    if bytes = [] then .ok st
    else
      match parsePage c bytes st with
      | .error e => .error e
      | .ok (rest, st') => pageLoop c fuel rest st'

/-- The extended layout after its header (R226-R238): the program counter and the staged banks. -/
def parseExtended (c : Cfg) (b : List Byte) (st : Stage) : Except LoadCause (Nat × Stage) :=
  if b.length < 32 then .error .truncatedExtHeader
  else if u16le b 30 < 3 then .error .extHeaderTooShort
  else if b.length < 32 + u16le b 30 then .error .truncatedExtHeader
  else if byteAt b 34 ∉ c.supportedHwModes then .error .unsupportedHwMode
  else
    match pageLoop c b.length (b.drop (32 + u16le b 30)) st with
    | .error e => .error e
    | .ok st' => .ok (u16le b 32, st')

/-- What `engine_from_image(img)` leaves in the engine's block beside the registers and the prefetch: the engine's reset
value (R246's pseudocode), or whatever another engine makes of the image (45_host_interface.md R262, D33; log entry 29). -/
def restOfImage (c : Cfg) (img : RegImage) : Nat :=
  match c.imageRest with
  | .atReset => c.engineReset.rest
  | .other k => Config.restOfImage k img

/-- `engine_from_image(img)`, a parameter function (45_host_interface.md R262) of which R246 and D33 require that the engine
has the registers of the image and resumes at `img.PC`: the prefetch is primed there. -/
def engineFromImage (c : Cfg) (img : RegImage) : Cpu :=
  { regs := img, prefetch := some img.pc, rest := restOfImage c img }

/-- `commit` (R245, R246). -/
def commit (c : Cfg) (b : List Byte) (pc : Nat) (st : Stage) (m : MachineState) : MachineState :=
  (((m.setRam st.ram).setJunk st.junk).setCpu (engineFromImage c (regImage b pc))).setBorderColor (snapBorder b)

/-- The staging copy of the machine (R221). -/
def stageOf (m : MachineState) : Stage := { ram := m.ram, junk := m.junk }

/-- The legacy path of QLOAD (R224): the machine after it, or why it fails. -/
def loadLegacy (c : Cfg) (b : List Byte) (m : MachineState) : Except LoadCause MachineState :=
  match parseLegacy b (stageOf m) with
  | .error e => .error e
  | .ok st => .ok (commit c b (u16le b 6) st m)

/-- The extended path of QLOAD (R226): the machine after it, or why it fails. -/
def loadExtended (c : Cfg) (b : List Byte) (m : MachineState) : Except LoadCause MachineState :=
  match parseExtended c b (stageOf m) with
  | .error e => .error e
  | .ok (pc, st) => .ok (commit c b pc st m)

/-- `quickload` (R220, R222, R223). -/
def quickload (c : Cfg) (b : List Byte) (m : MachineState) : Except LoadCause MachineState :=
  if b.length < headerLength then .error .truncatedHeader
  else if u16le b 6 ≠ 0 then loadLegacy c b m
  else loadExtended c b m

/-- A load's end: commit as a whole or not at all (R243). -/
def finishLoad (s : State) (r : Except LoadCause MachineState) : Out :=
  match r with
  | .ok m => .next ((s.setMachine m).setResult .loaded)
  | .error e => failWith s (.load e)

/-- QLOAD (R220). -/
def execQload (b : List Byte) (s : State) : Out := live s (finishLoad s (quickload s.cfg b s.m))

/-- QLOAD.EXT (R226). -/
def execQloadExt (b : List Byte) (s : State) : Out :=
  live s (if isExtended b then finishLoad s (loadExtended s.cfg b s.m) else .refused .illFormed)

/-- QLOAD.LEGACY (R224). -/
def execQloadLegacy (b : List Byte) (s : State) : Out :=
  live s (if isLegacy b then finishLoad s (loadLegacy s.cfg b s.m) else .refused .illFormed)

/-! ## Save and restore -/

/-- The record SAVE makes (R250). -/
def recordOf (s : State) : Record :=
  { version := s.cfg.snapshotVersion, savedUnder := s.cfg, machine := s.m }

/-- SAVE (R250): the record joins those the host holds; `S` is unchanged. -/
def execSave (s : State) : Out :=
  live s (.next ((s.setRecords (s.records ++ [recordOf s])).setResult (.saved s.records.length)))

/-- Copy a record back (R251). -/
def restoreRecord (r : Record) (s : State) : Out :=
  if r.version ≠ s.cfg.snapshotVersion then failWith s .versionMismatch
  else if r.savedUnder ≠ s.cfg then .refused .cfgMismatch
  else .next ((s.setMachine r.machine).setResult .restored)

/-- RESTORE (R251). -/
def execRestore (k : Nat) (s : State) : Out :=
  live s (match s.records[k]? with
    | some r => restoreRecord r s
    | none => .refused .noSuchRecord)

end Sys2Proof.Machine
end

