-- ==== Sys2Proof/Machine/Dispatch.lean ====
section
/-! DEFINITION. `exec`: one arm per operation, each one direct call of its meaning. -/

namespace Sys2Proof.Machine

/-- The effect of one operation on the state. -/
def exec (i : Instr) (s : State) : Host.Outcome State Fault Refusal :=
  match i with
  | .mrd a d => Sys2Proof.Machine.execMrd a d s
  | .mwr a d => Sys2Proof.Machine.execMwr a d s
  | .irdUla a d => Sys2Proof.Machine.execIrdUla a d s
  | .iwrUla a d => Sys2Proof.Machine.execIwrUla a d s
  | .irdJoy a d => Sys2Proof.Machine.execIrdJoy a d s
  | .irdOpen a d => Sys2Proof.Machine.execIrdOpen a d s
  | .iwrOpen a d => Sys2Proof.Machine.execIwrOpen a d s
  | .idle a d => Sys2Proof.Machine.execIdle a d s
  | .noaccM a d => Sys2Proof.Machine.execNoaccM a d s
  | .noaccIo a d => Sys2Proof.Machine.execNoaccIo a d s
  | .init rom cfg => Sys2Proof.Machine.execInit rom cfg s
  | .reset => Sys2Proof.Machine.execReset s
  | .execUs us => Sys2Proof.Machine.execExecUs us s
  | .keydn cc => Sys2Proof.Machine.execKeydn cc s
  | .keyup cc => Sys2Proof.Machine.execKeyup cc s
  | .jmode m => Sys2Proof.Machine.execJmode m s
  | .joy mm => Sys2Proof.Machine.execJoy mm s
  | .qload b => Sys2Proof.Machine.execQload b s
  | .save => Sys2Proof.Machine.execSave s
  | .restore k => Sys2Proof.Machine.execRestore k s
  | .dinfo => Sys2Proof.Machine.execDinfo s
  | .tick w => Sys2Proof.Machine.execTick w s
  | .lineOutside n => Sys2Proof.Machine.execLineOutside n s
  | .lineBorder n => Sys2Proof.Machine.execLineBorder n s
  | .lineBitmap n => Sys2Proof.Machine.execLineBitmap n s
  | .qloadExt b => Sys2Proof.Machine.execQloadExt b s
  | .qloadLegacy b => Sys2Proof.Machine.execQloadLegacy b s
  | .rleEnd => Sys2Proof.Machine.execRleEnd s
  | .rleRun cc vv => Sys2Proof.Machine.execRleRun cc vv s
  | .rleBadRun cc => Sys2Proof.Machine.execRleBadRun cc s
  | .rleLitEd => Sys2Proof.Machine.execRleLitEd s
  | .rleLit b => Sys2Proof.Machine.execRleLit b s

end Sys2Proof.Machine
end

