-- ==== Sys2Proof/Machine/Fetch.lean ====
section
/-! DEFINITION. How the next operation reaches the block, and what stands around it in a step: the oldest packet of the
inbox, else the next token of a stand-alone scan; a bus item is one whole tick (30_encoding.md R118), every other item is
the operation alone (log entries 14, 15, 16). -/

namespace Sys2Proof.Machine

/-- The scan as a packet: what is left of its stream. -/
def scanPacket (sc : Scan) : Packet := { fmt := .rle32 sc.term, bytes := sc.rest, cfg := none }

/-- The next packet: the oldest call or bus item, else the head of a scan that is not over; none when nothing is called. -/
def fetch (s : State) : Option Packet :=
  match s.inbox with
  | p :: _ => some p
  | [] => if s.scan.stopped || s.scan.rest.isEmpty then none else some (scanPacket s.scan)

/-- The packet taken from the inbox (a token's own meaning consumes its bytes). -/
def takePacket (s : State) : State := s.setInbox s.inbox.tail

/-- The pin word of a bus item. -/
def packetPin (p : Packet) : Pin :=
  match p.bytes with
  | [b0, b1, b2, b3] => (pinOfBytes b0 b1 b2 b3).getD idlePin
  | _ => idlePin

/-- Run an operation that arrived as packet `p`: a bus item inside one tick (42_sequencer.md R181), the others alone. -/
def aroundItem (p : Packet) (run : State → Out) (s : State) : Out :=
  match p.fmt with
  | .bus28 => andThen (run (beginTick (packetPin p) (takePacket s))) fun t => .next (endTick t)
  | .host8 => run (takePacket s)
  | .z80hdr => run (takePacket s)
  | .rle32 _ => run (takePacket s)

/-- The packet is RESTORE. -/
def isRestore (p : Packet) : Bool := decide (p.fmt = .host8) && p.bytes.head? == some 0x09

/-- The state in which the very next step fetches `p` (log entry 14): a token's bytes become the stream of a fresh
stand-alone scan with nothing called before it; every other packet goes before the calls that wait. RESTORE also needs a
record to restore: when the host holds none, it gets the one SAVE would make. -/
def placePacket (p : Packet) (s : State) : State :=
  match p.fmt with
  | .rle32 term => (s.setInbox []).setScan (scanOf p.bytes term)
  | _ =>
    (s.setInbox (p :: s.inbox)).setRecords
      (if isRestore p && s.records.isEmpty then [recordOf s] else s.records)

end Sys2Proof.Machine
end

