-- ==== Sys2Proof/Machine/Step.lean ====
section
/-! DEFINITION. One step: fetch the next packet, decode it, run the operation with what stands around it. With nothing
called the block does nothing and keeps all state (60_exceptions.md R288). -/

namespace Sys2Proof.Machine

/-- One step of the machine. -/
def step (s : State) : Host.Outcome State Fault Refusal :=
  match fetch s with
  | none => .next s
  | some p =>
    match decode s.cfg p with
    | .error e => .refused (.undecodable e)
    | .ok i => aroundItem p (exec i) s

/-- `s` with the opcode table's word `w` of `nbits` bits placed where `step` fetches next (log entries 14, 17). -/
def State.withFetchWord (s : State) (nbits w : Nat) : State := placePacket (tablePacket nbits w) s

end Sys2Proof.Machine
end

