-- ==== Sys2Proof/Safety.lean ====
section
/-! DEFINITION. What counts as a safe state: the invariants of 10_state.md R47, the canonical form of every byte array, and
the same of every record the host may restore. -/

namespace Sys2Proof.Machine

/-- The invariants of R47 on `S` under the configuration `c`. `S.border_color < 8` and the masks below 32 are in the types. -/
structure MachineState.Inv (c : Cfg) (m : MachineState) : Prop where
  counter_pos : 1 ≤ m.scanlineCounter
  counter_le : m.scanlineCounter ≤ c.scanlinePeriod
  line_lt : m.line < c.totalScanlines
  hold_le : m.intHold ≤ c.intHoldTicks
  line_iff_hold : m.intLine = true ↔ 0 < m.intHold
  ram_wf : Memory.wf ramSize m.ram
  rom_wf : Memory.wf (c.romBanks * bankSize) m.rom
  junk_wf : Memory.wf bankSize m.junk
  fb_wf : Memory.wf (fbSize c) m.fb
  keys_sorted : m.kbdDown.Pairwise (fun x y => x.toNat < y.toNat)

/-- The invariant of the whole state: a legal configuration (00_scope.md R9), R47, and R47 of every record under the
configuration it was saved under ("because the record is a copy of a state that had them"). -/
structure State.Inv (s : State) : Prop where
  cfg_ok : cfgOk s.cfg = true
  machine : s.m.Inv s.cfg
  records : ∀ r ∈ s.records, r.machine.Inv r.savedUnder

/-- The operations on a machine: all but INIT, which makes one, and the stream tokens, which act on a byte stream alone
(45_host_interface.md R261, 70_reset_and_hazards.md R306). -/
def onMachine : Instr → Bool
  | .mrd _ _ => true
  | .mwr _ _ => true
  | .irdUla _ _ => true
  | .iwrUla _ _ => true
  | .irdJoy _ _ => true
  | .irdOpen _ _ => true
  | .iwrOpen _ _ => true
  | .idle _ _ => true
  | .noaccM _ _ => true
  | .noaccIo _ _ => true
  | .init _ _ => false
  | .reset => true
  | .execUs _ => true
  | .keydn _ => true
  | .keyup _ => true
  | .jmode _ => true
  | .joy _ => true
  | .qload _ => true
  | .save => true
  | .restore _ => true
  | .dinfo => true
  | .tick _ => true
  | .lineOutside _ => true
  | .lineBorder _ => true
  | .lineBitmap _ => true
  | .qloadExt _ => true
  | .qloadLegacy _ => true
  | .rleEnd => false
  | .rleRun _ _ => false
  | .rleBadRun _ => false
  | .rleLitEd => false
  | .rleLit _ => false

/-- A page of an extended snapshot as a file carries it (30_encoding.md R112): its number and its compressed bytes. -/
structure SnapPage where
  number : Byte
  data : List Byte
deriving DecidableEq, Repr

/-- The page's bytes: length low byte first, number, data (30_encoding.md R112). -/
def SnapPage.bytes (p : SnapPage) : List Byte :=
  [BitVec.ofNat 8 p.data.length, BitVec.ofNat 8 (p.data.length / 256), p.number] ++ p.data

/-- The page loads: its length is no marker, and its data expand to `out`, at most one bank (44_snapshot_codec.md R233,
R235, R240). -/
def SnapPage.loads (p : SnapPage) (out : List Byte) : Prop :=
  p.data.length < 0xFFFF ∧ rle p.data false = .ok out ∧ out.length ≤ bankSize

/-- `b0` is a header with an extension header the loader accepts, and nothing after it (30_encoding.md R108, R111;
44_snapshot_codec.md R226, R230). -/
structure ExtendedStart (c : Cfg) (b0 : List Byte) : Prop where
  whole : b0.length = 32 + u16le b0 30
  long : 3 ≤ u16le b0 30
  pc_zero : u16le b0 6 = 0
  mode : byteAt b0 34 ∈ c.supportedHwModes

/-- The bytes of several pages, in file order. -/
def pagesBytes (pages : List (SnapPage × List Byte)) : List Byte := pages.flatMap fun p => p.1.bytes

/-- The staged banks after several pages, in file order (44_snapshot_codec.md R236, R237). -/
def stagePages (c : Cfg) (pages : List (SnapPage × List Byte)) (st : Stage) : Stage :=
  pages.foldl (fun st p => stagePage st (pageBank c p.1.number) p.2) st

end Sys2Proof.Machine
end

