-- ==== Sys2Proof/Certificates/Slice0/Obligations.lean ====
section
/-! DEFINITION. The statements for the provers (OBLIGATIONS.json lists them). Each docstring names the rule of spec/ it
formalises; where a rule rests on a decision of the spec (92_eei_decisions.md) or a log entry of the model, it names that. -/

open Sys2Proof Sys2Proof.Machine

/-! ## Encoding -/

/-- A word of every row, written out from the spec's encodings, decodes to its operation: 30_encoding.md R91-R93, R107
(D41), R108, R114; the words of the bus rows are those of 95_test_vectors.md. How a table word is told to be of one format,
and that the operands a one-byte word lacks are zeros, is the model's (log entry 17), as are INIT's default configuration
where a call brings none (log entry 30) and a packet's bytes (log entry 13): those of the two LINE rows that LINE 0 does
not reach carry the line index. -/
def Obligations.TableWordsDecode : Prop :=
  decodeTableWord 28 0x5F30000 = some (.mrd 0x0000 0xF3) ∧
  decodeTableWord 28 0x944BFFF = some (.mwr 0xBFFF 0x44) ∧
  decodeTableWord 28 0x6BDFEFE = some (.irdUla 0xFEFE 0xBD) ∧
  decodeTableWord 28 0xA0500FE = some (.iwrUla 0x00FE 0x05) ∧
  decodeTableWord 28 0x618001F = some (.irdJoy 0x001F 0x18) ∧
  decodeTableWord 28 0x60000FF = some (.irdOpen 0x00FF 0x00) ∧
  decodeTableWord 28 0xA107FFD = some (.iwrOpen 0x7FFD 0x10) ∧
  decodeTableWord 28 0x0000000 = some (.idle 0x0000 0x00) ∧
  decodeTableWord 28 0x1000000 = some (.noaccM 0x0000 0x00) ∧
  decodeTableWord 28 0x2000000 = some (.noaccIo 0x0000 0x00) ∧
  decodeTableWord 8 0x00 = some (.init [] Cfg.default) ∧
  decodeTableWord 8 0x01 = some .reset ∧
  decodeTableWord 8 0x02 = some (.execUs 0) ∧
  decodeTableWord 8 0x03 = some (.keydn 0x00) ∧
  decodeTableWord 8 0x04 = some (.keyup 0x00) ∧
  decodeTableWord 8 0x05 = some (.jmode .none) ∧
  decodeTableWord 8 0x06 = some (.joy 0) ∧
  decodeTableWord 8 0x07 = some (.qload []) ∧
  decodeTableWord 8 0x08 = some .save ∧
  decodeTableWord 8 0x09 = some (.restore 0) ∧
  decodeTableWord 8 0x0A = some .dinfo ∧
  decodeTableWord 8 0x10 = some (.tick 0x0000000) ∧
  decodeTableWord 8 0x11 = some (.lineOutside 0) ∧
  decode Cfg.default { fmt := .host8, bytes := [0x11, 32], cfg := none } = .ok (.lineBorder 32) ∧
  decode Cfg.default { fmt := .host8, bytes := [0x11, 64], cfg := none } = .ok (.lineBitmap 64) ∧
  decodeTableWord 16 0x0000 = some (.qloadExt (List.replicate 30 0)) ∧
  decodeTableWord 16 0x8001 = some (.qloadLegacy (List.replicate 6 0 ++ [0x01, 0x80] ++ List.replicate 22 0)) ∧
  decodeTableWord 32 0x00EDED00 = some .rleEnd ∧
  decodeTableWord 32 0xEDED057A = some (.rleRun 0x05 0x7A) ∧
  decodeTableWord 24 0xEDED05 = some (.rleBadRun (some 0x05)) ∧
  decodeTableWord 32 0xED010200 = some .rleLitEd ∧
  decodeTableWord 32 0x41000000 = some (.rleLit 0x41)

/-- 30_encoding.md R94: the malformed pin words are exactly those with RD and WR both 1, MREQ and IORQ both 1, or a strobe
with neither space bit; a bus item and a TICK with one are refused, and so is an EXEC in any of whose ticks the engine is
made to answer with one, whatever well-formed answers went before; there is no trap. How EXEC's answers and bus items reach
the model, and a bus item's bytes, are the model's (log entries 8, 13, 14). -/
def Obligations.MalformedPinWordsAreRefused : Prop :=
  (∀ w : Pin, classify w = none ↔
      (w.getLsbD 26 = true ∧ w.getLsbD 27 = true) ∨ (w.getLsbD 24 = true ∧ w.getLsbD 25 = true) ∨
      ((w.getLsbD 26 = true ∨ w.getLsbD 27 = true) ∧ w.getLsbD 24 = false ∧ w.getLsbD 25 = false)) ∧
  (∀ (w : Pin) (s : State), classify w = none → s.created = true →
      exec (.tick w) s = .refused .malformedTransaction ∧
      (∀ us pre ws, s.engineIn = pre ++ w :: ws → (∀ x ∈ pre, (classify x).isSome = true) →
        pre.length < usToTicks s.cfg us → exec (.execUs us) s = .refused .malformedTransaction) ∧
      (∀ rest, step (s.setInbox ({ fmt := .bus28, bytes := pinBytes w, cfg := none } :: rest)) =
        .refused (.undecodable .malformedTransaction))) ∧
  (Fault → False)

/-- R92, R93 (decisions D6, D41, D42): the class of a pin word is the row whose mask and match it fits. -/
def Obligations.BusRowsAreMaskAndMatch : Prop :=
  ∀ w : Pin,
    (classify w = some .mrd ↔ w &&& 0x0F000000 = 0x05000000) ∧
    (classify w = some .mwr ↔ w &&& 0x0F000000 = 0x09000000) ∧
    (classify w = some .irdUla ↔ w &&& 0x0F000001 = 0x06000000) ∧
    (classify w = some .iwrUla ↔ w &&& 0x0F000001 = 0x0A000000) ∧
    (classify w = some .irdJoy ↔ w &&& 0x0F0000E1 = 0x06000001) ∧
    (classify w = some .irdOpen ↔ w &&& 0x0F000001 = 0x06000001 ∧ ¬ w &&& 0x0F0000E1 = 0x06000001) ∧
    (classify w = some .iwrOpen ↔ w &&& 0x0F000001 = 0x0A000001) ∧
    (classify w = some .idle ↔ w &&& 0x0F000000 = 0x00000000) ∧
    (classify w = some .noaccM ↔ w &&& 0x0F000000 = 0x01000000) ∧
    (classify w = some .noaccIo ↔ w &&& 0x0F000000 = 0x02000000)

/-- Decoding the encoding of a well-formed operation gives it back, for all 32 rows and every operand (R91-R94, R107,
R108, R114; the byte layout of a packet is the model's, log entry 13). -/
def Obligations.DecodeOfEncodeIsTheOperation : Prop :=
  ∀ (c : Cfg) (i : Instr), i.wellFormed c = true → decode c (encode i) = .ok i

/-! ## Steps -/

/-- A host call or snapshot at the head of the inbox that decodes to `i` runs as `i`, its packet taken (45_host_interface.md
R260, R261; the inbox is the model's, log entry 14). -/
def Obligations.StepRunsTheDecodedHostItem : Prop :=
  ∀ (s : State) (p : Packet) (rest : List Packet) (i : Instr),
    s.inbox = p :: rest → p.fmt ≠ .bus28 → decode s.cfg p = .ok i → step s = exec i (s.setInbox rest)

/-- A bus item at the head of the inbox is one whole tick with that transaction: the engine's step, the operation it
decodes to, the raster (30_encoding.md R118, 42_sequencer.md R181; log entry 15). -/
def Obligations.StepRunsABusItemAsOneTick : Prop :=
  ∀ (s : State) (w : Pin) (rest : List Packet) (i : Instr),
    s.created = true → s.inbox = { fmt := .bus28, bytes := pinBytes w, cfg := none } :: rest →
    decode s.cfg { fmt := .bus28, bytes := pinBytes w, cfg := none } = .ok i →
    step s = exec (.tick w) (s.setInbox rest) ∧
    ∃ u, exec i (beginTick w (s.setInbox rest)) = .next u ∧ step s = .next (endTick u)

/-- With nothing called, a stand-alone scan that is not over runs its next token (30_encoding.md R114; log entry 16), and
where no scan is running either, "the block does nothing between host operations and keeps all state" (60_exceptions.md
R288). -/
def Obligations.StepWithNothingCalled : Prop :=
  ∀ s : State, s.inbox = [] →
    (∀ t, s.scan.stopped = false → tokenAt s.scan.term s.scan.rest = some t → step s = exec (tokenInstr t) s) ∧
    (s.scan.stopped = true ∨ s.scan.rest = [] → step s = .next s)

/-! ## Invariants -/

/-- The state after reset meets the invariants of 10_state.md R47, and its machine is the one INIT makes from a ROM image of
zeros under the default configuration (R45, R306; the image and the engine's block are the model's choice, log entries
2, 3). -/
def Obligations.ResetMeetsTheInvariants : Prop :=
  State.reset.Inv ∧
  ∀ s : State, ∃ t, exec (.init (List.replicate 16384 0) Cfg.default) s = .next t ∧ t.m = State.reset.m ∧
    t.cfg = State.reset.cfg ∧ t.created = State.reset.created ∧ t.trace = State.reset.trace ∧ t.ticks = State.reset.ticks

/-- Every step keeps the invariants of 10_state.md R47, on the machine and on every record, and the canonical form of every
byte array, from every state that has them. -/
def Obligations.StepKeepsTheInvariants : Prop :=
  ∀ s t : State, s.Inv → step s = .next t → t.Inv

/-! ## Memory transactions -/

/-- R64, R141: a memory read hands the engine the byte of the bank and offset its address maps to, changes nothing else,
and gives the same byte again. -/
def Obligations.MemoryReadYieldsTheMappedByte : Prop :=
  ∀ (s : State) (a : Addr) (d : Byte), s.created = true →
    ∃ v, exec (.mrd a d) s = .next (s.setBusData (some v)) ∧
      (∀ b, bankOf a = .rom b → v = s.m.rom.read (16384 * b + a.toNat % 16384)) ∧
      (∀ b, bankOf a = .ram b → v = s.m.ram.read (16384 * b + a.toNat % 16384)) ∧
      (a = 0x3FFF → v = s.m.rom.read 0x3FFF) ∧
      (a = 0x4000 → v = s.m.ram.read 0) ∧
      (a = 0xFFFF → v = s.m.ram.read (16384 * 2 + 0x3FFF)) ∧
      exec (.mrd a d) (s.setBusData (some v)) = .next (s.setBusData (some v))

/-- R60-R62 (decision D3): every address resolves to one bank and one offset, no two to the same. -/
def Obligations.EveryAddressHasOneBankAndOffset : Prop :=
  ∀ a : Addr,
    offsetOf a < 16384 ∧
    (a.toNat < 0x4000 → bankOf a = .rom 0) ∧
    (0x4000 ≤ a.toNat → a.toNat < 0x8000 → bankOf a = .ram 0) ∧
    (0x8000 ≤ a.toNat → a.toNat < 0xC000 → bankOf a = .ram 1) ∧
    (0xC000 ≤ a.toNat → bankOf a = .ram 2) ∧
    ∀ b : Addr, bankOf a = bankOf b → offsetOf a = offsetOf b → a = b

/-- R65, R142 (decisions D3, D5): a memory write at or above 4000H stores its one byte, one below stores nothing; every
other byte of memory reads as before and nothing else changes. -/
def Obligations.MemoryWriteStoresOneRamByteOrNothing : Prop :=
  ∀ (s : State) (a : Addr) (d : Byte), s.created = true →
    ∃ ram : Memory, exec (.mwr a d) s = .next (s.setMachine (s.m.setRam ram)) ∧
      (∀ k, ram.read k = if 0x4000 ≤ a.toNat ∧ k = a.toNat - 0x4000 then d else s.m.ram.read k) ∧
      (a.toNat < 0x4000 → ram = s.m.ram) ∧
      (∀ x : Addr, memRead (s.m.setRam ram) x = if x = a ∧ 0x4000 ≤ a.toNat then d else memRead s.m x)

/-! ## Port transactions -/

/-- R144, R96, R97 (decisions D7, D8, D25): a ULA read gives 1 TAPE 1 KEYS, KEYS wired-OR over every selected half-row, and
changes nothing else. -/
def Obligations.UlaReadIsWiredOr : Prop :=
  ∀ (s : State) (a : Addr) (d : Byte), s.created = true →
    ∃ v : Byte, exec (.irdUla a d) s = .next (s.setBusData (some v)) ∧
      v.getLsbD 7 = true ∧ v.getLsbD 5 = true ∧
      v.getLsbD 6 = (s.m.lastUlaOut.getLsbD 4 || s.m.lastUlaOut.getLsbD 3) ∧
      ∀ k < 5, (v.getLsbD k = false ↔
        ∃ e ∈ s.cfg.keymap, e.line.val = k ∧ e.code ∈ s.m.kbdDown ∧ a.getLsbD (8 + e.row.val) = false)

/-- R145: a ULA write stores the byte, takes the border from its low 3 bits and emits the beeper level, and does nothing
else; every even port address is the ULA's; in a tick all three come before the scanline step. -/
def Obligations.UlaWriteSetsBorderAndBeeper : Prop :=
  (∀ (s : State) (a : Addr) (d : Byte), s.created = true →
    ∃ e : Beep, e.level = d.getLsbD 4 ∧
      exec (.iwrUla a d) s =
        .next ((s.setMachine ((s.m.setLastUlaOut d).setBorderColor (d.extractLsb' 0 3))).setTrace (s.trace ++ [e]))) ∧
  (∀ (a : Addr) (d : Byte), decodePin (mkPin 10 d a) = .ok (.iwrUla a d) ↔ a.getLsbD 0 = false) ∧
  (∀ (s : State) (w : Pin) (a : Addr) (d : Byte), s.created = true → decodePin w = .ok (.iwrUla a d) →
    ∃ u, exec (.iwrUla a d) (beginTick w s) = .next u ∧ exec (.tick w) s = .next (endTick u))

/-- R146 (decisions D6, D21): a joystick read gives the OR of the two masks below three 0 bits, whatever the mode, and
changes nothing else. -/
def Obligations.JoystickReadIsTheOrOfTheMasks : Prop :=
  ∀ (s : State) (a : Addr) (d : Byte), s.created = true →
    ∃ v : Byte, exec (.irdJoy a d) s = .next (s.setBusData (some v)) ∧
      ∀ k, v.getLsbD k = (decide (k < 5) && (s.m.kbdJoymask.getLsbD k || s.m.joyJoymask.getLsbD k))

/-- 40_bus_dispatcher.md R147: a read of an undecoded port hands the engine a byte nothing constrains, drawn afresh, and
changes nothing else. The form of such a byte, an opaque function of the counter of draws, is the model's (log entry 6). -/
def Obligations.OpenPortReadDrawsAFreeByte : Prop :=
  (∀ (s : State) (a : Addr) (d : Byte), s.created = true →
    exec (.irdOpen a d) s = .next ((s.setBusData (some (Config.freeByte s.draws))).setDraws (s.draws + 1))) ∧
  (∀ (a : Addr) (d : Byte),
    decodePin (mkPin 6 d a) = .ok (.irdOpen a d) ↔ a.getLsbD 0 = true ∧ a.extractLsb' 5 3 ≠ 0)

/-- R148: a write to an undecoded port changes nothing, also at an address that reads the joystick. -/
def Obligations.OpenPortWriteChangesNothing : Prop :=
  (∀ (s : State) (a : Addr) (d : Byte), s.created = true → exec (.iwrOpen a d) s = .next s) ∧
  (∀ (a : Addr) (d : Byte), decodePin (mkPin 10 d a) = .ok (.iwrOpen a d) ↔ a.getLsbD 0 = true)

/-- R149 (decision D42; log entry 7 for what the engine latches): IDLE changes nothing; a NOACC cycle changes nothing but
that the byte the engine may latch is a free value. -/
def Obligations.NoAccessChangesNothing : Prop :=
  ∀ (s : State) (a : Addr) (d : Byte), s.created = true →
    exec (.idle a d) s = .next s ∧
    exec (.noaccM a d) s = .next ((s.setBusData (some (Config.freeByte s.draws))).setDraws (s.draws + 1)) ∧
    exec (.noaccIo a d) s = .next ((s.setBusData (some (Config.freeByte s.draws))).setDraws (s.draws + 1))

/-- 60_exceptions.md R283, the frame of the ten bus rows: through a transaction the engine changes only RAM, the last ULA
output and the border colour of `S`; every other field, the records and the configuration stay. RAM changes only under MWR,
and only in the byte at the key `memWrite` computes (40_bus_dispatcher.md R142), the two others and the trace only under
IWR.ULA (R145). A row that reads nothing keeps the byte handed over and draws no free value. An event is stamped with the
tick count (10_state.md R41; log entry 19). -/
def Obligations.TransactionsReachOnlyThreeFields : Prop :=
  ∀ (k : BusClass) (a : Addr) (d : Byte) (s t : State), exec (busInstr k a d) s = .next t →
    t = ((((s.setMachine
            (((s.m.setRam t.m.ram).setLastUlaOut t.m.lastUlaOut).setBorderColor t.m.borderColor)).setBusData
          t.busData).setDraws t.draws).setTrace t.trace) ∧
    (k ≠ .mwr → t.m.ram = s.m.ram) ∧
    (∀ b, bankOf a = .ram b → bankKey b (offsetOf a) = a.toNat - 0x4000) ∧
    (k = .mwr → ∀ j, (∀ b, bankOf a = .ram b → j ≠ bankKey b (offsetOf a)) → t.m.ram.read j = s.m.ram.read j) ∧
    (k = .mwr → ∀ b, bankOf a = .ram b → t.m.ram.read (bankKey b (offsetOf a)) = d) ∧
    (∀ x : Addr, k ≠ .mwr ∨ x ≠ a ∨ (∃ b, bankOf a = .rom b) → memRead t.m x = memRead s.m x) ∧
    (k ≠ .iwrUla → t.m.lastUlaOut = s.m.lastUlaOut ∧ t.m.borderColor = s.m.borderColor ∧ t.trace = s.trace) ∧
    (k = .iwrUla → ∃ e, t.trace = s.trace ++ [e] ∧ e.tick = s.ticks) ∧
    (k = .mwr ∨ k = .iwrUla ∨ k = .iwrOpen ∨ k = .idle → t.busData = s.busData ∧ t.draws = s.draws)

/-- 60_exceptions.md R283: what a transaction answers and emits does not depend on the junk bank, the framebuffer, the
raster position, the blink counter, the interrupt, the joystick mode or the engine's block. -/
def Obligations.TransactionsObserveNoHiddenState : Prop :=
  ∀ (k : BusClass) (a : Addr) (d : Byte) (s : State) (m : MachineState) (t u : State),
    m.ram = s.m.ram → m.rom = s.m.rom → m.lastUlaOut = s.m.lastUlaOut → m.kbdDown = s.m.kbdDown →
    m.kbdJoymask = s.m.kbdJoymask → m.joyJoymask = s.m.joyJoymask →
    exec (busInstr k a d) s = .next t → exec (busInstr k a d) (s.setMachine m) = .next u →
    u.busData = t.busData ∧ u.trace = t.trace ∧ u.m.ram = t.m.ram ∧ u.m.lastUlaOut = t.m.lastUlaOut

/-! ## Video -/

/-- R161 (decision D12): a line with no framebuffer row writes nothing. -/
def Obligations.OutsideLineWritesNothing : Prop :=
  ∀ (s : State) (n : Nat), s.created = true →
    (n < s.cfg.firstFbLine ∨ s.cfg.firstFbLine + fbHeight s.cfg ≤ n) →
    exec (.lineOutside n) s = .next s ∧ exec (decodeLine s.cfg n) s = .next s

/-- R162: a border line fills its row, and only its row, with the current border colour, two pixels a byte. -/
def Obligations.BorderLineFillsItsRow : Prop :=
  ∀ (s : State) (y : Nat), s.created = true → y < fbHeight s.cfg →
    (y < s.cfg.topBorderLines ∨ s.cfg.topBorderLines + 192 ≤ y) →
    ∃ fb : Memory, exec (.lineBorder (s.cfg.firstFbLine + y)) s = .next (s.setMachine (s.m.setFb fb)) ∧
      ∀ k, fb.read k =
        if y * fbStride s.cfg ≤ k ∧ k < y * fbStride s.cfg + fbStride s.cfg then
          (s.m.borderColor.setWidth 8 <<< 4) ||| s.m.borderColor.setWidth 8
        else s.m.fb.read k

/-- R163-R168 (decisions D4, D11, D17-D19): a bitmap line writes its row, and only its row: side borders, and for each of 32
cells four bytes of foreground and background colours picked by the pixel byte's bits, most significant first. -/
def Obligations.BitmapLineDrawsItsRow : Prop :=
  ∀ (s : State) (yy : Nat), s.created = true → cfgOk s.cfg = true → yy < 192 →
    let y := s.cfg.topBorderLines + yy
    let base := y * fbStride s.cfg
    let left := s.cfg.leftBorderPx / 2
    let border : Byte := (s.m.borderColor.setWidth 8 <<< 4) ||| s.m.borderColor.setWidth 8
    ∃ fb : Memory, exec (.lineBitmap (s.cfg.firstFbLine + y)) s = .next (s.setMachine (s.m.setFb fb)) ∧
      (∀ k, ¬ (base ≤ k ∧ k < base + fbStride s.cfg) → fb.read k = s.m.fb.read k) ∧
      (∀ k < left, fb.read (base + k) = border) ∧
      (∀ k < s.cfg.rightBorderPx / 2, fb.read (base + left + 128 + k) = border) ∧
      (∀ x < 32, ∀ j < 4,
        let pix := s.m.ram.read (16384 * s.cfg.videoBank + voff yy x)
        let attr := s.m.ram.read (16384 * s.cfg.videoBank + aoff yy x)
        let swap := attr.getLsbD 7 && s.m.blinkCounter.getLsbD s.cfg.blinkBit
        let bright : Byte := if attr.getLsbD 6 then 8 else 0
        let ink : Byte := (attr.extractLsb' 0 3).setWidth 8
        let paper : Byte := (attr.extractLsb' 3 3).setWidth 8
        let fg := (if swap then paper else ink) ||| bright
        let bg := (if swap then ink else paper) ||| bright
        fb.read (base + left + 4 * x + j) =
          ((if pix.getLsbD (7 - 2 * j) then fg else bg) <<< 4) ||| (if pix.getLsbD (7 - 2 * j - 1) then fg else bg))

/-- R170 (decision D16), R166: blink counters one full cycle of the blink bit apart give the same bytes of a bitmap line;
half a cycle apart the cells with FLASH set have foreground and background swapped and the others are alike. -/
def Obligations.BlinkParity : Prop :=
  ∀ (c : Cfg) (m : MachineState) (yy : Nat), cfgOk c = true →
    bitmapRowBytes c (m.setBlinkCounter (m.blinkCounter + BitVec.ofNat 32 (2 ^ (c.blinkBit + 1)))) yy =
      bitmapRowBytes c m yy ∧
    ∀ (attr pix : Byte) (j : Nat),
      let half := m.setBlinkCounter (m.blinkCounter + BitVec.ofNat 32 (2 ^ c.blinkBit))
      (attr.getLsbD 7 = true → j < 4 →
        cellByte pix (colours attr (blinkPhase c half)) j = cellByte (~~~ pix) (colours attr (blinkPhase c m)) j) ∧
      (attr.getLsbD 7 = false →
        cellByte pix (colours attr (blinkPhase c half)) j = cellByte pix (colours attr (blinkPhase c m)) j)

/-- R99 (conflict C3), R100: the pixel offset redistributes the row bits as the table says and is a bijection onto
0..17FFH; the attribute offset lies in 1800H..1AFFH and has its second form. -/
def Obligations.VideoOffsets : Prop :=
  (∀ yy < 192, ∀ x < 32,
    voff yy x < 0x1800 ∧ aoff yy x = 0x1800 ||| ((yy &&& 0xF8) <<< 2) ||| x ∧ 0x1800 ≤ aoff yy x ∧ aoff yy x < 0x1B00) ∧
  (∀ yy < 256, ∀ x < 32,
    (∀ k < 5, (voff yy x).testBit k = x.testBit k) ∧ (∀ k < 3, (voff yy x).testBit (5 + k) = yy.testBit (3 + k)) ∧
    (∀ k < 3, (voff yy x).testBit (8 + k) = yy.testBit k) ∧ (∀ k < 2, (voff yy x).testBit (11 + k) = yy.testBit (6 + k))) ∧
  (∀ yy < 192, ∀ x < 32, ∀ zz < 192, ∀ w < 32, voff yy x = voff zz w → yy = zz ∧ x = w) ∧
  (∀ o < 0x1800, ∃ yy < 192, ∃ x < 32, voff yy x = o)

/-- R169: LINE completes for every line index, writes no byte outside its row and no state but the framebuffer, and the
bytes it writes depend only on the border colour, the blink phase and the 64 bytes it fetches. -/
def Obligations.LineDependsOnlyOnWhatItFetches : Prop :=
  ∀ (s u : State) (n : Nat), s.created = true → u.created = true → u.cfg = s.cfg → cfgOk s.cfg = true →
    u.m.borderColor = s.m.borderColor →
    u.m.blinkCounter.getLsbD s.cfg.blinkBit = s.m.blinkCounter.getLsbD s.cfg.blinkBit →
    (∀ x < 32, vidRead s.cfg u.m (voff (bitmapRow s.cfg n) x) = vidRead s.cfg s.m (voff (bitmapRow s.cfg n) x)) →
    (∀ x < 32, vidRead s.cfg u.m (aoff (bitmapRow s.cfg n) x) = vidRead s.cfg s.m (aoff (bitmapRow s.cfg n) x)) →
    ∃ fb fb' : Memory,
      exec (decodeLine s.cfg n) s = .next (s.setMachine (s.m.setFb fb)) ∧
      exec (decodeLine s.cfg n) u = .next (u.setMachine (u.m.setFb fb')) ∧
      ∀ k, (fb.read k = s.m.fb.read k ∧ fb'.read k = u.m.fb.read k) ∨
        (fb.read k = fb'.read k ∧ fbRow s.cfg n * fbStride s.cfg ≤ k ∧
          k < fbRow s.cfg n * fbStride s.cfg + fbStride s.cfg)

/-! ## The sequencer -/

/-- 42_sequencer.md R181: one tick is one engine step, then the transaction, then the scanline counter, the line decode, the
line index, the frame wrap with its raise, and, where nothing was raised, the hold step, in this order. The engine steps with
the interrupt line and the byte its last cycle read (R180); where that cycle was no defined read the byte is free (U17), and
so a byte serves one tick only: that reading is the model's (log entry 7), as are the opaque function that gives the engine's
next block (log entry 9) and the counting of the tick before its transaction (log entry 19). The line decode of a tick is
`LINE S.line`: `drawLine` is what exec of the row that the decoder picks for the line does (41_video_decoder.md R160). -/
def Obligations.TickOrder : Prop :=
  (∀ (s : State) (n : Nat), s.created = true →
    exec (decodeLine s.cfg n) s = .next (s.setMachine (drawLine s.cfg n s.m))) ∧
  ∀ (s : State) (w : Pin) (i : Instr), s.created = true → decodePin w = .ok i →
    ∃ (dataByte : Byte) (draws : Nat), (∀ b, s.busData = some b → dataByte = b) ∧
    let stepped :=
      (((s.setMachine (s.m.setCpu (Config.engineNext s.m.cpu s.m.intLine dataByte w))).setBusData none).setDraws
        draws).setTicks (s.ticks + 1)
    let hold := fun m : MachineState =>
      if m.intLine = true then
        let h := m.setIntHold (m.intHold - 1)
        if h.intHold = 0 then h.setIntLine false else h
      else m
    ∃ u, exec i stepped = .next u ∧
      exec (.tick w) s = .next (u.setMachine (
        let m := u.m.setScanlineCounter (u.m.scanlineCounter - 1)
        if m.scanlineCounter = 0 then
          let drawn := drawLine s.cfg m.line (m.setScanlineCounter s.cfg.scanlinePeriod)
          let moved := drawn.setLine (drawn.line + 1)
          if s.cfg.totalScanlines ≤ moved.line then
            (((moved.setLine 0).setBlinkCounter (moved.blinkCounter + 1)).setIntLine true).setIntHold s.cfg.intHoldTicks
          else hold moved
        else hold m))

/-- R182-R184, R276, R277 (decisions D14, D15, D20) on the numbers: what one tick makes of the raster position, the blink
counter and the interrupt, whatever the transaction. -/
def Obligations.TickCountsTheRaster : Prop :=
  ∀ (s : State) (w : Pin), s.created = true → (classify w).isSome = true → 1 ≤ s.m.scanlineCounter →
    (s.m.intLine = true ↔ 0 < s.m.intHold) → 1 ≤ s.cfg.intHoldTicks →
    ∃ t, exec (.tick w) s = .next t ∧ t.ticks = s.ticks + 1 ∧
      t.m.scanlineCounter = (if s.m.scanlineCounter = 1 then s.cfg.scanlinePeriod else s.m.scanlineCounter - 1) ∧
      (t.m.intLine = true ↔ 0 < t.m.intHold) ∧
      (if s.m.scanlineCounter = 1 ∧ s.cfg.totalScanlines ≤ s.m.line + 1 then
        t.m.line = 0 ∧ t.m.blinkCounter = s.m.blinkCounter + 1 ∧ t.m.intHold = s.cfg.intHoldTicks
      else
        t.m.line = (if s.m.scanlineCounter = 1 then s.m.line + 1 else s.m.line) ∧
        t.m.blinkCounter = s.m.blinkCounter ∧ t.m.intHold = s.m.intHold - 1)

/-- 42_sequencer.md R187: EXEC performs exactly `us_to_ticks us` ticks, one after the other, and returns their number; it has
no state of its own. (Where answers were given from outside, none is malformed: U2.) `us_to_ticks` is a parameter function,
with the reference definition floor(us * CLOCK_HZ / 1000000) (R188, decision D39, log entry 25), and 0 microseconds are no
tick. -/
def Obligations.ExecPerformsItsTicks : Prop :=
  (∀ (s : State) (us : Nat), s.created = true → (∀ w ∈ s.engineIn, (classify w).isSome = true) →
    ∃ u, runTicks (usToTicks s.cfg us) s = .next u ∧ u.ticks = s.ticks + usToTicks s.cfg us ∧
      exec (.execUs us) s = .next (u.setResult (.ticks (usToTicks s.cfg us))) ∧
      (usToTicks s.cfg us = 0 → u = s)) ∧
  (∀ s : State, runTicks 0 s = .next s) ∧
  (∀ (n : Nat) (s : State), s.created = true →
    runTicks (n + 1) s = andThen (exec (.tick (engineAnswer s)) (takeAnswer s)) (runTicks n)) ∧
  (∀ c : Cfg, usToTicks c 0 = 0 ∧ (c.conversion = .reference → ∀ us, usToTicks c us = us * c.clockHz / 1000000))

/-- R189, §8 interrupt periodicity (decisions D14, D15): EXEC from a frame start with the interrupt down leaves the raster,
the blink counter and the interrupt where the number of ticks says: a wrap every `P*N` ticks, the line up for `H` of them. -/
def Obligations.ExecRasterPosition : Prop :=
  ∀ (s : State) (us : Nat), s.created = true → cfgOk s.cfg = true → (∀ w ∈ s.engineIn, (classify w).isSome = true) →
    s.m.scanlineCounter = s.cfg.scanlinePeriod → s.m.line = 0 → s.m.intHold = 0 → s.m.intLine = false →
    let n := usToTicks s.cfg us
    let p := s.cfg.scanlinePeriod
    let frame := s.cfg.scanlinePeriod * s.cfg.totalScanlines
    ∃ t, exec (.execUs us) s = .next t ∧ t.result = .ticks n ∧
      t.m.scanlineCounter = p - n % p ∧
      t.m.line = n / p % s.cfg.totalScanlines ∧
      t.m.blinkCounter = s.m.blinkCounter + BitVec.ofNat 32 (n / frame) ∧
      t.m.intHold = (if n < frame then 0 else s.cfg.intHoldTicks - n % frame) ∧
      (t.m.intLine = true ↔ frame ≤ n ∧ n % frame < s.cfg.intHoldTicks)

/-- R187, R118: where the boundaries of EXEC calls fall does not change the result: two calls leave the state of one call
that runs as many ticks. -/
def Obligations.ExecCallBoundariesDoNotMatter : Prop :=
  ∀ (s : State) (us us' both : Nat), s.created = true → (∀ w ∈ s.engineIn, (classify w).isSome = true) →
    usToTicks s.cfg both = usToTicks s.cfg us + usToTicks s.cfg us' →
    ∃ t t', exec (.execUs us) s = .next t ∧ exec (.execUs us') t = .next t' ∧
      exec (.execUs both) s = .next (t'.setResult (.ticks (usToTicks s.cfg both)))

/-- R118, R187: EXEC with answers `ws` given for its ticks leaves what stepping through the bus items `ws` leaves, but for
its returned count. -/
def Obligations.ExecEqualsItsBusItems : Prop :=
  ∀ (s : State) (us : Nat) (ws : List Pin), s.created = true → (∀ w ∈ ws, (classify w).isSome = true) →
    ws.length = usToTicks s.cfg us →
    ∃ u, Host.Core.run Sys2Proof.core ws.length
        ((s.setEngineIn []).setInbox (ws.map fun w => { fmt := .bus28, bytes := pinBytes w, cfg := none })) = .next u ∧
      exec (.execUs us) ((s.setEngineIn ws).setInbox []) = .next (u.setResult (.ticks ws.length))

/-! ## Who writes what -/

/-- R21-R34, R44, R41, R275 of the state's rules: each field of `S`, the configuration and the output trace change only
under the operations its rule names (RESTORE copies a whole record, INIT makes a machine, TICK and EXEC run transactions). -/
def Obligations.FieldsHaveOnlyTheirWriters : Prop :=
  ∀ (i : Instr) (s t : State), exec i s = .next t →
    let init := ∃ rom c, i = .init rom c
    let reset := i = .reset
    let restore := ∃ k, i = .restore k
    let ticks := (∃ w, i = .tick w) ∨ ∃ us, i = .execUs us
    let load := ∃ b, i = .qload b ∨ i = .qloadExt b ∨ i = .qloadLegacy b
    let ulaWrite := ∃ a d, i = .iwrUla a d
    (t.m.rom ≠ s.m.rom → init ∨ restore) ∧
    (t.m.ram ≠ s.m.ram → init ∨ restore ∨ ticks ∨ load ∨ ∃ a d, i = .mwr a d) ∧
    (t.m.junk ≠ s.m.junk → init ∨ restore ∨ load) ∧
    (t.m.fb ≠ s.m.fb → init ∨ restore ∨ ticks ∨ ∃ n, i = .lineBorder n ∨ i = .lineBitmap n) ∧
    (t.m.scanlineCounter ≠ s.m.scanlineCounter → init ∨ reset ∨ restore ∨ ticks) ∧
    (t.m.line ≠ s.m.line → init ∨ reset ∨ restore ∨ ticks) ∧
    (t.m.blinkCounter ≠ s.m.blinkCounter → init ∨ reset ∨ restore ∨ ticks) ∧
    (t.m.intHold ≠ s.m.intHold → init ∨ reset ∨ restore ∨ ticks) ∧
    (t.m.intLine ≠ s.m.intLine → init ∨ reset ∨ restore ∨ ticks) ∧
    (t.m.lastUlaOut ≠ s.m.lastUlaOut → init ∨ reset ∨ restore ∨ ticks ∨ ulaWrite) ∧
    (t.m.borderColor ≠ s.m.borderColor → init ∨ reset ∨ restore ∨ ticks ∨ load ∨ ulaWrite) ∧
    (t.m.joyMode ≠ s.m.joyMode → init ∨ restore ∨ ∃ m, i = .jmode m) ∧
    (t.m.kbdJoymask ≠ s.m.kbdJoymask → init ∨ reset ∨ restore ∨ ∃ cc, i = .keydn cc ∨ i = .keyup cc) ∧
    (t.m.joyJoymask ≠ s.m.joyJoymask → init ∨ reset ∨ restore ∨ ∃ mm, i = .joy mm) ∧
    (t.m.kbdDown ≠ s.m.kbdDown →
      init ∨ reset ∨ restore ∨ (∃ cc, i = .keydn cc ∨ i = .keyup cc) ∨ ∃ mm, i = .joy mm) ∧
    (t.m.cpu ≠ s.m.cpu → init ∨ reset ∨ restore ∨ ticks ∨ load) ∧
    (t.cfg ≠ s.cfg → init) ∧
    (t.trace ≠ s.trace → init ∨ ticks ∨ ulaWrite)

/-! ## Input -/

/-- R103-R106 (decisions D21, D22, D41), R203: the five reserved codes, their mask bits, their digit keys, the mode
numbers. -/
def Obligations.InputTables : Prop :=
  (∀ cc : Byte, joyFn? cc =
    if cc = 0x08 then some .left else if cc = 0x09 then some .right else if cc = 0x0A then some .down
    else if cc = 0x0B then some .up else if cc = 0x20 then some .fire else none) ∧
  (joyBit .right = 1 ∧ joyBit .left = 2 ∧ joyBit .down = 4 ∧ joyBit .up = 8 ∧ joyBit .fire = 16) ∧
  (sinclair1Key .left = 0x31 ∧ sinclair1Key .right = 0x32 ∧ sinclair1Key .down = 0x33 ∧ sinclair1Key .up = 0x34 ∧
    sinclair1Key .fire = 0x35) ∧
  (sinclair2Key .left = 0x36 ∧ sinclair2Key .right = 0x37 ∧ sinclair2Key .down = 0x38 ∧ sinclair2Key .up = 0x39 ∧
    sinclair2Key .fire = 0x30) ∧
  (∀ (n : Byte) (m : JoyMode), modeOf n = some m ↔ n = modeNumber m) ∧
  (modeNumber .none = 0 ∧ modeNumber .kempston = 1 ∧ modeNumber .sinclair1 = 2 ∧ modeNumber .sinclair2 = 3)

/-- 43_input_mux.md R202: KEYDN by the mode, with its corner cases: SPACE in Kempston mode is fire; in Sinclair1 the code 0BH
holds the same member 34H as the "4" key itself, so that the release of either releases it (a sentence R202 itself marks as
"[derived: from rule R200]"). That fire is 20H and bit 4, and up 0BH and in Sinclair1 34H, are the spec's decisions D21 and
D22 (R103-R105, R203), the set of held codes its decision D25 (log entry 26). -/
def Obligations.KeyDownByMode : Prop :=
  ∀ (s : State) (cc : Byte), s.created = true →
    ∃ down mask, exec (.keydn cc) s = .next (s.setMachine ((s.m.setKbdDown down).setKbdJoymask mask)) ∧
      let press := fun x : Byte => mask = s.m.kbdJoymask ∧ ∀ k, k ∈ down ↔ k = x ∨ k ∈ s.m.kbdDown
      (s.m.joyMode = .none → press cc) ∧
      (s.m.joyMode = .kempston →
        (∀ f, joyFn? cc = some f → mask = s.m.kbdJoymask ||| joyBit f ∧ down = s.m.kbdDown) ∧
        (joyFn? cc = none → press cc) ∧
        (cc = 0x20 → mask = s.m.kbdJoymask ||| 16 ∧ down = s.m.kbdDown)) ∧
      (s.m.joyMode = .sinclair1 →
        (∀ f, joyFn? cc = some f → press (sinclair1Key f)) ∧ (joyFn? cc = none → press cc) ∧
        (cc = 0x0B → press 0x34 ∧ ∀ up, up = 0x0B ∨ up = 0x34 →
          ∃ t, exec (.keyup up) (s.setMachine ((s.m.setKbdDown down).setKbdJoymask mask)) = .next t ∧ 0x34 ∉ t.m.kbdDown)) ∧
      (s.m.joyMode = .sinclair2 → (∀ f, joyFn? cc = some f → press (sinclair2Key f)) ∧ (joyFn? cc = none → press cc))

/-- R204, R205: KEYUP is the mirror of KEYDN by the mode at the time of the call; in Kempston mode it leaves the explicit
mask alone; a bit set in Kempston mode stays set when its key is released in mode None. -/
def Obligations.KeyUpByMode : Prop :=
  ∀ (s : State) (cc : Byte), s.created = true →
    ∃ down mask, exec (.keyup cc) s = .next (s.setMachine ((s.m.setKbdDown down).setKbdJoymask mask)) ∧
      let release := fun x : Byte => mask = s.m.kbdJoymask ∧ ∀ k, k ∈ down ↔ k ≠ x ∧ k ∈ s.m.kbdDown
      (s.m.joyMode = .none → release cc) ∧
      (s.m.joyMode = .kempston →
        (∀ f, joyFn? cc = some f → mask = s.m.kbdJoymask &&& ~~~ joyBit f ∧ down = s.m.kbdDown) ∧
        (joyFn? cc = none → release cc)) ∧
      (s.m.joyMode = .sinclair1 →
        (∀ f, joyFn? cc = some f → release (sinclair1Key f)) ∧ (joyFn? cc = none → release cc)) ∧
      (s.m.joyMode = .sinclair2 →
        (∀ f, joyFn? cc = some f → release (sinclair2Key f)) ∧ (joyFn? cc = none → release cc))

/-- R206 (decision D24): JMODE changes the mode and nothing else; a value outside the four modes is no operation (U4). -/
def Obligations.SetJoystickMode : Prop :=
  (∀ (s : State) (m : JoyMode), s.created = true → exec (.jmode m) s = .next (s.setMachine (s.m.setJoyMode m))) ∧
  ∀ (c : Cfg) (n : Byte), 4 ≤ n.toNat →
    decode c { fmt := .host8, bytes := [0x05, n], cfg := none } = .error .modeOutOfRange

/-- R207 (decisions D22, D23): JOY replaces the explicit mask in modes None and Kempston; in a Sinclair mode it presses and
releases the five digit keys as the mask says and leaves both masks alone; a mask above 31 is no operation (U4). -/
def Obligations.JoystickByMode : Prop :=
  (∀ (c : Cfg) (n : Byte), 32 ≤ n.toNat →
    decode c { fmt := .host8, bytes := [0x06, n], cfg := none } = .error .maskOutOfRange) ∧
  ∀ (s : State) (mm : BitVec 5), s.created = true →
    ∃ down mask, exec (.joy mm) s = .next (s.setMachine ((s.m.setKbdDown down).setJoyJoymask mask)) ∧
      let digits := fun key : JoyFn → Byte =>
        mask = s.m.joyJoymask ∧
        (∀ f, key f ∈ down ↔ mm &&& joyBit f ≠ 0) ∧
        ∀ k, (∀ f, k ≠ key f) → (k ∈ down ↔ k ∈ s.m.kbdDown)
      (s.m.joyMode = .none ∨ s.m.joyMode = .kempston → mask = mm ∧ down = s.m.kbdDown) ∧
      (s.m.joyMode = .sinclair1 → digits sinclair1Key) ∧
      (s.m.joyMode = .sinclair2 → digits sinclair2Key)

/-- R208: in Kempston mode joystick input never changes a ULA read; in the Sinclair modes it never changes a joystick read;
in mode None keys reach only the matrix and JOY only the joystick port. -/
def Obligations.InputAsymmetry : Prop :=
  ∀ (s t : State) (cc : Byte) (mm : BitVec 5) (a : Addr), s.created = true →
    let ula := fun s : State => match exec (.irdUla a 0) s with | .next r => r.busData | _ => none
    let joy := fun s : State => match exec (.irdJoy a 0) s with | .next r => r.busData | _ => none
    let key := exec (.keydn cc) s = .next t ∨ exec (.keyup cc) s = .next t
    let stick := exec (.joy mm) s = .next t
    (s.m.joyMode = .kempston → (key ∧ joyFn? cc ≠ none) ∨ stick → ula t = ula s) ∧
    (s.m.joyMode = .sinclair1 ∨ s.m.joyMode = .sinclair2 → key ∨ stick → joy t = joy s) ∧
    (s.m.joyMode = .none → (key → joy t = joy s) ∧ (stick → ula t = ula s))

/-! ## The run-length decoder -/

/-- R240, R114, R115 (decision D31): what the decoder makes of each token at the head of its input. -/
def Obligations.RleTokens : Prop :=
  (∀ term, rle [] term = .ok []) ∧
  (∀ rest, rle (0x00 :: 0xED :: 0xED :: 0x00 :: rest) true = .ok []) ∧
  (∀ cc vv rest term, rle (0xED :: 0xED :: cc :: vv :: rest) term =
    (rle rest term).map (List.replicate cc.toNat vv ++ ·)) ∧
  (∀ cc term, rle [0xED, 0xED] term = .error .truncatedRun ∧ rle [0xED, 0xED, cc] term = .error .truncatedRun) ∧
  (∀ term, rle [0xED] term = .ok [0xED]) ∧
  (∀ b rest term, b ≠ 0xED → rle (0xED :: b :: rest) term = (rle (b :: rest) term).map (0xED :: ·)) ∧
  (∀ b rest term, b ≠ 0xED → ¬ (term = true ∧ (b :: rest).take 4 = [0x00, 0xED, 0xED, 0x00]) →
    rle (b :: rest) term = (rle rest term).map (b :: ·))

/-- R241: the output is at most 255 bytes for every four bytes of input begun, and a failure is a truncated run. -/
def Obligations.RleOutputIsBounded : Prop :=
  ∀ (src : List Byte) (term : Bool),
    (∀ out, rle src term = .ok out → out.length ≤ (src.length + 3) / 4 * 255) ∧
    (∀ e, rle src term = .error e → e = .truncatedRun)

/-- R114, R240 (log entry 16): each token on a stand-alone scan consumes and produces what its row says; BADRUN fails with
TruncatedRun and stops; nothing but the scan (and BADRUN's result) changes. -/
def Obligations.TokensOnAScan : Prop :=
  ∀ (s : State) (cc vv b : Byte) (o : Option Byte),
    exec .rleEnd s = .next (s.setScan { s.scan with rest := s.scan.rest.drop 4, stopped := true }) ∧
    exec (.rleRun cc vv) s = .next (s.setScan { s.scan with
      rest := s.scan.rest.drop 4, outRev := List.replicate cc.toNat vv ++ s.scan.outRev }) ∧
    exec .rleLitEd s = .next (s.setScan { s.scan with rest := s.scan.rest.drop 1, outRev := 0xED :: s.scan.outRev }) ∧
    exec (.rleLit b) s = .next (s.setScan { s.scan with rest := s.scan.rest.drop 1, outRev := b :: s.scan.outRev }) ∧
    exec (.rleBadRun o) s =
      .next ((s.setScan { s.scan with stopped := true }).setResult (.failed (.load .truncatedRun)))

/-- R240 (log entry 16): stepping a stand-alone scan to its end produces what `rle` produces, and ends in the same
failure. -/
def Obligations.StandAloneScanComputesRle : Prop :=
  ∀ (s : State) (src : List Byte) (term : Bool), s.inbox = [] →
    ∃ u, Host.Core.run Sys2Proof.core src.length
        (s.setScan { rest := src, outRev := [], term := term, stopped := false }) = .next u ∧
      (∀ out, rle src term = .ok out → u = s.setScan u.scan ∧ u.scan.outRev.reverse = out) ∧
      (∀ e, rle src term = .error e → u = (s.setScan u.scan).setResult (.failed (.load e)) ∧ u.scan.stopped = true)

/-! ## Quickload -/

/-- R223: the PC field selects the layout: not 0 the legacy one, 0 the extended one. -/
def Obligations.PcFieldSelectsTheLayout : Prop :=
  ∀ (s : State) (b : List Byte), 30 ≤ b.length →
    (u16le b 6 ≠ 0 → exec (.qload b) s = exec (.qloadLegacy b) s) ∧
    (u16le b 6 = 0 → exec (.qload b) s = exec (.qloadExt b) s)

/-- R243: a load takes effect as a whole or leaves every field of `S` as it was; a truncated header, a hardware mode that is
not supported, a page longer than the input and an uncompressed page, wherever it stands, fail. -/
def Obligations.QuickloadIsAtomic : Prop :=
  (∀ (s : State) (i : Instr), s.created = true → i.wellFormed s.cfg = true →
    (∃ b, i = .qload b ∨ i = .qloadExt b ∨ i = .qloadLegacy b) →
    (∃ m, exec i s = .next ((s.setMachine m).setResult .loaded)) ∨
    ∃ cause, exec i s = .next (s.setResult (.failed (.load cause)))) ∧
  (∀ (s : State) (b b0 : List Byte) (pages : List (SnapPage × List Byte)) (tail : List Byte), s.created = true →
    (b.length < 30 ∨
     (35 ≤ b.length ∧ u16le b 6 = 0 ∧ byteAt b 34 ∉ s.cfg.supportedHwModes) ∨
     (b = b0 ++ pagesBytes pages ++ tail ∧ ExtendedStart s.cfg b0 ∧ (∀ p ∈ pages, p.1.loads p.2) ∧ 3 ≤ tail.length ∧
       (u16le tail 0 = 0xFFFF ∨ tail.length < 3 + u16le tail 0))) →
    ∃ cause, exec (.qload b) s = .next (s.setResult (.failed (.load cause))))

/-- R222, R232, R233, R234: fewer than 30 bytes fail with TruncatedHeader; after any number of pages that load, no byte left
ends the load normally, one or two bytes left fail with TruncatedPageHeader, the length FFFFH with UncompressedPage, and a
page longer than what is left with PageOverrun; a failure changes nothing. A page of length 0 is legal and writes nothing. -/
def Obligations.MalformedSnapshotsFail : Prop :=
  (∀ (s : State) (b : List Byte), s.created = true → b.length < 30 →
    exec (.qload b) s = .next (s.setResult (.failed (.load .truncatedHeader)))) ∧
  (∀ n : Byte, SnapPage.loads { number := n, data := [] } [] ∧
    ∀ (st : Stage) (dest : PageDest) (k : Nat),
      (stagePage st dest []).ram.read k = st.ram.read k ∧ (stagePage st dest []).junk.read k = st.junk.read k) ∧
  ∀ (s : State) (b0 : List Byte) (pages : List (SnapPage × List Byte)) (tail : List Byte), s.created = true →
    ExtendedStart s.cfg b0 → (∀ p ∈ pages, p.1.loads p.2) →
    let run := exec (.qload (b0 ++ pagesBytes pages ++ tail)) s
    let fails := fun cause => run = .next (s.setResult (.failed (.load cause)))
    (tail = [] → ∃ m, run = .next ((s.setMachine m).setResult .loaded)) ∧
    (tail.length = 1 ∨ tail.length = 2 → fails .truncatedPageHeader) ∧
    (3 ≤ tail.length → u16le tail 0 = 0xFFFF → fails .uncompressedPage) ∧
    (3 ≤ tail.length → u16le tail 0 ≠ 0xFFFF → tail.length < 3 + u16le tail 0 → fails .pageOverrun)

/-- R231, R235, R240 (decision D31): a page whose stream ends inside a run marker fails with TruncatedRun, one that expands
to more than a bank with OutputOverflow, wherever it is routed (R236); nothing changes. -/
def Obligations.BadPageDataFails : Prop :=
  ∀ (s : State) (b0 : List Byte) (pages : List (SnapPage × List Byte)) (p : SnapPage) (tail : List Byte),
    s.created = true → ExtendedStart s.cfg b0 → (∀ q ∈ pages, q.1.loads q.2) → p.data.length < 0xFFFF →
    let run := exec (.qload (b0 ++ pagesBytes pages ++ (p.bytes ++ tail))) s
    (rle p.data false = .error .truncatedRun → run = .next (s.setResult (.failed (.load .truncatedRun)))) ∧
    (∀ out, rle p.data false = .ok out → 16384 < out.length →
      run = .next (s.setResult (.failed (.load .outputOverflow))))

/-- R226, R230 (decisions D27, D28), R274: the checks of the extension header, in their order. -/
def Obligations.ExtensionHeaderChecks : Prop :=
  ∀ (s : State) (b : List Byte), s.created = true → 30 ≤ b.length → u16le b 6 = 0 →
    let fails := fun cause => exec (.qload b) s = .next (s.setResult (.failed (.load cause))) ∧
      exec (.qloadExt b) s = .next (s.setResult (.failed (.load cause)))
    (b.length < 32 → fails .truncatedExtHeader) ∧
    (32 ≤ b.length → u16le b 30 < 3 → fails .extHeaderTooShort) ∧
    (32 ≤ b.length → 3 ≤ u16le b 30 → b.length < 32 + u16le b 30 → fails .truncatedExtHeader) ∧
    (3 ≤ u16le b 30 → 32 + u16le b 30 ≤ b.length → byteAt b 34 ∉ s.cfg.supportedHwModes → fails .unsupportedHwMode)

/-- R224, R225, R244, R246, R247 (decisions D26, D32, D33): what a legacy load does on success: RAM from 4000H on, registers,
program counter and border; nothing else; and how its block fails. `engine_from_image` is a parameter function
(45_host_interface.md R262): the registers and the primed program counter are fixed, the rest of the engine's block is what
the function makes of the image, in the reference case its reset value (log entry 29). -/
def Obligations.LegacyLoad : Prop :=
  (∀ (c : Cfg) (img : RegImage), c.imageRest = .atReset → restOfImage c img = c.engineReset.rest) ∧
  ∀ (s : State) (b : List Byte), s.created = true → 30 ≤ b.length → u16le b 6 ≠ 0 →
    let both := fun o => exec (.qload b) s = o ∧ exec (.qloadLegacy b) s = o
    (∀ out, rle (b.drop 30) ((byteAt b 12).getLsbD 5) = .ok out →
      (49152 < out.length → both (.next (s.setResult (.failed (.load .outputOverflow))))) ∧
      (out.length ≤ 49152 → ∃ ram : Memory,
        both (.next ((s.setMachine (((s.m.setRam ram).setCpu
          { regs := regImage b (u16le b 6), prefetch := some (BitVec.ofNat 16 (u16le b 6)),
            rest := restOfImage s.cfg (regImage b (u16le b 6)) }).setBorderColor
              ((byteAt b 12).extractLsb' 1 3))).setResult .loaded)) ∧
        ∀ k, ram.read k = if k < out.length then out.getD k 0 else s.m.ram.read k)) ∧
    (rle (b.drop 30) ((byteAt b 12).getLsbD 5) = .error .truncatedRun →
      both (.next (s.setResult (.failed (.load .truncatedRun)))))

/-- R226, R231, R236-R238, R244, R246, R247 (decisions D27-D33): an extended load with pages that load applies them in file
order to the RAM or junk bank each is routed to, from offset 0, and takes the program counter from the extension header;
nothing else changes. The engine's block is as in a legacy load (45_host_interface.md R262; log entry 29). -/
def Obligations.ExtendedLoad : Prop :=
  (∀ (s : State) (b0 : List Byte) (pages : List (SnapPage × List Byte)), s.created = true → ExtendedStart s.cfg b0 →
    (∀ p ∈ pages, p.1.loads p.2) →
    let b := b0 ++ pagesBytes pages
    let stage := pages.foldl (fun st p => stagePage st (pageBank s.cfg p.1.number) p.2)
      { ram := s.m.ram, junk := s.m.junk }
    let t := (s.setMachine ((((s.m.setRam stage.ram).setJunk stage.junk).setCpu
      { regs := regImage b0 (u16le b0 32), prefetch := some (BitVec.ofNat 16 (u16le b0 32)),
        rest := restOfImage s.cfg (regImage b0 (u16le b0 32)) }).setBorderColor
          ((byteAt b0 12).extractLsb' 1 3))).setResult .loaded
    exec (.qload b) s = .next t ∧ exec (.qloadExt b) s = .next t) ∧
  (∀ (st : Stage) (bank : Nat) (out : List Byte) (k : Nat),
    (stagePage st (.ram bank) out).ram.read k =
      (if 16384 * bank ≤ k ∧ k < 16384 * bank + out.length then out.getD (k - 16384 * bank) 0 else st.ram.read k) ∧
    (stagePage st (.ram bank) out).junk = st.junk ∧
    (stagePage st .junk out).junk.read k = (if k < out.length then out.getD k 0 else st.junk.read k) ∧
    (stagePage st .junk out).ram = st.ram)

/-- 30_encoding.md R113 (decision D29): where the page numbers go, whatever `PAGE_OFFSET` is: the index is the page number
less the offset, index 5 is bank 0, 0 to 2 are the RAM banks, every other index, a negative one too, is the junk bank; and
the table of R113, which is the case of the default offset 3. -/
def Obligations.PageDestinations : Prop :=
  (∀ (c : Cfg) (page : Byte),
    (page.toNat < c.pageOffset → pageBank c page = .junk) ∧
    ∀ idx : Nat, page.toNat = c.pageOffset + idx →
      pageBank c page = if idx = 5 then .ram 0 else if idx ≤ 2 then .ram idx else .junk) ∧
  ∀ page : Byte, pageBank Cfg.default page =
    if page = 3 ∨ page = 8 then .ram 0 else if page = 4 then .ram 1 else if page = 5 then .ram 2 else .junk

/-- R109, R110, R116, R244 (decisions D26, D33): the register image, field by field. -/
def Obligations.RegisterImage : Prop :=
  ∀ (b : List Byte) (pc : Nat),
    let g := regImage b pc
    (g.a = byteAt b 0 ∧ g.f = byteAt b 1 ∧ g.c = byteAt b 2 ∧ g.b = byteAt b 3 ∧ g.l = byteAt b 4 ∧ g.h = byteAt b 5 ∧
      g.e = byteAt b 13 ∧ g.d = byteAt b 14) ∧
    (g.altC = byteAt b 15 ∧ g.altB = byteAt b 16 ∧ g.altE = byteAt b 17 ∧ g.altD = byteAt b 18 ∧ g.altL = byteAt b 19 ∧
      g.altH = byteAt b 20 ∧ g.altA = byteAt b 21 ∧ g.altF = byteAt b 22) ∧
    (g.sp = byteAt b 9 ++ byteAt b 8 ∧ g.iy = byteAt b 24 ++ byteAt b 23 ∧ g.ix = byteAt b 26 ++ byteAt b 25 ∧
      (pc < 65536 → g.pc.toNat = pc)) ∧
    (g.i = byteAt b 10 ∧ g.r = (byteAt b 11 &&& (0x7F : Byte)) + ((byteAt b 12 &&& (1 : Byte)) <<< 7)) ∧
    ((g.iff1 = true ↔ byteAt b 27 ≠ 0) ∧ (g.iff2 = true ↔ byteAt b 28 ≠ 0) ∧
      g.im.toNat = (byteAt b 29 &&& (3 : Byte)).toNat)

/-! ## Records -/

/-- R250 (decision D36; the place of the record is the model's, log entry 12): SAVE returns a copy of every field of `S` with
the version tag and changes nothing else. -/
def Obligations.SaveMakesACopy : Prop :=
  ∀ s : State, s.created = true →
    ∃ r : Record, r.version = s.cfg.snapshotVersion ∧ r.machine = s.m ∧ r.savedUnder = s.cfg ∧
      exec .save s = .next ((s.setRecords (s.records ++ [r])).setResult (.saved s.records.length))

/-- 44_snapshot_codec.md R251 (decision D36; which record is meant is the model's place in a list, log entry 12): RESTORE of
a record of the right version, saved under the machine's own configuration, completes: it copies the record back into `S`,
field for field, and changes nothing else. So a record that SAVE made, restored at any later time under the same
configuration, brings `S` back; saving again gives an equal record. -/
def Obligations.RestoreAfterSaveIsTheSavedState : Prop :=
  (∀ (s : State) (k : Nat) (r : Record), s.created = true → s.records[k]? = some r →
    r.version = s.cfg.snapshotVersion → r.savedUnder = s.cfg →
      exec (.restore k) s = .next ((s.setMachine r.machine).setResult .restored)) ∧
  ∀ (s t u : State) (r : Record), s.created = true → exec .save s = .next t → t.records = s.records ++ [r] →
    u.created = true → u.cfg = s.cfg → ∀ k, u.records[k]? = some r →
      exec (.restore k) u = .next ((u.setMachine s.m).setResult .restored) ∧
      ∀ v, exec .save ((u.setMachine s.m).setResult .restored) = .next v → v.records = u.records ++ [r]

/-- R251 (decision D36), U15: RESTORE of a record of another version fails and changes nothing; of one saved under another
configuration it is refused; so is a record the host does not hold (log entry 12). -/
def Obligations.RestoreRejects : Prop :=
  ∀ (s : State) (k : Nat), s.created = true →
    (∀ r, s.records[k]? = some r → r.version ≠ s.cfg.snapshotVersion →
      exec (.restore k) s = .next (s.setResult (.failed .versionMismatch))) ∧
    (∀ r, s.records[k]? = some r → r.version = s.cfg.snapshotVersion → r.savedUnder ≠ s.cfg →
      exec (.restore k) s = .refused .cfgMismatch) ∧
    (s.records[k]? = none → exec (.restore k) s = .refused .noSuchRecord)

/-! ## Init, reset, display info -/

/-- R300, R45 (decision D37; what lies outside the machine stays, log entries 10, 27): INIT with a legal configuration and a
ROM image of the right size makes a fresh machine, whatever was there before; a configuration outside 00_scope.md R9 is
refused. The constraints are those of R9, but for the sizes, which are computed, and with them the 16 palette entries of R7
(log entry 1). -/
def Obligations.InitMakesAFreshMachine : Prop :=
  ∀ (s : State) (rom : List Byte) (c : Cfg),
    (cfgOk c = true ↔
      1 ≤ c.scanlinePeriod ∧ 1 ≤ c.totalScanlines ∧ 1 ≤ c.intHoldTicks ∧ 2 ∣ c.leftBorderPx ∧ 2 ∣ c.rightBorderPx ∧
      c.blinkBit < 32 ∧ 1 ≤ c.romBanks ∧ c.videoBank ≤ 2 ∧ 1 ≤ c.clockHz ∧ c.palette.length = 16) ∧
    (cfgOk c = false → exec (.init rom c) s = .refused .badCfg) ∧
    (cfgOk c = true → rom.length = c.romBanks * 16384 →
      ∃ t, exec (.init rom c) s = .next t ∧
        (t.created = true ∧ t.cfg = c ∧ t.trace = [] ∧ t.ticks = 0 ∧ t.busData = none ∧ t.result = .created) ∧
        (∀ k, t.m.ram.read k = 0 ∧ t.m.junk.read k = 0 ∧ t.m.fb.read k = 0) ∧
        (∀ k, t.m.rom.read k = rom.getD k 0) ∧
        (t.m.scanlineCounter = c.scanlinePeriod ∧ t.m.line = 0 ∧ t.m.blinkCounter = 0 ∧ t.m.lastUlaOut = 0 ∧
          t.m.borderColor = 0 ∧ t.m.joyMode = .none ∧ t.m.kbdJoymask = 0 ∧ t.m.joyJoymask = 0 ∧ t.m.intHold = 0 ∧
          t.m.intLine = false ∧ t.m.kbdDown = [] ∧ t.m.cpu = c.engineReset) ∧
        (t.records = s.records ∧ t.engineIn = s.engineIn ∧ t.draws = s.draws ∧ t.scan = s.scan ∧ t.inbox = s.inbox))

/-- 70_reset_and_hazards.md R301: INIT with a wrong-sized image fails with BadRom and leaves no machine; INIT with a good
image is the recovery. That it leaves none also where there was one before is the model's reading (log entry 10), and so is
the empty image standing for an absent one (log entry 11). -/
def Obligations.BadRomImageFails : Prop :=
  ∀ (s : State) (rom : List Byte) (c : Cfg), cfgOk c = true → rom.length ≠ c.romBanks * 16384 →
    ∃ t, exec (.init rom c) s = .next t ∧ t.created = false ∧ t.result = .failed .badRom ∧
      (∀ i, onMachine i = true → exec i t = .refused .noMachine) ∧
      ∀ good c', cfgOk c' = true → good.length = c'.romBanks * 16384 →
        ∃ u, exec (.init good c') t = .next u ∧ u.created = true ∧ u.result = .created

/-- R306: with no machine every operation on it is refused, and the machine a successful INIT makes does not depend on what
was there before. -/
def Obligations.NoMachineNoOperation : Prop :=
  (∀ (s : State) (i : Instr), s.created = false → onMachine i = true → exec i s = .refused .noMachine) ∧
  (∀ (s s' t t' : State) (rom : List Byte) (c : Cfg), exec (.init rom c) s = .next t → exec (.init rom c) s' = .next t' →
    t.created = true → t'.m = t.m ∧ t'.cfg = t.cfg ∧ t'.created = t.created ∧ t'.trace = t.trace ∧ t'.ticks = t.ticks)

/-- R303, R46 (decision D38): RESET puts the counters, the interrupt, the last ULA output, the border, the masks, the keys
and the engine's block to their start values and keeps everything else. -/
def Obligations.ResetClearsTransientState : Prop :=
  ∀ s : State, s.created = true →
    exec .reset s = .next (s.setMachine (((((((((((s.m.setCpu s.cfg.engineReset).setLastUlaOut 0).setBorderColor
      0).setIntLine false).setIntHold 0).setScanlineCounter s.cfg.scanlinePeriod).setLine 0).setBlinkCounter
      0).setKbdJoymask 0).setJoyJoymask 0).setKbdDown []))

/-- R265 (log entry 21 for where the answer stands): DINFO returns the geometry, a handle to the framebuffer and the palette
and changes nothing. -/
def Obligations.DisplayInfoAnswers : Prop :=
  ∀ s : State, s.created = true →
    ∃ info : DisplayInfo, exec .dinfo s = .next (s.setResult (.display info)) ∧
      info.width = s.cfg.leftBorderPx + 256 + s.cfg.rightBorderPx ∧
      info.height = s.cfg.topBorderLines + 192 + s.cfg.bottomBorderLines ∧
      info.bitsPerPixel = 4 ∧ info.strideBytes = info.width / 2 ∧ info.sizeBytes = info.strideBytes * info.height ∧
      info.buffer = .fb ∧ info.palette = s.cfg.palette
end

