-- ==== Sys2Proof/Laws/State.lean ====
section
/-! SUPPORT. One lemma per field per update of the state, so that no later proof unfolds a record update. -/

namespace Sys2Proof.Machine

@[simp] theorem MachineState.setRam_ram (m : MachineState) (v : Memory) : (m.setRam v).ram = v := rfl
@[simp] theorem MachineState.setRam_rom (m : MachineState) (v : Memory) : (m.setRam v).rom = m.rom := rfl
@[simp] theorem MachineState.setRam_junk (m : MachineState) (v : Memory) : (m.setRam v).junk = m.junk := rfl
@[simp] theorem MachineState.setRam_fb (m : MachineState) (v : Memory) : (m.setRam v).fb = m.fb := rfl
@[simp] theorem MachineState.setRam_scanlineCounter (m : MachineState) (v : Memory) : (m.setRam v).scanlineCounter = m.scanlineCounter := rfl
@[simp] theorem MachineState.setRam_line (m : MachineState) (v : Memory) : (m.setRam v).line = m.line := rfl
@[simp] theorem MachineState.setRam_blinkCounter (m : MachineState) (v : Memory) : (m.setRam v).blinkCounter = m.blinkCounter := rfl
@[simp] theorem MachineState.setRam_lastUlaOut (m : MachineState) (v : Memory) : (m.setRam v).lastUlaOut = m.lastUlaOut := rfl
@[simp] theorem MachineState.setRam_borderColor (m : MachineState) (v : Memory) : (m.setRam v).borderColor = m.borderColor := rfl
@[simp] theorem MachineState.setRam_joyMode (m : MachineState) (v : Memory) : (m.setRam v).joyMode = m.joyMode := rfl
@[simp] theorem MachineState.setRam_kbdJoymask (m : MachineState) (v : Memory) : (m.setRam v).kbdJoymask = m.kbdJoymask := rfl
@[simp] theorem MachineState.setRam_joyJoymask (m : MachineState) (v : Memory) : (m.setRam v).joyJoymask = m.joyJoymask := rfl
@[simp] theorem MachineState.setRam_intHold (m : MachineState) (v : Memory) : (m.setRam v).intHold = m.intHold := rfl
@[simp] theorem MachineState.setRam_intLine (m : MachineState) (v : Memory) : (m.setRam v).intLine = m.intLine := rfl
@[simp] theorem MachineState.setRam_kbdDown (m : MachineState) (v : Memory) : (m.setRam v).kbdDown = m.kbdDown := rfl
@[simp] theorem MachineState.setRam_cpu (m : MachineState) (v : Memory) : (m.setRam v).cpu = m.cpu := rfl

@[simp] theorem MachineState.setJunk_ram (m : MachineState) (v : Memory) : (m.setJunk v).ram = m.ram := rfl
@[simp] theorem MachineState.setJunk_rom (m : MachineState) (v : Memory) : (m.setJunk v).rom = m.rom := rfl
@[simp] theorem MachineState.setJunk_junk (m : MachineState) (v : Memory) : (m.setJunk v).junk = v := rfl
@[simp] theorem MachineState.setJunk_fb (m : MachineState) (v : Memory) : (m.setJunk v).fb = m.fb := rfl
@[simp] theorem MachineState.setJunk_scanlineCounter (m : MachineState) (v : Memory) : (m.setJunk v).scanlineCounter = m.scanlineCounter := rfl
@[simp] theorem MachineState.setJunk_line (m : MachineState) (v : Memory) : (m.setJunk v).line = m.line := rfl
@[simp] theorem MachineState.setJunk_blinkCounter (m : MachineState) (v : Memory) : (m.setJunk v).blinkCounter = m.blinkCounter := rfl
@[simp] theorem MachineState.setJunk_lastUlaOut (m : MachineState) (v : Memory) : (m.setJunk v).lastUlaOut = m.lastUlaOut := rfl
@[simp] theorem MachineState.setJunk_borderColor (m : MachineState) (v : Memory) : (m.setJunk v).borderColor = m.borderColor := rfl
@[simp] theorem MachineState.setJunk_joyMode (m : MachineState) (v : Memory) : (m.setJunk v).joyMode = m.joyMode := rfl
@[simp] theorem MachineState.setJunk_kbdJoymask (m : MachineState) (v : Memory) : (m.setJunk v).kbdJoymask = m.kbdJoymask := rfl
@[simp] theorem MachineState.setJunk_joyJoymask (m : MachineState) (v : Memory) : (m.setJunk v).joyJoymask = m.joyJoymask := rfl
@[simp] theorem MachineState.setJunk_intHold (m : MachineState) (v : Memory) : (m.setJunk v).intHold = m.intHold := rfl
@[simp] theorem MachineState.setJunk_intLine (m : MachineState) (v : Memory) : (m.setJunk v).intLine = m.intLine := rfl
@[simp] theorem MachineState.setJunk_kbdDown (m : MachineState) (v : Memory) : (m.setJunk v).kbdDown = m.kbdDown := rfl
@[simp] theorem MachineState.setJunk_cpu (m : MachineState) (v : Memory) : (m.setJunk v).cpu = m.cpu := rfl

@[simp] theorem MachineState.setFb_ram (m : MachineState) (v : Memory) : (m.setFb v).ram = m.ram := rfl
@[simp] theorem MachineState.setFb_rom (m : MachineState) (v : Memory) : (m.setFb v).rom = m.rom := rfl
@[simp] theorem MachineState.setFb_junk (m : MachineState) (v : Memory) : (m.setFb v).junk = m.junk := rfl
@[simp] theorem MachineState.setFb_fb (m : MachineState) (v : Memory) : (m.setFb v).fb = v := rfl
@[simp] theorem MachineState.setFb_scanlineCounter (m : MachineState) (v : Memory) : (m.setFb v).scanlineCounter = m.scanlineCounter := rfl
@[simp] theorem MachineState.setFb_line (m : MachineState) (v : Memory) : (m.setFb v).line = m.line := rfl
@[simp] theorem MachineState.setFb_blinkCounter (m : MachineState) (v : Memory) : (m.setFb v).blinkCounter = m.blinkCounter := rfl
@[simp] theorem MachineState.setFb_lastUlaOut (m : MachineState) (v : Memory) : (m.setFb v).lastUlaOut = m.lastUlaOut := rfl
@[simp] theorem MachineState.setFb_borderColor (m : MachineState) (v : Memory) : (m.setFb v).borderColor = m.borderColor := rfl
@[simp] theorem MachineState.setFb_joyMode (m : MachineState) (v : Memory) : (m.setFb v).joyMode = m.joyMode := rfl
@[simp] theorem MachineState.setFb_kbdJoymask (m : MachineState) (v : Memory) : (m.setFb v).kbdJoymask = m.kbdJoymask := rfl
@[simp] theorem MachineState.setFb_joyJoymask (m : MachineState) (v : Memory) : (m.setFb v).joyJoymask = m.joyJoymask := rfl
@[simp] theorem MachineState.setFb_intHold (m : MachineState) (v : Memory) : (m.setFb v).intHold = m.intHold := rfl
@[simp] theorem MachineState.setFb_intLine (m : MachineState) (v : Memory) : (m.setFb v).intLine = m.intLine := rfl
@[simp] theorem MachineState.setFb_kbdDown (m : MachineState) (v : Memory) : (m.setFb v).kbdDown = m.kbdDown := rfl
@[simp] theorem MachineState.setFb_cpu (m : MachineState) (v : Memory) : (m.setFb v).cpu = m.cpu := rfl

@[simp] theorem MachineState.setScanlineCounter_ram (m : MachineState) (v : Nat) : (m.setScanlineCounter v).ram = m.ram := rfl
@[simp] theorem MachineState.setScanlineCounter_rom (m : MachineState) (v : Nat) : (m.setScanlineCounter v).rom = m.rom := rfl
@[simp] theorem MachineState.setScanlineCounter_junk (m : MachineState) (v : Nat) : (m.setScanlineCounter v).junk = m.junk := rfl
@[simp] theorem MachineState.setScanlineCounter_fb (m : MachineState) (v : Nat) : (m.setScanlineCounter v).fb = m.fb := rfl
@[simp] theorem MachineState.setScanlineCounter_scanlineCounter (m : MachineState) (v : Nat) : (m.setScanlineCounter v).scanlineCounter = v := rfl
@[simp] theorem MachineState.setScanlineCounter_line (m : MachineState) (v : Nat) : (m.setScanlineCounter v).line = m.line := rfl
@[simp] theorem MachineState.setScanlineCounter_blinkCounter (m : MachineState) (v : Nat) : (m.setScanlineCounter v).blinkCounter = m.blinkCounter := rfl
@[simp] theorem MachineState.setScanlineCounter_lastUlaOut (m : MachineState) (v : Nat) : (m.setScanlineCounter v).lastUlaOut = m.lastUlaOut := rfl
@[simp] theorem MachineState.setScanlineCounter_borderColor (m : MachineState) (v : Nat) : (m.setScanlineCounter v).borderColor = m.borderColor := rfl
@[simp] theorem MachineState.setScanlineCounter_joyMode (m : MachineState) (v : Nat) : (m.setScanlineCounter v).joyMode = m.joyMode := rfl
@[simp] theorem MachineState.setScanlineCounter_kbdJoymask (m : MachineState) (v : Nat) : (m.setScanlineCounter v).kbdJoymask = m.kbdJoymask := rfl
@[simp] theorem MachineState.setScanlineCounter_joyJoymask (m : MachineState) (v : Nat) : (m.setScanlineCounter v).joyJoymask = m.joyJoymask := rfl
@[simp] theorem MachineState.setScanlineCounter_intHold (m : MachineState) (v : Nat) : (m.setScanlineCounter v).intHold = m.intHold := rfl
@[simp] theorem MachineState.setScanlineCounter_intLine (m : MachineState) (v : Nat) : (m.setScanlineCounter v).intLine = m.intLine := rfl
@[simp] theorem MachineState.setScanlineCounter_kbdDown (m : MachineState) (v : Nat) : (m.setScanlineCounter v).kbdDown = m.kbdDown := rfl
@[simp] theorem MachineState.setScanlineCounter_cpu (m : MachineState) (v : Nat) : (m.setScanlineCounter v).cpu = m.cpu := rfl

@[simp] theorem MachineState.setLine_ram (m : MachineState) (v : Nat) : (m.setLine v).ram = m.ram := rfl
@[simp] theorem MachineState.setLine_rom (m : MachineState) (v : Nat) : (m.setLine v).rom = m.rom := rfl
@[simp] theorem MachineState.setLine_junk (m : MachineState) (v : Nat) : (m.setLine v).junk = m.junk := rfl
@[simp] theorem MachineState.setLine_fb (m : MachineState) (v : Nat) : (m.setLine v).fb = m.fb := rfl
@[simp] theorem MachineState.setLine_scanlineCounter (m : MachineState) (v : Nat) : (m.setLine v).scanlineCounter = m.scanlineCounter := rfl
@[simp] theorem MachineState.setLine_line (m : MachineState) (v : Nat) : (m.setLine v).line = v := rfl
@[simp] theorem MachineState.setLine_blinkCounter (m : MachineState) (v : Nat) : (m.setLine v).blinkCounter = m.blinkCounter := rfl
@[simp] theorem MachineState.setLine_lastUlaOut (m : MachineState) (v : Nat) : (m.setLine v).lastUlaOut = m.lastUlaOut := rfl
@[simp] theorem MachineState.setLine_borderColor (m : MachineState) (v : Nat) : (m.setLine v).borderColor = m.borderColor := rfl
@[simp] theorem MachineState.setLine_joyMode (m : MachineState) (v : Nat) : (m.setLine v).joyMode = m.joyMode := rfl
@[simp] theorem MachineState.setLine_kbdJoymask (m : MachineState) (v : Nat) : (m.setLine v).kbdJoymask = m.kbdJoymask := rfl
@[simp] theorem MachineState.setLine_joyJoymask (m : MachineState) (v : Nat) : (m.setLine v).joyJoymask = m.joyJoymask := rfl
@[simp] theorem MachineState.setLine_intHold (m : MachineState) (v : Nat) : (m.setLine v).intHold = m.intHold := rfl
@[simp] theorem MachineState.setLine_intLine (m : MachineState) (v : Nat) : (m.setLine v).intLine = m.intLine := rfl
@[simp] theorem MachineState.setLine_kbdDown (m : MachineState) (v : Nat) : (m.setLine v).kbdDown = m.kbdDown := rfl
@[simp] theorem MachineState.setLine_cpu (m : MachineState) (v : Nat) : (m.setLine v).cpu = m.cpu := rfl

@[simp] theorem MachineState.setBlinkCounter_ram (m : MachineState) (v : BitVec 32) : (m.setBlinkCounter v).ram = m.ram := rfl
@[simp] theorem MachineState.setBlinkCounter_rom (m : MachineState) (v : BitVec 32) : (m.setBlinkCounter v).rom = m.rom := rfl
@[simp] theorem MachineState.setBlinkCounter_junk (m : MachineState) (v : BitVec 32) : (m.setBlinkCounter v).junk = m.junk := rfl
@[simp] theorem MachineState.setBlinkCounter_fb (m : MachineState) (v : BitVec 32) : (m.setBlinkCounter v).fb = m.fb := rfl
@[simp] theorem MachineState.setBlinkCounter_scanlineCounter (m : MachineState) (v : BitVec 32) : (m.setBlinkCounter v).scanlineCounter = m.scanlineCounter := rfl
@[simp] theorem MachineState.setBlinkCounter_line (m : MachineState) (v : BitVec 32) : (m.setBlinkCounter v).line = m.line := rfl
@[simp] theorem MachineState.setBlinkCounter_blinkCounter (m : MachineState) (v : BitVec 32) : (m.setBlinkCounter v).blinkCounter = v := rfl
@[simp] theorem MachineState.setBlinkCounter_lastUlaOut (m : MachineState) (v : BitVec 32) : (m.setBlinkCounter v).lastUlaOut = m.lastUlaOut := rfl
@[simp] theorem MachineState.setBlinkCounter_borderColor (m : MachineState) (v : BitVec 32) : (m.setBlinkCounter v).borderColor = m.borderColor := rfl
@[simp] theorem MachineState.setBlinkCounter_joyMode (m : MachineState) (v : BitVec 32) : (m.setBlinkCounter v).joyMode = m.joyMode := rfl
@[simp] theorem MachineState.setBlinkCounter_kbdJoymask (m : MachineState) (v : BitVec 32) : (m.setBlinkCounter v).kbdJoymask = m.kbdJoymask := rfl
@[simp] theorem MachineState.setBlinkCounter_joyJoymask (m : MachineState) (v : BitVec 32) : (m.setBlinkCounter v).joyJoymask = m.joyJoymask := rfl
@[simp] theorem MachineState.setBlinkCounter_intHold (m : MachineState) (v : BitVec 32) : (m.setBlinkCounter v).intHold = m.intHold := rfl
@[simp] theorem MachineState.setBlinkCounter_intLine (m : MachineState) (v : BitVec 32) : (m.setBlinkCounter v).intLine = m.intLine := rfl
@[simp] theorem MachineState.setBlinkCounter_kbdDown (m : MachineState) (v : BitVec 32) : (m.setBlinkCounter v).kbdDown = m.kbdDown := rfl
@[simp] theorem MachineState.setBlinkCounter_cpu (m : MachineState) (v : BitVec 32) : (m.setBlinkCounter v).cpu = m.cpu := rfl

@[simp] theorem MachineState.setLastUlaOut_ram (m : MachineState) (v : Byte) : (m.setLastUlaOut v).ram = m.ram := rfl
@[simp] theorem MachineState.setLastUlaOut_rom (m : MachineState) (v : Byte) : (m.setLastUlaOut v).rom = m.rom := rfl
@[simp] theorem MachineState.setLastUlaOut_junk (m : MachineState) (v : Byte) : (m.setLastUlaOut v).junk = m.junk := rfl
@[simp] theorem MachineState.setLastUlaOut_fb (m : MachineState) (v : Byte) : (m.setLastUlaOut v).fb = m.fb := rfl
@[simp] theorem MachineState.setLastUlaOut_scanlineCounter (m : MachineState) (v : Byte) : (m.setLastUlaOut v).scanlineCounter = m.scanlineCounter := rfl
@[simp] theorem MachineState.setLastUlaOut_line (m : MachineState) (v : Byte) : (m.setLastUlaOut v).line = m.line := rfl
@[simp] theorem MachineState.setLastUlaOut_blinkCounter (m : MachineState) (v : Byte) : (m.setLastUlaOut v).blinkCounter = m.blinkCounter := rfl
@[simp] theorem MachineState.setLastUlaOut_lastUlaOut (m : MachineState) (v : Byte) : (m.setLastUlaOut v).lastUlaOut = v := rfl
@[simp] theorem MachineState.setLastUlaOut_borderColor (m : MachineState) (v : Byte) : (m.setLastUlaOut v).borderColor = m.borderColor := rfl
@[simp] theorem MachineState.setLastUlaOut_joyMode (m : MachineState) (v : Byte) : (m.setLastUlaOut v).joyMode = m.joyMode := rfl
@[simp] theorem MachineState.setLastUlaOut_kbdJoymask (m : MachineState) (v : Byte) : (m.setLastUlaOut v).kbdJoymask = m.kbdJoymask := rfl
@[simp] theorem MachineState.setLastUlaOut_joyJoymask (m : MachineState) (v : Byte) : (m.setLastUlaOut v).joyJoymask = m.joyJoymask := rfl
@[simp] theorem MachineState.setLastUlaOut_intHold (m : MachineState) (v : Byte) : (m.setLastUlaOut v).intHold = m.intHold := rfl
@[simp] theorem MachineState.setLastUlaOut_intLine (m : MachineState) (v : Byte) : (m.setLastUlaOut v).intLine = m.intLine := rfl
@[simp] theorem MachineState.setLastUlaOut_kbdDown (m : MachineState) (v : Byte) : (m.setLastUlaOut v).kbdDown = m.kbdDown := rfl
@[simp] theorem MachineState.setLastUlaOut_cpu (m : MachineState) (v : Byte) : (m.setLastUlaOut v).cpu = m.cpu := rfl

@[simp] theorem MachineState.setBorderColor_ram (m : MachineState) (v : BitVec 3) : (m.setBorderColor v).ram = m.ram := rfl
@[simp] theorem MachineState.setBorderColor_rom (m : MachineState) (v : BitVec 3) : (m.setBorderColor v).rom = m.rom := rfl
@[simp] theorem MachineState.setBorderColor_junk (m : MachineState) (v : BitVec 3) : (m.setBorderColor v).junk = m.junk := rfl
@[simp] theorem MachineState.setBorderColor_fb (m : MachineState) (v : BitVec 3) : (m.setBorderColor v).fb = m.fb := rfl
@[simp] theorem MachineState.setBorderColor_scanlineCounter (m : MachineState) (v : BitVec 3) : (m.setBorderColor v).scanlineCounter = m.scanlineCounter := rfl
@[simp] theorem MachineState.setBorderColor_line (m : MachineState) (v : BitVec 3) : (m.setBorderColor v).line = m.line := rfl
@[simp] theorem MachineState.setBorderColor_blinkCounter (m : MachineState) (v : BitVec 3) : (m.setBorderColor v).blinkCounter = m.blinkCounter := rfl
@[simp] theorem MachineState.setBorderColor_lastUlaOut (m : MachineState) (v : BitVec 3) : (m.setBorderColor v).lastUlaOut = m.lastUlaOut := rfl
@[simp] theorem MachineState.setBorderColor_borderColor (m : MachineState) (v : BitVec 3) : (m.setBorderColor v).borderColor = v := rfl
@[simp] theorem MachineState.setBorderColor_joyMode (m : MachineState) (v : BitVec 3) : (m.setBorderColor v).joyMode = m.joyMode := rfl
@[simp] theorem MachineState.setBorderColor_kbdJoymask (m : MachineState) (v : BitVec 3) : (m.setBorderColor v).kbdJoymask = m.kbdJoymask := rfl
@[simp] theorem MachineState.setBorderColor_joyJoymask (m : MachineState) (v : BitVec 3) : (m.setBorderColor v).joyJoymask = m.joyJoymask := rfl
@[simp] theorem MachineState.setBorderColor_intHold (m : MachineState) (v : BitVec 3) : (m.setBorderColor v).intHold = m.intHold := rfl
@[simp] theorem MachineState.setBorderColor_intLine (m : MachineState) (v : BitVec 3) : (m.setBorderColor v).intLine = m.intLine := rfl
@[simp] theorem MachineState.setBorderColor_kbdDown (m : MachineState) (v : BitVec 3) : (m.setBorderColor v).kbdDown = m.kbdDown := rfl
@[simp] theorem MachineState.setBorderColor_cpu (m : MachineState) (v : BitVec 3) : (m.setBorderColor v).cpu = m.cpu := rfl

@[simp] theorem MachineState.setJoyMode_ram (m : MachineState) (v : JoyMode) : (m.setJoyMode v).ram = m.ram := rfl
@[simp] theorem MachineState.setJoyMode_rom (m : MachineState) (v : JoyMode) : (m.setJoyMode v).rom = m.rom := rfl
@[simp] theorem MachineState.setJoyMode_junk (m : MachineState) (v : JoyMode) : (m.setJoyMode v).junk = m.junk := rfl
@[simp] theorem MachineState.setJoyMode_fb (m : MachineState) (v : JoyMode) : (m.setJoyMode v).fb = m.fb := rfl
@[simp] theorem MachineState.setJoyMode_scanlineCounter (m : MachineState) (v : JoyMode) : (m.setJoyMode v).scanlineCounter = m.scanlineCounter := rfl
@[simp] theorem MachineState.setJoyMode_line (m : MachineState) (v : JoyMode) : (m.setJoyMode v).line = m.line := rfl
@[simp] theorem MachineState.setJoyMode_blinkCounter (m : MachineState) (v : JoyMode) : (m.setJoyMode v).blinkCounter = m.blinkCounter := rfl
@[simp] theorem MachineState.setJoyMode_lastUlaOut (m : MachineState) (v : JoyMode) : (m.setJoyMode v).lastUlaOut = m.lastUlaOut := rfl
@[simp] theorem MachineState.setJoyMode_borderColor (m : MachineState) (v : JoyMode) : (m.setJoyMode v).borderColor = m.borderColor := rfl
@[simp] theorem MachineState.setJoyMode_joyMode (m : MachineState) (v : JoyMode) : (m.setJoyMode v).joyMode = v := rfl
@[simp] theorem MachineState.setJoyMode_kbdJoymask (m : MachineState) (v : JoyMode) : (m.setJoyMode v).kbdJoymask = m.kbdJoymask := rfl
@[simp] theorem MachineState.setJoyMode_joyJoymask (m : MachineState) (v : JoyMode) : (m.setJoyMode v).joyJoymask = m.joyJoymask := rfl
@[simp] theorem MachineState.setJoyMode_intHold (m : MachineState) (v : JoyMode) : (m.setJoyMode v).intHold = m.intHold := rfl
@[simp] theorem MachineState.setJoyMode_intLine (m : MachineState) (v : JoyMode) : (m.setJoyMode v).intLine = m.intLine := rfl
@[simp] theorem MachineState.setJoyMode_kbdDown (m : MachineState) (v : JoyMode) : (m.setJoyMode v).kbdDown = m.kbdDown := rfl
@[simp] theorem MachineState.setJoyMode_cpu (m : MachineState) (v : JoyMode) : (m.setJoyMode v).cpu = m.cpu := rfl

@[simp] theorem MachineState.setKbdJoymask_ram (m : MachineState) (v : BitVec 5) : (m.setKbdJoymask v).ram = m.ram := rfl
@[simp] theorem MachineState.setKbdJoymask_rom (m : MachineState) (v : BitVec 5) : (m.setKbdJoymask v).rom = m.rom := rfl
@[simp] theorem MachineState.setKbdJoymask_junk (m : MachineState) (v : BitVec 5) : (m.setKbdJoymask v).junk = m.junk := rfl
@[simp] theorem MachineState.setKbdJoymask_fb (m : MachineState) (v : BitVec 5) : (m.setKbdJoymask v).fb = m.fb := rfl
@[simp] theorem MachineState.setKbdJoymask_scanlineCounter (m : MachineState) (v : BitVec 5) : (m.setKbdJoymask v).scanlineCounter = m.scanlineCounter := rfl
@[simp] theorem MachineState.setKbdJoymask_line (m : MachineState) (v : BitVec 5) : (m.setKbdJoymask v).line = m.line := rfl
@[simp] theorem MachineState.setKbdJoymask_blinkCounter (m : MachineState) (v : BitVec 5) : (m.setKbdJoymask v).blinkCounter = m.blinkCounter := rfl
@[simp] theorem MachineState.setKbdJoymask_lastUlaOut (m : MachineState) (v : BitVec 5) : (m.setKbdJoymask v).lastUlaOut = m.lastUlaOut := rfl
@[simp] theorem MachineState.setKbdJoymask_borderColor (m : MachineState) (v : BitVec 5) : (m.setKbdJoymask v).borderColor = m.borderColor := rfl
@[simp] theorem MachineState.setKbdJoymask_joyMode (m : MachineState) (v : BitVec 5) : (m.setKbdJoymask v).joyMode = m.joyMode := rfl
@[simp] theorem MachineState.setKbdJoymask_kbdJoymask (m : MachineState) (v : BitVec 5) : (m.setKbdJoymask v).kbdJoymask = v := rfl
@[simp] theorem MachineState.setKbdJoymask_joyJoymask (m : MachineState) (v : BitVec 5) : (m.setKbdJoymask v).joyJoymask = m.joyJoymask := rfl
@[simp] theorem MachineState.setKbdJoymask_intHold (m : MachineState) (v : BitVec 5) : (m.setKbdJoymask v).intHold = m.intHold := rfl
@[simp] theorem MachineState.setKbdJoymask_intLine (m : MachineState) (v : BitVec 5) : (m.setKbdJoymask v).intLine = m.intLine := rfl
@[simp] theorem MachineState.setKbdJoymask_kbdDown (m : MachineState) (v : BitVec 5) : (m.setKbdJoymask v).kbdDown = m.kbdDown := rfl
@[simp] theorem MachineState.setKbdJoymask_cpu (m : MachineState) (v : BitVec 5) : (m.setKbdJoymask v).cpu = m.cpu := rfl

@[simp] theorem MachineState.setJoyJoymask_ram (m : MachineState) (v : BitVec 5) : (m.setJoyJoymask v).ram = m.ram := rfl
@[simp] theorem MachineState.setJoyJoymask_rom (m : MachineState) (v : BitVec 5) : (m.setJoyJoymask v).rom = m.rom := rfl
@[simp] theorem MachineState.setJoyJoymask_junk (m : MachineState) (v : BitVec 5) : (m.setJoyJoymask v).junk = m.junk := rfl
@[simp] theorem MachineState.setJoyJoymask_fb (m : MachineState) (v : BitVec 5) : (m.setJoyJoymask v).fb = m.fb := rfl
@[simp] theorem MachineState.setJoyJoymask_scanlineCounter (m : MachineState) (v : BitVec 5) : (m.setJoyJoymask v).scanlineCounter = m.scanlineCounter := rfl
@[simp] theorem MachineState.setJoyJoymask_line (m : MachineState) (v : BitVec 5) : (m.setJoyJoymask v).line = m.line := rfl
@[simp] theorem MachineState.setJoyJoymask_blinkCounter (m : MachineState) (v : BitVec 5) : (m.setJoyJoymask v).blinkCounter = m.blinkCounter := rfl
@[simp] theorem MachineState.setJoyJoymask_lastUlaOut (m : MachineState) (v : BitVec 5) : (m.setJoyJoymask v).lastUlaOut = m.lastUlaOut := rfl
@[simp] theorem MachineState.setJoyJoymask_borderColor (m : MachineState) (v : BitVec 5) : (m.setJoyJoymask v).borderColor = m.borderColor := rfl
@[simp] theorem MachineState.setJoyJoymask_joyMode (m : MachineState) (v : BitVec 5) : (m.setJoyJoymask v).joyMode = m.joyMode := rfl
@[simp] theorem MachineState.setJoyJoymask_kbdJoymask (m : MachineState) (v : BitVec 5) : (m.setJoyJoymask v).kbdJoymask = m.kbdJoymask := rfl
@[simp] theorem MachineState.setJoyJoymask_joyJoymask (m : MachineState) (v : BitVec 5) : (m.setJoyJoymask v).joyJoymask = v := rfl
@[simp] theorem MachineState.setJoyJoymask_intHold (m : MachineState) (v : BitVec 5) : (m.setJoyJoymask v).intHold = m.intHold := rfl
@[simp] theorem MachineState.setJoyJoymask_intLine (m : MachineState) (v : BitVec 5) : (m.setJoyJoymask v).intLine = m.intLine := rfl
@[simp] theorem MachineState.setJoyJoymask_kbdDown (m : MachineState) (v : BitVec 5) : (m.setJoyJoymask v).kbdDown = m.kbdDown := rfl
@[simp] theorem MachineState.setJoyJoymask_cpu (m : MachineState) (v : BitVec 5) : (m.setJoyJoymask v).cpu = m.cpu := rfl

@[simp] theorem MachineState.setIntHold_ram (m : MachineState) (v : Nat) : (m.setIntHold v).ram = m.ram := rfl
@[simp] theorem MachineState.setIntHold_rom (m : MachineState) (v : Nat) : (m.setIntHold v).rom = m.rom := rfl
@[simp] theorem MachineState.setIntHold_junk (m : MachineState) (v : Nat) : (m.setIntHold v).junk = m.junk := rfl
@[simp] theorem MachineState.setIntHold_fb (m : MachineState) (v : Nat) : (m.setIntHold v).fb = m.fb := rfl
@[simp] theorem MachineState.setIntHold_scanlineCounter (m : MachineState) (v : Nat) : (m.setIntHold v).scanlineCounter = m.scanlineCounter := rfl
@[simp] theorem MachineState.setIntHold_line (m : MachineState) (v : Nat) : (m.setIntHold v).line = m.line := rfl
@[simp] theorem MachineState.setIntHold_blinkCounter (m : MachineState) (v : Nat) : (m.setIntHold v).blinkCounter = m.blinkCounter := rfl
@[simp] theorem MachineState.setIntHold_lastUlaOut (m : MachineState) (v : Nat) : (m.setIntHold v).lastUlaOut = m.lastUlaOut := rfl
@[simp] theorem MachineState.setIntHold_borderColor (m : MachineState) (v : Nat) : (m.setIntHold v).borderColor = m.borderColor := rfl
@[simp] theorem MachineState.setIntHold_joyMode (m : MachineState) (v : Nat) : (m.setIntHold v).joyMode = m.joyMode := rfl
@[simp] theorem MachineState.setIntHold_kbdJoymask (m : MachineState) (v : Nat) : (m.setIntHold v).kbdJoymask = m.kbdJoymask := rfl
@[simp] theorem MachineState.setIntHold_joyJoymask (m : MachineState) (v : Nat) : (m.setIntHold v).joyJoymask = m.joyJoymask := rfl
@[simp] theorem MachineState.setIntHold_intHold (m : MachineState) (v : Nat) : (m.setIntHold v).intHold = v := rfl
@[simp] theorem MachineState.setIntHold_intLine (m : MachineState) (v : Nat) : (m.setIntHold v).intLine = m.intLine := rfl
@[simp] theorem MachineState.setIntHold_kbdDown (m : MachineState) (v : Nat) : (m.setIntHold v).kbdDown = m.kbdDown := rfl
@[simp] theorem MachineState.setIntHold_cpu (m : MachineState) (v : Nat) : (m.setIntHold v).cpu = m.cpu := rfl

@[simp] theorem MachineState.setIntLine_ram (m : MachineState) (v : Bool) : (m.setIntLine v).ram = m.ram := rfl
@[simp] theorem MachineState.setIntLine_rom (m : MachineState) (v : Bool) : (m.setIntLine v).rom = m.rom := rfl
@[simp] theorem MachineState.setIntLine_junk (m : MachineState) (v : Bool) : (m.setIntLine v).junk = m.junk := rfl
@[simp] theorem MachineState.setIntLine_fb (m : MachineState) (v : Bool) : (m.setIntLine v).fb = m.fb := rfl
@[simp] theorem MachineState.setIntLine_scanlineCounter (m : MachineState) (v : Bool) : (m.setIntLine v).scanlineCounter = m.scanlineCounter := rfl
@[simp] theorem MachineState.setIntLine_line (m : MachineState) (v : Bool) : (m.setIntLine v).line = m.line := rfl
@[simp] theorem MachineState.setIntLine_blinkCounter (m : MachineState) (v : Bool) : (m.setIntLine v).blinkCounter = m.blinkCounter := rfl
@[simp] theorem MachineState.setIntLine_lastUlaOut (m : MachineState) (v : Bool) : (m.setIntLine v).lastUlaOut = m.lastUlaOut := rfl
@[simp] theorem MachineState.setIntLine_borderColor (m : MachineState) (v : Bool) : (m.setIntLine v).borderColor = m.borderColor := rfl
@[simp] theorem MachineState.setIntLine_joyMode (m : MachineState) (v : Bool) : (m.setIntLine v).joyMode = m.joyMode := rfl
@[simp] theorem MachineState.setIntLine_kbdJoymask (m : MachineState) (v : Bool) : (m.setIntLine v).kbdJoymask = m.kbdJoymask := rfl
@[simp] theorem MachineState.setIntLine_joyJoymask (m : MachineState) (v : Bool) : (m.setIntLine v).joyJoymask = m.joyJoymask := rfl
@[simp] theorem MachineState.setIntLine_intHold (m : MachineState) (v : Bool) : (m.setIntLine v).intHold = m.intHold := rfl
@[simp] theorem MachineState.setIntLine_intLine (m : MachineState) (v : Bool) : (m.setIntLine v).intLine = v := rfl
@[simp] theorem MachineState.setIntLine_kbdDown (m : MachineState) (v : Bool) : (m.setIntLine v).kbdDown = m.kbdDown := rfl
@[simp] theorem MachineState.setIntLine_cpu (m : MachineState) (v : Bool) : (m.setIntLine v).cpu = m.cpu := rfl

@[simp] theorem MachineState.setKbdDown_ram (m : MachineState) (v : List Byte) : (m.setKbdDown v).ram = m.ram := rfl
@[simp] theorem MachineState.setKbdDown_rom (m : MachineState) (v : List Byte) : (m.setKbdDown v).rom = m.rom := rfl
@[simp] theorem MachineState.setKbdDown_junk (m : MachineState) (v : List Byte) : (m.setKbdDown v).junk = m.junk := rfl
@[simp] theorem MachineState.setKbdDown_fb (m : MachineState) (v : List Byte) : (m.setKbdDown v).fb = m.fb := rfl
@[simp] theorem MachineState.setKbdDown_scanlineCounter (m : MachineState) (v : List Byte) : (m.setKbdDown v).scanlineCounter = m.scanlineCounter := rfl
@[simp] theorem MachineState.setKbdDown_line (m : MachineState) (v : List Byte) : (m.setKbdDown v).line = m.line := rfl
@[simp] theorem MachineState.setKbdDown_blinkCounter (m : MachineState) (v : List Byte) : (m.setKbdDown v).blinkCounter = m.blinkCounter := rfl
@[simp] theorem MachineState.setKbdDown_lastUlaOut (m : MachineState) (v : List Byte) : (m.setKbdDown v).lastUlaOut = m.lastUlaOut := rfl
@[simp] theorem MachineState.setKbdDown_borderColor (m : MachineState) (v : List Byte) : (m.setKbdDown v).borderColor = m.borderColor := rfl
@[simp] theorem MachineState.setKbdDown_joyMode (m : MachineState) (v : List Byte) : (m.setKbdDown v).joyMode = m.joyMode := rfl
@[simp] theorem MachineState.setKbdDown_kbdJoymask (m : MachineState) (v : List Byte) : (m.setKbdDown v).kbdJoymask = m.kbdJoymask := rfl
@[simp] theorem MachineState.setKbdDown_joyJoymask (m : MachineState) (v : List Byte) : (m.setKbdDown v).joyJoymask = m.joyJoymask := rfl
@[simp] theorem MachineState.setKbdDown_intHold (m : MachineState) (v : List Byte) : (m.setKbdDown v).intHold = m.intHold := rfl
@[simp] theorem MachineState.setKbdDown_intLine (m : MachineState) (v : List Byte) : (m.setKbdDown v).intLine = m.intLine := rfl
@[simp] theorem MachineState.setKbdDown_kbdDown (m : MachineState) (v : List Byte) : (m.setKbdDown v).kbdDown = v := rfl
@[simp] theorem MachineState.setKbdDown_cpu (m : MachineState) (v : List Byte) : (m.setKbdDown v).cpu = m.cpu := rfl

@[simp] theorem MachineState.setCpu_ram (m : MachineState) (v : Cpu) : (m.setCpu v).ram = m.ram := rfl
@[simp] theorem MachineState.setCpu_rom (m : MachineState) (v : Cpu) : (m.setCpu v).rom = m.rom := rfl
@[simp] theorem MachineState.setCpu_junk (m : MachineState) (v : Cpu) : (m.setCpu v).junk = m.junk := rfl
@[simp] theorem MachineState.setCpu_fb (m : MachineState) (v : Cpu) : (m.setCpu v).fb = m.fb := rfl
@[simp] theorem MachineState.setCpu_scanlineCounter (m : MachineState) (v : Cpu) : (m.setCpu v).scanlineCounter = m.scanlineCounter := rfl
@[simp] theorem MachineState.setCpu_line (m : MachineState) (v : Cpu) : (m.setCpu v).line = m.line := rfl
@[simp] theorem MachineState.setCpu_blinkCounter (m : MachineState) (v : Cpu) : (m.setCpu v).blinkCounter = m.blinkCounter := rfl
@[simp] theorem MachineState.setCpu_lastUlaOut (m : MachineState) (v : Cpu) : (m.setCpu v).lastUlaOut = m.lastUlaOut := rfl
@[simp] theorem MachineState.setCpu_borderColor (m : MachineState) (v : Cpu) : (m.setCpu v).borderColor = m.borderColor := rfl
@[simp] theorem MachineState.setCpu_joyMode (m : MachineState) (v : Cpu) : (m.setCpu v).joyMode = m.joyMode := rfl
@[simp] theorem MachineState.setCpu_kbdJoymask (m : MachineState) (v : Cpu) : (m.setCpu v).kbdJoymask = m.kbdJoymask := rfl
@[simp] theorem MachineState.setCpu_joyJoymask (m : MachineState) (v : Cpu) : (m.setCpu v).joyJoymask = m.joyJoymask := rfl
@[simp] theorem MachineState.setCpu_intHold (m : MachineState) (v : Cpu) : (m.setCpu v).intHold = m.intHold := rfl
@[simp] theorem MachineState.setCpu_intLine (m : MachineState) (v : Cpu) : (m.setCpu v).intLine = m.intLine := rfl
@[simp] theorem MachineState.setCpu_kbdDown (m : MachineState) (v : Cpu) : (m.setCpu v).kbdDown = m.kbdDown := rfl
@[simp] theorem MachineState.setCpu_cpu (m : MachineState) (v : Cpu) : (m.setCpu v).cpu = v := rfl

@[simp] theorem State.setMachine_created (s : State) (v : MachineState) : (s.setMachine v).created = s.created := rfl
@[simp] theorem State.setMachine_cfg (s : State) (v : MachineState) : (s.setMachine v).cfg = s.cfg := rfl
@[simp] theorem State.setMachine_m (s : State) (v : MachineState) : (s.setMachine v).m = v := rfl
@[simp] theorem State.setMachine_engineIn (s : State) (v : MachineState) : (s.setMachine v).engineIn = s.engineIn := rfl
@[simp] theorem State.setMachine_busData (s : State) (v : MachineState) : (s.setMachine v).busData = s.busData := rfl
@[simp] theorem State.setMachine_draws (s : State) (v : MachineState) : (s.setMachine v).draws = s.draws := rfl
@[simp] theorem State.setMachine_ticks (s : State) (v : MachineState) : (s.setMachine v).ticks = s.ticks := rfl
@[simp] theorem State.setMachine_trace (s : State) (v : MachineState) : (s.setMachine v).trace = s.trace := rfl
@[simp] theorem State.setMachine_result (s : State) (v : MachineState) : (s.setMachine v).result = s.result := rfl
@[simp] theorem State.setMachine_records (s : State) (v : MachineState) : (s.setMachine v).records = s.records := rfl
@[simp] theorem State.setMachine_scan (s : State) (v : MachineState) : (s.setMachine v).scan = s.scan := rfl
@[simp] theorem State.setMachine_inbox (s : State) (v : MachineState) : (s.setMachine v).inbox = s.inbox := rfl

@[simp] theorem State.setEngineIn_created (s : State) (v : List Pin) : (s.setEngineIn v).created = s.created := rfl
@[simp] theorem State.setEngineIn_cfg (s : State) (v : List Pin) : (s.setEngineIn v).cfg = s.cfg := rfl
@[simp] theorem State.setEngineIn_m (s : State) (v : List Pin) : (s.setEngineIn v).m = s.m := rfl
@[simp] theorem State.setEngineIn_engineIn (s : State) (v : List Pin) : (s.setEngineIn v).engineIn = v := rfl
@[simp] theorem State.setEngineIn_busData (s : State) (v : List Pin) : (s.setEngineIn v).busData = s.busData := rfl
@[simp] theorem State.setEngineIn_draws (s : State) (v : List Pin) : (s.setEngineIn v).draws = s.draws := rfl
@[simp] theorem State.setEngineIn_ticks (s : State) (v : List Pin) : (s.setEngineIn v).ticks = s.ticks := rfl
@[simp] theorem State.setEngineIn_trace (s : State) (v : List Pin) : (s.setEngineIn v).trace = s.trace := rfl
@[simp] theorem State.setEngineIn_result (s : State) (v : List Pin) : (s.setEngineIn v).result = s.result := rfl
@[simp] theorem State.setEngineIn_records (s : State) (v : List Pin) : (s.setEngineIn v).records = s.records := rfl
@[simp] theorem State.setEngineIn_scan (s : State) (v : List Pin) : (s.setEngineIn v).scan = s.scan := rfl
@[simp] theorem State.setEngineIn_inbox (s : State) (v : List Pin) : (s.setEngineIn v).inbox = s.inbox := rfl

@[simp] theorem State.setBusData_created (s : State) (v : Option Byte) : (s.setBusData v).created = s.created := rfl
@[simp] theorem State.setBusData_cfg (s : State) (v : Option Byte) : (s.setBusData v).cfg = s.cfg := rfl
@[simp] theorem State.setBusData_m (s : State) (v : Option Byte) : (s.setBusData v).m = s.m := rfl
@[simp] theorem State.setBusData_engineIn (s : State) (v : Option Byte) : (s.setBusData v).engineIn = s.engineIn := rfl
@[simp] theorem State.setBusData_busData (s : State) (v : Option Byte) : (s.setBusData v).busData = v := rfl
@[simp] theorem State.setBusData_draws (s : State) (v : Option Byte) : (s.setBusData v).draws = s.draws := rfl
@[simp] theorem State.setBusData_ticks (s : State) (v : Option Byte) : (s.setBusData v).ticks = s.ticks := rfl
@[simp] theorem State.setBusData_trace (s : State) (v : Option Byte) : (s.setBusData v).trace = s.trace := rfl
@[simp] theorem State.setBusData_result (s : State) (v : Option Byte) : (s.setBusData v).result = s.result := rfl
@[simp] theorem State.setBusData_records (s : State) (v : Option Byte) : (s.setBusData v).records = s.records := rfl
@[simp] theorem State.setBusData_scan (s : State) (v : Option Byte) : (s.setBusData v).scan = s.scan := rfl
@[simp] theorem State.setBusData_inbox (s : State) (v : Option Byte) : (s.setBusData v).inbox = s.inbox := rfl

@[simp] theorem State.setDraws_created (s : State) (v : Nat) : (s.setDraws v).created = s.created := rfl
@[simp] theorem State.setDraws_cfg (s : State) (v : Nat) : (s.setDraws v).cfg = s.cfg := rfl
@[simp] theorem State.setDraws_m (s : State) (v : Nat) : (s.setDraws v).m = s.m := rfl
@[simp] theorem State.setDraws_engineIn (s : State) (v : Nat) : (s.setDraws v).engineIn = s.engineIn := rfl
@[simp] theorem State.setDraws_busData (s : State) (v : Nat) : (s.setDraws v).busData = s.busData := rfl
@[simp] theorem State.setDraws_draws (s : State) (v : Nat) : (s.setDraws v).draws = v := rfl
@[simp] theorem State.setDraws_ticks (s : State) (v : Nat) : (s.setDraws v).ticks = s.ticks := rfl
@[simp] theorem State.setDraws_trace (s : State) (v : Nat) : (s.setDraws v).trace = s.trace := rfl
@[simp] theorem State.setDraws_result (s : State) (v : Nat) : (s.setDraws v).result = s.result := rfl
@[simp] theorem State.setDraws_records (s : State) (v : Nat) : (s.setDraws v).records = s.records := rfl
@[simp] theorem State.setDraws_scan (s : State) (v : Nat) : (s.setDraws v).scan = s.scan := rfl
@[simp] theorem State.setDraws_inbox (s : State) (v : Nat) : (s.setDraws v).inbox = s.inbox := rfl

@[simp] theorem State.setTicks_created (s : State) (v : Nat) : (s.setTicks v).created = s.created := rfl
@[simp] theorem State.setTicks_cfg (s : State) (v : Nat) : (s.setTicks v).cfg = s.cfg := rfl
@[simp] theorem State.setTicks_m (s : State) (v : Nat) : (s.setTicks v).m = s.m := rfl
@[simp] theorem State.setTicks_engineIn (s : State) (v : Nat) : (s.setTicks v).engineIn = s.engineIn := rfl
@[simp] theorem State.setTicks_busData (s : State) (v : Nat) : (s.setTicks v).busData = s.busData := rfl
@[simp] theorem State.setTicks_draws (s : State) (v : Nat) : (s.setTicks v).draws = s.draws := rfl
@[simp] theorem State.setTicks_ticks (s : State) (v : Nat) : (s.setTicks v).ticks = v := rfl
@[simp] theorem State.setTicks_trace (s : State) (v : Nat) : (s.setTicks v).trace = s.trace := rfl
@[simp] theorem State.setTicks_result (s : State) (v : Nat) : (s.setTicks v).result = s.result := rfl
@[simp] theorem State.setTicks_records (s : State) (v : Nat) : (s.setTicks v).records = s.records := rfl
@[simp] theorem State.setTicks_scan (s : State) (v : Nat) : (s.setTicks v).scan = s.scan := rfl
@[simp] theorem State.setTicks_inbox (s : State) (v : Nat) : (s.setTicks v).inbox = s.inbox := rfl

@[simp] theorem State.setTrace_created (s : State) (v : List Beep) : (s.setTrace v).created = s.created := rfl
@[simp] theorem State.setTrace_cfg (s : State) (v : List Beep) : (s.setTrace v).cfg = s.cfg := rfl
@[simp] theorem State.setTrace_m (s : State) (v : List Beep) : (s.setTrace v).m = s.m := rfl
@[simp] theorem State.setTrace_engineIn (s : State) (v : List Beep) : (s.setTrace v).engineIn = s.engineIn := rfl
@[simp] theorem State.setTrace_busData (s : State) (v : List Beep) : (s.setTrace v).busData = s.busData := rfl
@[simp] theorem State.setTrace_draws (s : State) (v : List Beep) : (s.setTrace v).draws = s.draws := rfl
@[simp] theorem State.setTrace_ticks (s : State) (v : List Beep) : (s.setTrace v).ticks = s.ticks := rfl
@[simp] theorem State.setTrace_trace (s : State) (v : List Beep) : (s.setTrace v).trace = v := rfl
@[simp] theorem State.setTrace_result (s : State) (v : List Beep) : (s.setTrace v).result = s.result := rfl
@[simp] theorem State.setTrace_records (s : State) (v : List Beep) : (s.setTrace v).records = s.records := rfl
@[simp] theorem State.setTrace_scan (s : State) (v : List Beep) : (s.setTrace v).scan = s.scan := rfl
@[simp] theorem State.setTrace_inbox (s : State) (v : List Beep) : (s.setTrace v).inbox = s.inbox := rfl

@[simp] theorem State.setResult_created (s : State) (v : Result) : (s.setResult v).created = s.created := rfl
@[simp] theorem State.setResult_cfg (s : State) (v : Result) : (s.setResult v).cfg = s.cfg := rfl
@[simp] theorem State.setResult_m (s : State) (v : Result) : (s.setResult v).m = s.m := rfl
@[simp] theorem State.setResult_engineIn (s : State) (v : Result) : (s.setResult v).engineIn = s.engineIn := rfl
@[simp] theorem State.setResult_busData (s : State) (v : Result) : (s.setResult v).busData = s.busData := rfl
@[simp] theorem State.setResult_draws (s : State) (v : Result) : (s.setResult v).draws = s.draws := rfl
@[simp] theorem State.setResult_ticks (s : State) (v : Result) : (s.setResult v).ticks = s.ticks := rfl
@[simp] theorem State.setResult_trace (s : State) (v : Result) : (s.setResult v).trace = s.trace := rfl
@[simp] theorem State.setResult_result (s : State) (v : Result) : (s.setResult v).result = v := rfl
@[simp] theorem State.setResult_records (s : State) (v : Result) : (s.setResult v).records = s.records := rfl
@[simp] theorem State.setResult_scan (s : State) (v : Result) : (s.setResult v).scan = s.scan := rfl
@[simp] theorem State.setResult_inbox (s : State) (v : Result) : (s.setResult v).inbox = s.inbox := rfl

@[simp] theorem State.setRecords_created (s : State) (v : List Record) : (s.setRecords v).created = s.created := rfl
@[simp] theorem State.setRecords_cfg (s : State) (v : List Record) : (s.setRecords v).cfg = s.cfg := rfl
@[simp] theorem State.setRecords_m (s : State) (v : List Record) : (s.setRecords v).m = s.m := rfl
@[simp] theorem State.setRecords_engineIn (s : State) (v : List Record) : (s.setRecords v).engineIn = s.engineIn := rfl
@[simp] theorem State.setRecords_busData (s : State) (v : List Record) : (s.setRecords v).busData = s.busData := rfl
@[simp] theorem State.setRecords_draws (s : State) (v : List Record) : (s.setRecords v).draws = s.draws := rfl
@[simp] theorem State.setRecords_ticks (s : State) (v : List Record) : (s.setRecords v).ticks = s.ticks := rfl
@[simp] theorem State.setRecords_trace (s : State) (v : List Record) : (s.setRecords v).trace = s.trace := rfl
@[simp] theorem State.setRecords_result (s : State) (v : List Record) : (s.setRecords v).result = s.result := rfl
@[simp] theorem State.setRecords_records (s : State) (v : List Record) : (s.setRecords v).records = v := rfl
@[simp] theorem State.setRecords_scan (s : State) (v : List Record) : (s.setRecords v).scan = s.scan := rfl
@[simp] theorem State.setRecords_inbox (s : State) (v : List Record) : (s.setRecords v).inbox = s.inbox := rfl

@[simp] theorem State.setScan_created (s : State) (v : Scan) : (s.setScan v).created = s.created := rfl
@[simp] theorem State.setScan_cfg (s : State) (v : Scan) : (s.setScan v).cfg = s.cfg := rfl
@[simp] theorem State.setScan_m (s : State) (v : Scan) : (s.setScan v).m = s.m := rfl
@[simp] theorem State.setScan_engineIn (s : State) (v : Scan) : (s.setScan v).engineIn = s.engineIn := rfl
@[simp] theorem State.setScan_busData (s : State) (v : Scan) : (s.setScan v).busData = s.busData := rfl
@[simp] theorem State.setScan_draws (s : State) (v : Scan) : (s.setScan v).draws = s.draws := rfl
@[simp] theorem State.setScan_ticks (s : State) (v : Scan) : (s.setScan v).ticks = s.ticks := rfl
@[simp] theorem State.setScan_trace (s : State) (v : Scan) : (s.setScan v).trace = s.trace := rfl
@[simp] theorem State.setScan_result (s : State) (v : Scan) : (s.setScan v).result = s.result := rfl
@[simp] theorem State.setScan_records (s : State) (v : Scan) : (s.setScan v).records = s.records := rfl
@[simp] theorem State.setScan_scan (s : State) (v : Scan) : (s.setScan v).scan = v := rfl
@[simp] theorem State.setScan_inbox (s : State) (v : Scan) : (s.setScan v).inbox = s.inbox := rfl

@[simp] theorem State.setInbox_created (s : State) (v : List Packet) : (s.setInbox v).created = s.created := rfl
@[simp] theorem State.setInbox_cfg (s : State) (v : List Packet) : (s.setInbox v).cfg = s.cfg := rfl
@[simp] theorem State.setInbox_m (s : State) (v : List Packet) : (s.setInbox v).m = s.m := rfl
@[simp] theorem State.setInbox_engineIn (s : State) (v : List Packet) : (s.setInbox v).engineIn = s.engineIn := rfl
@[simp] theorem State.setInbox_busData (s : State) (v : List Packet) : (s.setInbox v).busData = s.busData := rfl
@[simp] theorem State.setInbox_draws (s : State) (v : List Packet) : (s.setInbox v).draws = s.draws := rfl
@[simp] theorem State.setInbox_ticks (s : State) (v : List Packet) : (s.setInbox v).ticks = s.ticks := rfl
@[simp] theorem State.setInbox_trace (s : State) (v : List Packet) : (s.setInbox v).trace = s.trace := rfl
@[simp] theorem State.setInbox_result (s : State) (v : List Packet) : (s.setInbox v).result = s.result := rfl
@[simp] theorem State.setInbox_records (s : State) (v : List Packet) : (s.setInbox v).records = s.records := rfl
@[simp] theorem State.setInbox_scan (s : State) (v : List Packet) : (s.setInbox v).scan = s.scan := rfl
@[simp] theorem State.setInbox_inbox (s : State) (v : List Packet) : (s.setInbox v).inbox = v := rfl

end Sys2Proof.Machine
end

