-- ==== Sys2Proof/Laws/Memory.lean ====
section
/-! SUPPORT. The laws of byte arrays and of the keyboard set: what a read gives after a write, that every write keeps the
canonical form, and the same for memory behind the bank map. -/

namespace Sys2Proof.Machine

/-! ## Reading after writing -/

theorem read_append (x y : Memory) (k : Nat) :
    Memory.read (x ++ y) k = if k ∈ x.map Prod.fst then Memory.read x k else Memory.read y k := by
  induction x with
  | nil => simp
  | cons c x ih =>
    obtain ⟨a, v⟩ := c
    by_cases h : a = k
    · simp [Memory.read, h]
    · simp [Memory.read, h, ih, Ne.symm h]

theorem read_unlisted (m : Memory) (k : Nat) (h : k ∉ m.map Prod.fst) : Memory.read m k = unlistedByte := by
  induction m with
  | nil => rfl
  | cons c m ih =>
    obtain ⟨a, v⟩ := c
    simp only [List.map_cons, List.mem_cons, not_or] at h
    simp [Memory.read, Ne.symm h.1, ih h.2]

theorem read_filter (m : Memory) (p : Nat → Bool) (k : Nat) (h : p k = true) :
    Memory.read (m.filter fun c => p c.1) k = Memory.read m k := by
  induction m with
  | nil => rfl
  | cons c m ih =>
    obtain ⟨a, v⟩ := c
    by_cases ha : a = k
    · subst ha; simp [h, Memory.read]
    · by_cases hp : p a = true
      · simp [hp, Memory.read, ha, ih]
      · simp [hp, Memory.read, ha, ih]

theorem mem_cellsFrom (base : Nat) (bs : List Byte) (c : Host.Cell) (h : c ∈ cellsFrom base bs) :
    base ≤ c.1 ∧ c.1 < base + bs.length ∧ c.2 ≠ unlistedByte := by
  induction bs generalizing base with
  | nil => simp [cellsFrom] at h
  | cons b bs ih =>
    simp only [cellsFrom] at h
    split at h
    · have := ih _ h
      simp only [List.length_cons]
      exact ⟨by omega, by omega, this.2.2⟩
    · rcases List.mem_cons.1 h with rfl | h
      · simp_all
      · have := ih _ h
        simp only [List.length_cons]
        exact ⟨by omega, by omega, this.2.2⟩

theorem read_cellsFrom (base : Nat) (bs : List Byte) (k : Nat) (h : base ≤ k) :
    Memory.read (cellsFrom base bs) k = bs.getD (k - base) unlistedByte := by
  induction bs generalizing base with
  | nil => simp [cellsFrom, Memory.read]
  | cons b bs ih =>
    simp only [cellsFrom]
    by_cases hk : k = base
    · subst hk
      split
      · next hb =>
        rw [read_unlisted]
        · simp [hb]
        · intro hm
          obtain ⟨c, hc, rfl⟩ := List.mem_map.1 hm
          have := mem_cellsFrom _ _ _ hc
          omega
      · simp [Memory.read]
    · have e : k - base = k - (base + 1) + 1 := by omega
      split
      · rw [ih _ (by omega), e]; simp
      · simp [Memory.read, Ne.symm hk, ih (base + 1) (by omega), e]

/-- A read after a write: the written byte inside the written range, the old byte outside. -/
theorem read_writeBytes (m : Memory) (base : Nat) (bs : List Byte) (k : Nat) :
    (m.writeBytes base bs).read k =
      if base ≤ k ∧ k < base + bs.length then bs.getD (k - base) unlistedByte else m.read k := by
  have hlow : ∀ j, j ∈ (m.filter fun c => decide (c.1 < base)).map Prod.fst → j < base := by
    intro j hj
    obtain ⟨c, hc, rfl⟩ := List.mem_map.1 hj
    simpa using (List.mem_filter.1 hc).2
  have hmid : ∀ j, j ∈ (cellsFrom base bs).map Prod.fst → base ≤ j ∧ j < base + bs.length := by
    intro j hj
    obtain ⟨c, hc, rfl⟩ := List.mem_map.1 hj
    have := mem_cellsFrom _ _ _ hc
    omega
  have hhigh : ∀ j, j ∈ (m.filter fun c => decide (base + bs.length ≤ c.1)).map Prod.fst → base + bs.length ≤ j := by
    intro j hj
    obtain ⟨c, hc, rfl⟩ := List.mem_map.1 hj
    simpa using (List.mem_filter.1 hc).2
  unfold Memory.writeBytes
  rw [List.append_assoc, read_append, read_append]
  by_cases h1 : k < base
  · have hne : k ∉ (cellsFrom base bs).map Prod.fst := fun h => by have := hmid _ h; omega
    have hread := read_filter m (fun a => decide (a < base)) k (by simpa using h1)
    rw [if_neg (by omega : ¬(base ≤ k ∧ k < base + bs.length)), if_neg hne]
    split
    · exact hread
    · next hx =>
      rw [read_unlisted _ k (fun h => by have := hhigh _ h; omega), ← hread, read_unlisted _ k hx]
  · have hnl : k ∉ (m.filter fun c => decide (c.1 < base)).map Prod.fst := fun h => by
      have := hlow _ h; omega
    rw [if_neg hnl]
    by_cases h2 : k < base + bs.length
    · rw [if_pos (show base ≤ k ∧ k < base + bs.length from ⟨by omega, h2⟩), ← read_cellsFrom base bs k (by omega)]
      split
      · rfl
      · next hx =>
        rw [read_unlisted _ k (fun h => by have := hhigh _ h; omega), read_unlisted _ k hx]
    · have hne : k ∉ (cellsFrom base bs).map Prod.fst := fun h => by have := hmid _ h; omega
      rw [if_neg (show ¬(base ≤ k ∧ k < base + bs.length) by omega), if_neg hne]
      exact read_filter m (fun a => decide (base + bs.length ≤ a)) k (by simpa using h2)

/-- A one-byte write. -/
theorem read_writeByte (m : Memory) (a : Nat) (v : Byte) (k : Nat) :
    (m.writeBytes a [v]).read k = if k = a then v else m.read k := by
  rw [read_writeBytes]
  by_cases h : k = a
  · subst h; simp
  · rw [if_neg (by simp; omega), if_neg h]

/-! ## Canonical form -/

theorem cellsFrom_sorted (base : Nat) (bs : List Byte) :
    (cellsFrom base bs).Pairwise (fun x y => x.1 < y.1) := by
  induction bs generalizing base with
  | nil => simp [cellsFrom]
  | cons b bs ih =>
    simp only [cellsFrom]
    split
    · exact ih _
    · refine List.pairwise_cons.2 ⟨fun c hc => ?_, ih _⟩
      have := mem_cellsFrom _ _ _ hc
      omega

/-- A byte string laid out from key 0 on is in canonical form. -/
theorem cellsFrom_wf (bs : List Byte) (size : Nat) (h : bs.length ≤ size) : Memory.wf size (cellsFrom 0 bs) := by
  refine ⟨cellsFrom_sorted _ _, fun c hc => ?_⟩
  have := mem_cellsFrom _ _ _ hc
  exact ⟨by omega, this.2.2⟩

/-- Every write inside the array keeps the canonical form. -/
theorem writeBytes_wf (size : Nat) (m : Memory) (base : Nat) (bs : List Byte) (h : m.wf size)
    (hb : base + bs.length ≤ size) : (m.writeBytes base bs).wf size := by
  obtain ⟨hs, hc⟩ := h
  refine ⟨?_, ?_⟩
  · unfold Memory.writeBytes
    rw [List.append_assoc]
    refine List.pairwise_append.2 ⟨hs.filter _, List.pairwise_append.2 ⟨cellsFrom_sorted _ _, hs.filter _, ?_⟩, ?_⟩
    · intro x hx y hy
      have h1 := mem_cellsFrom _ _ _ hx
      have h2 := (List.mem_filter.1 hy).2
      simp only [decide_eq_true_eq] at h2
      omega
    · intro x hx y hy
      have h1 := (List.mem_filter.1 hx).2
      simp only [decide_eq_true_eq] at h1
      rcases List.mem_append.1 hy with hy | hy
      · have := mem_cellsFrom _ _ _ hy; omega
      · have h2 := (List.mem_filter.1 hy).2
        simp only [decide_eq_true_eq] at h2
        omega
  · intro c hmem
    unfold Memory.writeBytes at hmem
    rcases List.mem_append.1 hmem with hmem | hmem
    · rcases List.mem_append.1 hmem with hmem | hmem
      · exact hc c (List.mem_filter.1 hmem).1
      · have := mem_cellsFrom _ _ _ hmem
        exact ⟨by omega, this.2.2⟩
    · exact hc c (List.mem_filter.1 hmem).1

/-- The memory of the reset state is in canonical form. -/
theorem reset_memory_wf :
    State.reset.m.ram.wf ramSize ∧ State.reset.m.rom.wf bankSize ∧ State.reset.m.junk.wf bankSize ∧
      State.reset.m.fb.wf (fbSize State.reset.cfg) := by
  simp [State.reset, Memory.wf]

/-! ## Memory behind the bank map -/

theorem slotOf_eq (a : Addr) : slotOf a = a.toNat / 16384 := by
  simp only [slotOf, BitVec.extractLsb'_toNat, Nat.shiftRight_eq_div_pow]
  have := a.isLt
  omega

theorem offsetOf_eq (a : Addr) : offsetOf a = a.toNat % 16384 := by
  simp [offsetOf, BitVec.extractLsb'_toNat]

/-- The bank map (20_memory.md R61): where each address stands. -/
theorem bankOf_eq (a : Addr) :
    bankOf a = if a.toNat < 0x4000 then .rom 0 else .ram (a.toNat / 16384 - 1) := by
  unfold bankOf
  have h := slotOf_eq a
  split
  · rw [if_pos (by omega)]
  · rw [if_neg (by omega)]; congr 1; omega

theorem memRead_eq (m : MachineState) (a : Addr) :
    memRead m a = if a.toNat < 0x4000 then m.rom.read a.toNat else m.ram.read (a.toNat - 0x4000) := by
  unfold memRead
  rw [bankOf_eq]
  have ho := offsetOf_eq a
  by_cases h : a.toNat < 0x4000
  · have e : 0 * 16384 + offsetOf a = a.toNat := by omega
    simp only [h, if_true, bankKey, bankSize, e]
  · have e : (a.toNat / 16384 - 1) * 16384 + offsetOf a = a.toNat - 0x4000 := by omega
    simp only [h, if_false, bankKey, bankSize, e]

theorem memWrite_eq (m : MachineState) (a : Addr) (v : Byte) :
    memWrite m a v = if a.toNat < 0x4000 then m else m.setRam (m.ram.writeBytes (a.toNat - 0x4000) [v]) := by
  unfold memWrite
  rw [bankOf_eq]
  have ho := offsetOf_eq a
  by_cases h : a.toNat < 0x4000
  · simp only [h, if_true]
  · have e : (a.toNat / 16384 - 1) * 16384 + offsetOf a = a.toNat - 0x4000 := by omega
    simp only [h, if_false, bankKey, bankSize, e]

/-- A read after a write at one address of the bus. -/
theorem memRead_memWrite (m : MachineState) (a x : Addr) (v : Byte) :
    memRead (memWrite m a v) x = if x = a ∧ 0x4000 ≤ a.toNat then v else memRead m x := by
  rw [memRead_eq, memRead_eq, memWrite_eq]
  by_cases ha : a.toNat < 0x4000
  · simp only [ha, if_true]; rw [if_neg (by omega : ¬(x = a ∧ 0x4000 ≤ a.toNat))]
  · simp only [ha, if_false, MachineState.setRam_rom, MachineState.setRam_ram, read_writeByte]
    have hx : x = a ↔ x.toNat = a.toNat := BitVec.toNat_inj.symm
    by_cases hl : x.toNat < 0x4000
    · rw [if_pos hl, if_pos hl, if_neg (by rw [hx]; omega)]
    · rw [if_neg hl, if_neg hl]
      by_cases he : x.toNat = a.toNat
      · rw [if_pos (by omega), if_pos ⟨hx.2 he, by omega⟩]
      · rw [if_neg (by omega), if_neg (fun h => he (hx.1 h.1))]

/-- What a bus write leaves of the machine: everything but RAM. -/
theorem memWrite_frame (m : MachineState) (a : Addr) (v : Byte) : memWrite m a v = m.setRam (memWrite m a v).ram := by
  rw [memWrite_eq]; split <;> rfl

theorem memWrite_wf (m : MachineState) (a : Addr) (v : Byte) (h : m.ram.wf ramSize) :
    (memWrite m a v).ram.wf ramSize := by
  rw [memWrite_eq]
  split
  · exact h
  · refine writeBytes_wf _ _ _ _ h ?_
    have := a.isLt
    simp [ramSize, bankSize]; omega

/-! ## The set of held keys -/

theorem mem_keyPress (down : List Byte) (cc k : Byte) : k ∈ keyPress down cc ↔ k = cc ∨ k ∈ down := by
  simp only [keyPress, List.mem_append, List.mem_filter, List.mem_singleton, decide_eq_true_eq]
  have : k = cc ↔ k.toNat = cc.toNat := BitVec.toNat_inj.symm
  by_cases h : k = cc
  · simp [h]
  · have h' : k.toNat ≠ cc.toNat := fun e => h (this.2 e)
    have : k.toNat < cc.toNat ∨ cc.toNat < k.toNat := by omega
    tauto

theorem mem_keyRelease (down : List Byte) (cc k : Byte) : k ∈ keyRelease down cc ↔ k ≠ cc ∧ k ∈ down := by
  simp [keyRelease, and_comm]

theorem keyPress_sorted (down : List Byte) (cc : Byte) (h : down.Pairwise (fun x y => x.toNat < y.toNat)) :
    (keyPress down cc).Pairwise (fun x y => x.toNat < y.toNat) := by
  unfold keyPress
  rw [List.append_assoc]
  refine List.pairwise_append.2 ⟨h.filter _, List.pairwise_append.2 ⟨List.pairwise_singleton _ _, h.filter _, ?_⟩, ?_⟩
  · intro x hx y hy
    have h2 := (List.mem_filter.1 hy).2
    simp only [List.mem_singleton] at hx
    simpa [hx] using h2
  · intro x hx y hy
    have h1 := (List.mem_filter.1 hx).2
    simp only [decide_eq_true_eq] at h1
    rcases List.mem_append.1 hy with hy | hy
    · simp only [List.mem_singleton] at hy; simpa [hy] using h1
    · have h2 := (List.mem_filter.1 hy).2
      simp only [decide_eq_true_eq] at h2
      omega

theorem keyRelease_sorted (down : List Byte) (cc : Byte) (h : down.Pairwise (fun x y => x.toNat < y.toNat)) :
    (keyRelease down cc).Pairwise (fun x y => x.toNat < y.toNat) := h.filter _

/-! ## The keyboard matrix -/

theorem orAll_getLsbD (ls : List (BitVec 5)) (k : Nat) :
    (orAll ls).getLsbD k = true ↔ ∃ l ∈ ls, l.getLsbD k = true := by
  induction ls with
  | nil => simp [orAll]
  | cons l ls ih => simp [orAll, ih]

theorem entryLine_getLsbD (down : List Byte) (r k : Nat) (e : KeyEntry) (hk : k < 5) :
    (entryLine down r e).getLsbD k = true ↔ e.row.val = r ∧ e.code ∈ down ∧ e.line.val = k := by
  unfold entryLine
  split
  · next h =>
    obtain ⟨code, row, line⟩ := e
    obtain ⟨h1, h2⟩ := h
    simp only at h1 h2 ⊢
    simp only [h1, h2, true_and]
    rw [BitVec.getLsbD_ofNat, Nat.testBit_two_pow]
    simp [hk]
  · next h => simp; tauto

/-- A sense line of a half-row is pressed exactly by a held code with that position in `KEYMAP` (10_state.md R38). -/
theorem matrixRow_getLsbD (c : Cfg) (down : List Byte) (r k : Nat) (hk : k < 5) :
    (matrixRow c down r).getLsbD k = true ↔
      ∃ e ∈ c.keymap, e.row.val = r ∧ e.code ∈ down ∧ e.line.val = k := by
  simp only [matrixRow, orAll_getLsbD, List.mem_map]
  constructor
  · rintro ⟨l, ⟨e, he, rfl⟩, hl⟩
    exact ⟨e, he, (entryLine_getLsbD down r k e hk).1 hl⟩
  · rintro ⟨e, he, h⟩
    exact ⟨_, ⟨e, he, rfl⟩, (entryLine_getLsbD down r k e hk).2 h⟩

/-- Wired-OR (30_encoding.md R97): a line is seen when some selected half-row has it pressed. -/
theorem selectedLines_getLsbD (c : Cfg) (down : List Byte) (sel : BitVec 8) (k : Nat) (hk : k < 5) :
    (selectedLines c down sel).getLsbD k = true ↔
      ∃ e ∈ c.keymap, sel.getLsbD e.row.val = true ∧ e.code ∈ down ∧ e.line.val = k := by
  simp only [selectedLines, orAll_getLsbD, List.mem_map, List.mem_range]
  constructor
  · rintro ⟨l, ⟨r, hr, rfl⟩, hl⟩
    split at hl
    · next hs =>
      obtain ⟨e, he, h1, h2, h3⟩ := (matrixRow_getLsbD c down r k hk).1 hl
      exact ⟨e, he, by rw [h1]; exact hs, h2, h3⟩
    · simp at hl
  · rintro ⟨e, he, hs, h2, h3⟩
    refine ⟨_, ⟨e.row.val, e.row.isLt, rfl⟩, ?_⟩
    rw [if_pos hs]
    exact (matrixRow_getLsbD c down _ k hk).2 ⟨e, he, rfl, h2, h3⟩

end Sys2Proof.Machine
end

