-- ==== Sys2Proof/Laws/Operands.lean ====
section
/-! SUPPORT. The laws of operand forms: fields of a pin word, numbers as bytes, the sizes of the raster, and each encoded
form read back. -/

namespace Sys2Proof.Machine

/-! ## Pin words -/

@[simp] theorem pinAddr_mkPin (k : BitVec 4) (d : Byte) (a : Addr) : pinAddr (mkPin k d a) = a := by
  apply BitVec.eq_of_getLsbD_eq
  intro i hi
  simp only [pinAddr, mkPin, BitVec.getLsbD_extractLsb', BitVec.getLsbD_append]
  simp [hi]

@[simp] theorem pinData_mkPin (k : BitVec 4) (d : Byte) (a : Addr) : pinData (mkPin k d a) = d := by
  apply BitVec.eq_of_getLsbD_eq
  intro i hi
  simp only [pinData, mkPin, BitVec.getLsbD_extractLsb', BitVec.getLsbD_append]
  have h1 : ¬ (16 + i < 16) := by omega
  simp [hi]

@[simp] theorem pinKind_mkPin (k : BitVec 4) (d : Byte) (a : Addr) : pinKind (mkPin k d a) = k := by
  apply BitVec.eq_of_getLsbD_eq
  intro i hi
  simp only [pinKind, mkPin, BitVec.getLsbD_extractLsb', BitVec.getLsbD_append]
  have h1 : ¬ (24 + i < 16) := by omega
  have h2 : ¬ (24 + i - 16 < 8) := by omega
  have h3 : 24 + i - 16 - 8 = i := by omega
  simp [hi, h1, h2, h3]

theorem mkPin_fields (w : Pin) : mkPin (pinKind w) (pinData w) (pinAddr w) = w := by
  apply BitVec.eq_of_getLsbD_eq
  intro i hi
  simp only [pinKind, pinData, pinAddr, mkPin, BitVec.getLsbD_extractLsb', BitVec.getLsbD_append]
  by_cases h1 : i < 16
  · simp [h1]
  · by_cases h2 : i - 16 < 8
    · simp [h1, h2, show 16 + (i - 16) = i by omega]
    · simp [h1, h2, show 24 + (i - 16 - 8) = i by omega, show i - 16 - 8 < 4 by omega]

/-- A pin word survives its byte form. -/
theorem pinOfBytes_pinBytes (w : Pin) :
    pinOfBytes (w.extractLsb' 0 8) (w.extractLsb' 8 8) (w.extractLsb' 16 8)
      ((0 : BitVec 4) ++ w.extractLsb' 24 4) = some w := by
  have h : ((0 : BitVec 4) ++ w.extractLsb' 24 4 : BitVec 8).extractLsb' 4 4 = 0 := by
    apply BitVec.eq_of_getLsbD_eq
    intro i hi
    simp only [BitVec.getLsbD_extractLsb', BitVec.getLsbD_append]
    simp [show ¬ (4 + i < 4) by omega]
  unfold pinOfBytes
  rw [if_pos h]
  congr 1
  apply BitVec.eq_of_getLsbD_eq
  intro i hi
  simp only [BitVec.getLsbD_extractLsb', BitVec.getLsbD_append]
  by_cases h1 : i < 8
  · simp [h1]
  · by_cases h2 : i - 8 < 8
    · simp [h1, h2, show 8 + (i - 8) = i by omega]
    · by_cases h3 : i - 8 - 8 < 8
      · simp [h1, h2, h3, show 16 + (i - 8 - 8) = i by omega]
      · simp [h1, h2, h3, show 24 + (i - 8 - 8 - 8) = i by omega, show i - 8 - 8 - 8 < 4 by omega]

theorem decodeBus_pinBytes (w : Pin) : decodeBus (pinBytes w) = decodePin w := by
  simp only [decodeBus, pinBytes, pinOfBytes_pinBytes]

theorem decodeTick_pinBytes (w : Pin) :
    decodeTick (pinBytes w) = if (classify w).isSome then .ok (.tick w) else .error .malformedTransaction := by
  simp only [decodeTick, pinBytes, pinOfBytes_pinBytes]

/-- A packet of a bus class whose address selects that class decodes to its operation. -/
theorem decodePin_mkPin (k : BusClass) (a : Addr) (d : Byte)
    (h : classify (mkPin (kindBits k) d a) = some k) :
    decodePin (mkPin (kindBits k) d a) = .ok (busInstr k a d) := by
  simp [decodePin, h]

theorem classify_mkPin (kind : BitVec 4) (a : Addr) (d : Byte) :
    classify (mkPin kind d a) =
      match kind.toNat with
      | 0 => some .idle
      | 1 => some .noaccM
      | 2 => some .noaccIo
      | 5 => some .mrd
      | 6 => some (readPort a)
      | 9 => some .mwr
      | 10 => some (writePort a)
      | _ => none := by
  simp only [classify, pinKind_mkPin, pinAddr_mkPin]
  all_goals rfl

/-- Which pin words are malformed (30_encoding.md R94), by their kind bits. -/
theorem classify_eq_none (w : Pin) :
    classify w = none ↔
      (w.getLsbD 26 = true ∧ w.getLsbD 27 = true) ∨ (w.getLsbD 24 = true ∧ w.getLsbD 25 = true) ∨
        ((w.getLsbD 26 = true ∨ w.getLsbD 27 = true) ∧ w.getLsbD 24 = false ∧ w.getLsbD 25 = false) := by
  have key : ∀ kind : BitVec 4, ∀ a d, classify (mkPin kind d a) = none ↔
      (kind.getLsbD 2 = true ∧ kind.getLsbD 3 = true) ∨ (kind.getLsbD 0 = true ∧ kind.getLsbD 1 = true) ∨
        ((kind.getLsbD 2 = true ∨ kind.getLsbD 3 = true) ∧ kind.getLsbD 0 = false ∧ kind.getLsbD 1 = false) := by
    intro kind a d
    rw [classify_mkPin]
    generalize readPort a = r
    generalize writePort a = q
    revert kind
    cases r <;> cases q <;> decide
  have bit : ∀ i, i < 4 → (pinKind w).getLsbD i = w.getLsbD (24 + i) := by
    intro i hi
    simp [pinKind, hi]
  have := key (pinKind w) (pinAddr w) (pinData w)
  rw [mkPin_fields] at this
  rw [this, bit 0 (by omega), bit 1 (by omega), bit 2 (by omega), bit 3 (by omega)]

/-- A well-formed pin word is the word of its class. -/
theorem kindBits_of_classify (w : Pin) (k : BusClass) (h : classify w = some k) : pinKind w = kindBits k := by
  have key : ∀ kind : BitVec 4, ∀ a d k, classify (mkPin kind d a) = some k → kind = kindBits k := by
    intro kind a d k
    rw [classify_mkPin]
    have hr : readPort a = .irdUla ∨ readPort a = .irdJoy ∨ readPort a = .irdOpen := by
      unfold readPort; split
      · simp
      · split <;> simp_all
    have hw : writePort a = .iwrUla ∨ writePort a = .iwrOpen := by
      unfold writePort; split <;> simp
    rcases hr with hr | hr | hr <;> rcases hw with hw | hw <;> rw [hr, hw] <;> revert kind k <;> decide
  have := key (pinKind w) (pinAddr w) (pinData w) k
  rw [mkPin_fields] at this
  exact this h

/-! ## Numbers as bytes -/

theorem natOfBytes_natDigits (fuel n : Nat) (h : n ≤ fuel) : natOfBytes (natDigits fuel n) = n := by
  induction fuel generalizing n with
  | zero => simp [natDigits, natOfBytes]; omega
  | succ fuel ih =>
    simp only [natDigits]
    split
    · simp [natOfBytes]; omega
    · simp only [natOfBytes, ih (n / 256) (by omega), BitVec.toNat_ofNat]
      omega

@[simp] theorem natOfBytes_bytesOfNat (n : Nat) : natOfBytes (bytesOfNat n) = n :=
  natOfBytes_natDigits n n (le_refl n)

@[simp] theorem modeOf_modeNumber (m : JoyMode) : modeOf (modeNumber m) = some m := by cases m <;> rfl

theorem decodeMask_encoded (mm : BitVec 5) : decodeMask ((0 : BitVec 3) ++ mm) = .ok (.joy mm) := by
  revert mm; decide

theorem u16le_lt (b : List Byte) (i : Nat) : u16le b i < 65536 := by
  have h1 := (byteAt b i).isLt
  have h2 := (byteAt b (i + 1)).isLt
  unfold u16le
  omega

/-- Masking a pin word field by field (30_encoding.md R92). -/
theorem mkPin_and (k mk : BitVec 4) (d md : Byte) (a ma : Addr) :
    mkPin k d a &&& mkPin mk md ma = mkPin (k &&& mk) (d &&& md) (a &&& ma) := by
  simp only [mkPin]
  apply BitVec.eq_of_getLsbD_eq
  intro i hi
  simp only [BitVec.getLsbD_and, BitVec.getLsbD_append]
  split
  · rfl
  · split <;> rfl

theorem mkPin_inj (k k' : BitVec 4) (d d' : Byte) (a a' : Addr) :
    mkPin k d a = mkPin k' d' a' ↔ k = k' ∧ d = d' ∧ a = a' := by
  constructor
  · intro h
    have h1 := congrArg pinKind h
    have h2 := congrArg pinData h
    have h3 := congrArg pinAddr h
    simp at h1 h2 h3
    exact ⟨h1, h2, h3⟩
  · rintro ⟨rfl, rfl, rfl⟩; rfl

/-! ## Video offsets (30_encoding.md R99, R100) -/

/-- The pixel offset bit by bit. -/
theorem voff_testBit (yy x : Nat) (hx : x < 32) (k : Nat) :
    (voff yy x).testBit k =
    if k < 5 then x.testBit k else if k < 8 then yy.testBit (k - 2) else if k < 11 then yy.testBit (k - 8)
    else if k < 13 then yy.testBit (k - 5) else false := by
  have xb : 5 ≤ k → x.testBit k = false := fun h =>
    Nat.testBit_lt_two_pow (lt_of_lt_of_le (by omega : x < 2 ^ 5) (Nat.pow_le_pow_right (by norm_num) h))
  have c0 : ∀ i, (0xC0 : Nat).testBit i = decide (i = 6 ∨ i = 7) := by
    intro i
    by_cases h : i < 8
    · revert i; decide
    · rw [Nat.testBit_lt_two_pow (lt_of_lt_of_le (by norm_num : 0xC0 < 2 ^ 8) (Nat.pow_le_pow_right (by norm_num) (by omega)))]
      simp; omega
  have c7 : ∀ i, (0x07 : Nat).testBit i = decide (i < 3) := by
    intro i
    by_cases h : i < 8
    · revert i; decide
    · rw [Nat.testBit_lt_two_pow (lt_of_lt_of_le (by norm_num : 0x07 < 2 ^ 8) (Nat.pow_le_pow_right (by norm_num) (by omega)))]
      simp; omega
  have c3 : ∀ i, (0x38 : Nat).testBit i = decide (3 ≤ i ∧ i < 6) := by
    intro i
    by_cases h : i < 8
    · revert i; decide
    · rw [Nat.testBit_lt_two_pow (lt_of_lt_of_le (by norm_num : 0x38 < 2 ^ 8) (Nat.pow_le_pow_right (by norm_num) (by omega)))]
      simp; omega
  simp only [voff, Nat.testBit_or, Nat.testBit_shiftLeft, Nat.testBit_and, c0, c7, c3]
  by_cases h5 : k < 5
  · have a1 : ¬ k ≥ 8 := by omega
    have a2 : ¬ 5 ≤ k := by omega
    have a3 : ¬ (3 ≤ k - 2 ∧ k - 2 < 6) := by omega
    simp [h5, a1, a3]
    try omega
  · rw [xb (by omega)]
    by_cases h8 : k < 8
    · have a1 : ¬ k ≥ 8 := by omega
      have a3 : (3 ≤ k - 2 ∧ k - 2 < 6) := by omega
      have a4 : ¬ (k - 5 = 6 ∨ k - 5 = 7) := by omega
      have a5 : 2 ≤ k := by omega
      simp [h5, h8, a3, a4, a5]
    · by_cases h11 : k < 11
      · have a3 : ¬ (3 ≤ k - 2 ∧ k - 2 < 6) := by omega
        have a4 : ¬ (k - 5 = 6 ∨ k - 5 = 7) := by omega
        have a5 : k - 8 < 3 := by omega
        have a6 : 8 ≤ k := by omega
        simp [h5, h8, h11, a3, a4, a5, a6]
      · have a3 : ¬ (3 ≤ k - 2 ∧ k - 2 < 6) := by omega
        have a5 : ¬ k - 8 < 3 := by omega
        by_cases h13 : k < 13
        · have a4 : (k - 5 = 6 ∨ k - 5 = 7) := by omega
          have a6 : 5 ≤ k := by omega
          simp [h5, h8, h11, h13, a3, a4, a5, a6]
        · have a4 : ¬ (k - 5 = 6 ∨ k - 5 = 7) := by omega
          simp [h5, h8, h11, h13, a3, a4, a5]

/-- The pixel offset as a number. -/
theorem voff_eq (yy x : Nat) (hy : yy < 256) (hx : x < 32) :
    voff yy x = (yy / 64) * 2048 + (yy % 8) * 256 + (yy / 8 % 8) * 32 + x := by
  have h : ∀ yy < 256, ((yy &&& 0xC0) <<< 5) ||| ((yy &&& 0x07) <<< 8) ||| ((yy &&& 0x38) <<< 2) =
      2 ^ 5 * ((yy / 64) * 64 + (yy % 8) * 8 + yy / 8 % 8) := by decide +kernel
  rw [voff, h yy hy, ← Nat.two_pow_add_eq_or_of_lt (by omega)]
  omega

/-- The attribute offset in its second form. -/
theorem aoff_eq (yy x : Nat) (hy : yy < 192) (hx : x < 32) :
    aoff yy x = 0x1800 ||| ((yy &&& 0xF8) <<< 2) ||| x := by
  have h : ∀ yy < 192, 0x1800 ||| ((yy &&& 0xF8) <<< 2) = 2 ^ 5 * (0xC0 + yy / 8) := by decide +kernel
  rw [h yy hy, ← Nat.two_pow_add_eq_or_of_lt (by omega)]
  unfold aoff; rw [Nat.shiftRight_eq_div_pow]
  omega

/-! ## The raster -/

/-- The reference conversion (42_sequencer.md R188). -/
theorem usToTicks_reference {c : Cfg} (h : c.conversion = .reference) (us : Nat) :
    usToTicks c us = us * c.clockHz / 1000000 := by simp [usToTicks, h]

/-- 0 microseconds are no tick (42_sequencer.md R187). -/
@[simp] theorem usToTicks_zero (c : Cfg) : usToTicks c 0 = 0 := by
  unfold usToTicks
  split <;> simp

/-- The parts of `cfgOk` (00_scope.md R9). -/
theorem cfgOk_parts {c : Cfg} (h : cfgOk c = true) :
    1 ≤ c.scanlinePeriod ∧ 1 ≤ c.totalScanlines ∧ 1 ≤ c.intHoldTicks ∧ c.leftBorderPx % 2 = 0 ∧
      c.rightBorderPx % 2 = 0 ∧ c.blinkBit < 32 ∧ 1 ≤ c.romBanks ∧ c.videoBank ≤ 2 ∧ 1 ≤ c.clockHz := by
  simp only [cfgOk, Bool.and_eq_true, decide_eq_true_eq] at h
  tauto

theorem fbStride_eq {c : Cfg} (hl : c.leftBorderPx % 2 = 0) (hr : c.rightBorderPx % 2 = 0) :
    fbStride c = c.leftBorderPx / 2 + 128 + c.rightBorderPx / 2 := by
  simp only [fbStride, fbWidth]; omega

theorem lineClass_border {c : Cfg} {n : Nat} (h : lineClass c n = .border) :
    c.firstFbLine ≤ n ∧ fbRow c n < fbHeight c ∧
      (fbRow c n < c.topBorderLines ∨ c.topBorderLines + 192 ≤ fbRow c n) := by
  unfold lineClass at h
  split at h
  · simp at h
  · split at h
    · next h1 h2 => exact ⟨by omega, by omega, h2⟩
    · simp at h

theorem lineClass_bitmap {c : Cfg} {n : Nat} (h : lineClass c n = .bitmap) :
    c.firstFbLine ≤ n ∧ fbRow c n < fbHeight c ∧ c.topBorderLines ≤ fbRow c n ∧ bitmapRow c n < 192 := by
  unfold lineClass at h
  split at h
  · simp at h
  · split at h
    · simp at h
    · next h1 h2 => exact ⟨by omega, by omega, by omega, by unfold bitmapRow; omega⟩

/-- A row with a number below `FB_HEIGHT` lies inside the framebuffer. -/
theorem row_fits {c : Cfg} {y : Nat} (h : y < fbHeight c) : y * fbStride c + fbStride c ≤ fbSize c := by
  have : (y + 1) * fbStride c ≤ fbHeight c * fbStride c := Nat.mul_le_mul_right _ h
  rw [fbSize, Nat.mul_comm (fbStride c)]
  linarith [Nat.succ_mul y (fbStride c)]

end Sys2Proof.Machine
end

