-- ==== Sys2Proof/Laws/Exec.lean ====
section
/-! SUPPORT. One lemma per shared operation that says everything it can do: chaining of outcomes, the dispatcher, the
raster step, a tick, a run of ticks, and what a step runs. -/

namespace Sys2Proof.Machine

/-! ## Outcomes -/

theorem live_created {s : State} (o : Out) (h : s.created = true) : live s o = o := by simp [live, h]

theorem live_next {s t : State} {o : Out} (h : live s o = .next t) : s.created = true ∧ o = .next t := by
  unfold live at h
  split at h
  · next hc => exact ⟨hc, h⟩
  · simp at h

theorem andThen_next {o : Out} {k : State → Out} {t : State} (h : andThen o k = .next t) :
    ∃ u, o = .next u ∧ k u = .next t := by
  cases o with
  | next u => exact ⟨u, rfl, h⟩
  | fault r => simp [andThen] at h
  | refused r => simp [andThen] at h

@[simp] theorem andThen_ok (u : State) (k : State → Out) : andThen (.next u) k = k u := rfl

/-! ## The dispatcher -/

/-- What a bus transaction leaves unchanged (60_exceptions.md R283): all but RAM, the last ULA output, the border colour,
the engine's data byte, the free-value counter and the output trace. -/
structure BusFrame (s t : State) : Prop where
  created : t.created = s.created
  cfg : t.cfg = s.cfg
  engineIn : t.engineIn = s.engineIn
  ticks : t.ticks = s.ticks
  result : t.result = s.result
  records : t.records = s.records
  scan : t.scan = s.scan
  inbox : t.inbox = s.inbox
  m : t.m = { s.m with ram := t.m.ram, lastUlaOut := t.m.lastUlaOut, borderColor := t.m.borderColor }
  ram_wf : s.m.ram.wf ramSize → t.m.ram.wf ramSize

theorem BusFrame.refl (s : State) : BusFrame s s := ⟨rfl, rfl, rfl, rfl, rfl, rfl, rfl, rfl, rfl, id⟩

theorem busFrame_busData (s : State) (d : Option Byte) : BusFrame s (s.setBusData d) :=
  ⟨rfl, rfl, rfl, rfl, rfl, rfl, rfl, rfl, rfl, id⟩

theorem busFrame_draw (s : State) : BusFrame s (drawBusByte s) :=
  ⟨rfl, rfl, rfl, rfl, rfl, rfl, rfl, rfl, rfl, id⟩

theorem busFrame_memWrite (s : State) (a : Addr) (d : Byte) : BusFrame s (s.setMachine (memWrite s.m a d)) where
  created := rfl
  cfg := rfl
  engineIn := rfl
  ticks := rfl
  result := rfl
  records := rfl
  scan := rfl
  inbox := rfl
  m := by rw [State.setMachine_m, memWrite_eq]; split <;> rfl
  ram_wf := memWrite_wf s.m a d

theorem busFrame_ula (s : State) (d : Byte) (b : BitVec 3) (l : Bool) :
    BusFrame s (emitBeeper (s.setMachine ((s.m.setLastUlaOut d).setBorderColor b)) l) :=
  ⟨rfl, rfl, rfl, rfl, rfl, rfl, rfl, rfl, rfl, id⟩

/-- The ten bus rows keep the frame. -/
theorem busInstr_frame (k : BusClass) (a : Addr) (d : Byte) (s t : State)
    (h : exec (busInstr k a d) s = .next t) : BusFrame s t := by
  cases k <;> obtain ⟨_, ⟨⟩⟩ := live_next (o := .next _) h
  · exact busFrame_busData s _
  · exact busFrame_memWrite s a d
  · exact busFrame_busData s _
  · exact busFrame_ula s d _ _
  · exact busFrame_busData s _
  · exact busFrame_draw s
  · exact BusFrame.refl s
  · exact BusFrame.refl s
  · exact busFrame_draw s
  · exact busFrame_draw s

/-- The dispatcher runs the operation the pin word decodes to. -/
theorem dispatch_eq_exec {w : Pin} {i : Instr} (s : State) (h : decodePin w = .ok i) : dispatch w s = exec i s := by
  unfold decodePin at h
  unfold dispatch
  cases hc : classify w with
  | none => simp [hc] at h
  | some k =>
    simp only [hc, Except.ok.injEq] at h
    subst h
    cases k <;> rfl

/-- A bus transaction on an existing machine completes. -/
theorem busInstr_completes (k : BusClass) (a : Addr) (d : Byte) (s : State) (h : s.created = true) :
    ∃ t, exec (busInstr k a d) s = .next t := by
  cases k <;> exact ⟨_, live_created _ h⟩

/-- What the dispatcher can do: it answers only for a well-formed word on an existing machine, within the bus frame. -/
theorem dispatch_next {w : Pin} {s t : State} (h : dispatch w s = .next t) :
    (classify w).isSome ∧ s.created = true ∧ BusFrame s t := by
  unfold dispatch at h
  cases hc : classify w with
  | none => simp [hc] at h
  | some k =>
    refine ⟨rfl, ?_⟩
    simp only [hc] at h
    have hx : exec (busInstr k (pinAddr w) (pinData w)) s = .next t := by cases k <;> exact h
    refine ⟨?_, busInstr_frame k _ _ s t hx⟩
    cases k <;> exact (live_next h).1

theorem dispatch_completes {w : Pin} {s : State} (hw : (classify w).isSome) (h : s.created = true) :
    ∃ t, dispatch w s = .next t := by
  obtain ⟨k, hk⟩ := Option.isSome_iff_exists.1 hw
  have hd : decodePin w = .ok (busInstr k (pinAddr w) (pinData w)) := by simp [decodePin, hk]
  rw [dispatch_eq_exec s hd]
  exact busInstr_completes k _ _ s h

/-! ## The raster -/

/-- A line decode writes the framebuffer alone. -/
theorem drawLine_frame (c : Cfg) (n : Nat) (m : MachineState) : drawLine c n m = m.setFb (drawLine c n m).fb := by
  unfold drawLine
  split <;> rfl

/-- The row of a bitmap line has `FB_STRIDE` bytes. -/
theorem bitmapRowBytes_length (c : Cfg) (m : MachineState) (yy : Nat)
    (hl : c.leftBorderPx % 2 = 0) (hr : c.rightBorderPx % 2 = 0) :
    (bitmapRowBytes c m yy).length = fbStride c := by
  have h : ((List.range 32).flatMap (cellBytes c m yy)).length = 128 := by
    simp [List.length_flatMap, cellBytes]
  rw [fbStride_eq hl hr]
  simp only [bitmapRowBytes, List.length_append, borderBytes, List.length_replicate, h]

theorem drawLine_wf {c : Cfg} (n : Nat) (m : MachineState) (hc : cfgOk c = true) (h : m.fb.wf (fbSize c)) :
    (drawLine c n m).fb.wf (fbSize c) := by
  obtain ⟨-, -, -, hl, hr, -⟩ := cfgOk_parts hc
  unfold drawLine
  split
  · exact h
  · next hk =>
    refine writeBytes_wf _ _ _ _ h ?_
    simpa [borderRow] using row_fits (lineClass_border hk).2.1
  · next hk =>
    refine writeBytes_wf _ _ _ _ h ?_
    rw [bitmapRowBytes_length c m _ hl hr]
    exact row_fits (lineClass_bitmap hk).2.1

/-- What the raster step leaves unchanged: all but the framebuffer, the two counters, the blink counter and the interrupt. -/
structure RasterFrame (m n : MachineState) : Prop where
  rest : n = { m with fb := n.fb, scanlineCounter := n.scanlineCounter, line := n.line,
                      blinkCounter := n.blinkCounter, intHold := n.intHold, intLine := n.intLine }

theorem holdStep_frame (m : MachineState) :
    holdStep m = { m with intHold := (holdStep m).intHold, intLine := (holdStep m).intLine } := by
  unfold holdStep
  split
  · split <;> rfl
  · rfl

theorem rasterStep_frame (c : Cfg) (m : MachineState) : RasterFrame m (rasterStep c m) := by
  constructor
  unfold rasterStep
  split
  · unfold lineEnd
    rw [drawLine_frame]
    dsimp only
    split
    · rfl
    · rw [holdStep_frame]; rfl
  · rw [holdStep_frame]; rfl

/-- The interrupt hold after a tick that does not raise (60_exceptions.md R277). -/
theorem holdStep_hold (m : MachineState) (hi : m.intLine = true ↔ 0 < m.intHold) :
    (holdStep m).intHold = m.intHold - 1 ∧ ((holdStep m).intLine = true ↔ 0 < (holdStep m).intHold) := by
  unfold holdStep
  split
  · next h =>
    split
    · next h1 => simp; omega
    · next h1 => simp [h]; omega
  · next h =>
    have : ¬ 0 < m.intHold := fun hp => h (hi.2 hp)
    refine ⟨by omega, hi⟩

/-- The raster position and the interrupt after one tick's steps 3 and 4 (42_sequencer.md R181-R184). -/
theorem rasterStep_cases (c : Cfg) (m : MachineState) :
    (m.scanlineCounter - 1 ≠ 0 ∧ rasterStep c m = holdStep (m.setScanlineCounter (m.scanlineCounter - 1))) ∨
    (m.scanlineCounter - 1 = 0 ∧ m.line + 1 < c.totalScanlines ∧
      rasterStep c m =
        holdStep ((drawLine c m.line (m.setScanlineCounter c.scanlinePeriod)).setLine (m.line + 1))) ∨
    (m.scanlineCounter - 1 = 0 ∧ c.totalScanlines ≤ m.line + 1 ∧
      rasterStep c m = frameWrap c (drawLine c m.line (m.setScanlineCounter c.scanlinePeriod))) := by
  unfold rasterStep lineEnd
  by_cases h : m.scanlineCounter - 1 = 0
  · right
    by_cases h2 : c.totalScanlines ≤ m.line + 1
    · right; simp [h, h2]
    · left; simp [h, h2, Nat.not_le.1 h2]
  · left; simp [h]

/-- The numbers one raster step makes of the position, the blink counter and the interrupt (42_sequencer.md R182-R184,
60_exceptions.md R276, R277). -/
theorem rasterStep_numbers (c : Cfg) (m : MachineState) (h1 : 1 ≤ m.scanlineCounter)
    (hi : m.intLine = true ↔ 0 < m.intHold) (hH : 1 ≤ c.intHoldTicks) :
    (rasterStep c m).scanlineCounter = (if m.scanlineCounter = 1 then c.scanlinePeriod else m.scanlineCounter - 1) ∧
      ((rasterStep c m).intLine = true ↔ 0 < (rasterStep c m).intHold) ∧
      (if m.scanlineCounter = 1 ∧ c.totalScanlines ≤ m.line + 1 then
        (rasterStep c m).line = 0 ∧ (rasterStep c m).blinkCounter = m.blinkCounter + 1 ∧
          (rasterStep c m).intHold = c.intHoldTicks
      else
        (rasterStep c m).line = (if m.scanlineCounter = 1 then m.line + 1 else m.line) ∧
          (rasterStep c m).blinkCounter = m.blinkCounter ∧ (rasterStep c m).intHold = m.intHold - 1) := by
  rcases rasterStep_cases c m with ⟨h, e⟩ | ⟨h, h2, e⟩ | ⟨h, h2, e⟩ <;> rw [e]
  · have := holdStep_hold (m.setScanlineCounter (m.scanlineCounter - 1)) hi
    have hne : m.scanlineCounter ≠ 1 := by omega
    rw [holdStep_frame]
    rw [holdStep_frame] at this
    simp [hne]
    exact ⟨this.2, this.1⟩
  · have he : m.scanlineCounter = 1 := by omega
    have hn : ¬ c.totalScanlines ≤ m.line + 1 := by omega
    rw [drawLine_frame]
    have := holdStep_hold (((m.setScanlineCounter c.scanlinePeriod).setFb
      (drawLine c m.line (m.setScanlineCounter c.scanlinePeriod)).fb).setLine (m.line + 1)) hi
    rw [holdStep_frame]
    rw [holdStep_frame] at this
    simp [he, hn]
    exact ⟨this.2, this.1⟩
  · have he : m.scanlineCounter = 1 := by omega
    rw [drawLine_frame]
    simp [he, h2, frameWrap, raiseInt]
    omega

/-! ## Ticks -/

/-- What a tick can do: its transaction is resolved first, on the state in which the engine has stepped. -/
theorem tickWith_next {w : Pin} {s t : State} (h : tickWith w s = .next t) :
    ∃ u, dispatch w (beginTick w s) = .next u ∧ t = endTick u ∧ (classify w).isSome ∧ s.created = true := by
  obtain ⟨u, hu, ht⟩ := andThen_next h
  obtain ⟨hw, hc, -⟩ := dispatch_next hu
  refine ⟨u, hu, ?_, hw, hc⟩
  injection ht with ht
  exact ht.symm

theorem tickWith_completes {w : Pin} {s : State} (hw : (classify w).isSome) (h : s.created = true) :
    ∃ t, tickWith w s = .next t := by
  obtain ⟨u, hu⟩ := dispatch_completes (s := beginTick w s) hw h
  exact ⟨endTick u, by simp [tickWith, hu]⟩

theorem wellFormedAnswer_isSome (w : Pin) : (classify (wellFormedAnswer w)).isSome := by
  unfold wellFormedAnswer
  split
  · assumption
  · rfl

/-- A tick does not look at what the last operation returned. -/
theorem tickWith_setResult (w : Pin) (s : State) (r : Result) :
    tickWith w (s.setResult r) = andThen (tickWith w s) fun t => .next (t.setResult r) := by
  unfold tickWith dispatch
  cases classify w with
  | none => rfl
  | some k =>
    cases k <;> by_cases h : s.created = true <;>
      simp_all [live, andThen, beginTick, execMrd, execMwr, execIrdUla, execIwrUla, execIrdJoy, execIrdOpen, execIwrOpen,
        execIdle, execNoaccM, execNoaccIo] <;>
      rfl

/-- A tick does not look at the calls that wait. -/
theorem tickWith_setInbox (w : Pin) (s : State) (r : List Packet) :
    tickWith w (s.setInbox r) = andThen (tickWith w s) fun t => .next (t.setInbox r) := by
  unfold tickWith dispatch
  cases classify w with
  | none => rfl
  | some k =>
    cases k <;> by_cases h : s.created = true <;>
      simp_all [live, andThen, beginTick, execMrd, execMwr, execIrdUla, execIwrUla, execIrdJoy, execIrdOpen, execIwrOpen,
        execIdle, execNoaccM, execNoaccIo] <;>
      rfl

/-- A tick does not look at the engine's answers to come. -/
theorem tickWith_setEngineIn (w : Pin) (s : State) (r : List Pin) :
    tickWith w (s.setEngineIn r) = andThen (tickWith w s) fun t => .next (t.setEngineIn r) := by
  unfold tickWith dispatch
  cases classify w with
  | none => rfl
  | some k =>
    cases k <;> by_cases h : s.created = true <;>
      simp_all [live, andThen, beginTick, execMrd, execMwr, execIrdUla, execIwrUla, execIrdJoy, execIrdOpen, execIwrOpen,
        execIdle, execNoaccM, execNoaccIo] <;>
      rfl

/-- The parts of the state no tick changes, and the raster step of every tick. -/
theorem tickWith_frame {w : Pin} {s t : State} (h : tickWith w s = .next t) :
    t.created = s.created ∧ t.cfg = s.cfg ∧ t.engineIn = s.engineIn ∧ t.ticks = s.ticks + 1 ∧ t.result = s.result ∧
      t.records = s.records ∧ t.scan = s.scan ∧ t.inbox = s.inbox ∧
      ∃ m : MachineState, t.m = rasterStep s.cfg m ∧ (s.m.ram.wf ramSize → m.ram.wf ramSize) ∧
        m = { s.m with ram := m.ram, lastUlaOut := m.lastUlaOut, borderColor := m.borderColor, cpu := m.cpu } := by
  obtain ⟨u, hu, rfl, -, -⟩ := tickWith_next h
  obtain ⟨-, -, hf⟩ := dispatch_next hu
  refine ⟨hf.created, hf.cfg, hf.engineIn, hf.ticks, hf.result, hf.records, hf.scan, hf.inbox, u.m, ?_, hf.ram_wf, ?_⟩
  · show rasterStep u.cfg u.m = rasterStep s.cfg u.m
    rw [hf.cfg]; rfl
  · rw [hf.m]; rfl

/-- A run of ticks is one tick, then the rest. -/
theorem runTicks_succ (n : Nat) (s : State) :
    runTicks (n + 1) s = andThen (tickWith (engineAnswer s) (takeAnswer s)) (runTicks n) := by
  rw [runTicks]
  cases tickWith (engineAnswer s) (takeAnswer s) <;> rfl

/-- A run of ticks may be cut anywhere (42_sequencer.md R187: no state of its own). -/
theorem runTicks_add (a b : Nat) (s : State) : runTicks (a + b) s = andThen (runTicks a s) (runTicks b) := by
  induction a generalizing s with
  | zero => rw [Nat.zero_add]; rfl
  | succ a ih =>
    rw [Nat.add_right_comm, runTicks_succ, runTicks_succ]
    cases tickWith (engineAnswer s) (takeAnswer s) with
    | next u => exact ih u
    | fault r => rfl
    | refused r => rfl

theorem engineAnswer_isSome {s : State} (h : ∀ w ∈ s.engineIn, (classify w).isSome) :
    (classify (engineAnswer s)).isSome := by
  unfold engineAnswer
  split
  · next w ws he => exact h w (by simp [he])
  · exact wellFormedAnswer_isSome _

/-- A run of ticks completes when no answer given from outside is malformed. -/
theorem runTicks_completes (n : Nat) (s : State) (hc : s.created = true)
    (h : ∀ w ∈ s.engineIn, (classify w).isSome) : ∃ t, runTicks n s = .next t := by
  induction n generalizing s with
  | zero => exact ⟨s, rfl⟩
  | succ n ih =>
    obtain ⟨u, hu⟩ := tickWith_completes (s := takeAnswer s) (engineAnswer_isSome h) hc
    obtain ⟨h1, -, h3, -⟩ := tickWith_frame hu
    obtain ⟨t, ht⟩ := ih u (by rw [h1]; exact hc) (by
      rw [h3]
      intro w hw
      exact h w (List.mem_of_mem_tail hw))
    exact ⟨t, by rw [runTicks_succ, hu]; exact ht⟩

/-- The parts of the state no run of ticks changes. -/
theorem runTicks_frame {n : Nat} {s t : State} (h : runTicks n s = .next t) :
    t.created = s.created ∧ t.cfg = s.cfg ∧ t.ticks = s.ticks + n ∧ t.result = s.result ∧
      t.records = s.records ∧ t.scan = s.scan ∧ t.inbox = s.inbox := by
  induction n generalizing s with
  | zero => injection h with h; subst h; simp
  | succ n ih =>
    rw [runTicks_succ] at h
    obtain ⟨u, hu, ht⟩ := andThen_next h
    obtain ⟨a1, a2, -, a4, a5, a6, a7, a8, -⟩ := tickWith_frame hu
    obtain ⟨b1, b2, b3, b4, b5, b6, b7⟩ := ih ht
    refine ⟨b1.trans a1, b2.trans a2, ?_, b4.trans a5, b5.trans a6, b6.trans a7, b7.trans a8⟩
    have : u.ticks = s.ticks + 1 := a4
    omega

/-- A run of ticks never looks at the last result. -/
theorem runTicks_setResult (n : Nat) (s : State) (r : Result) :
    runTicks n (s.setResult r) = andThen (runTicks n s) fun t => .next (t.setResult r) := by
  induction n generalizing s with
  | zero => rfl
  | succ n ih =>
    rw [runTicks_succ, runTicks_succ]
    have e : engineAnswer (s.setResult r) = engineAnswer s := rfl
    have e2 : takeAnswer (s.setResult r) = (takeAnswer s).setResult r := rfl
    rw [e, e2, tickWith_setResult]
    cases tickWith (engineAnswer s) (takeAnswer s) with
    | next u => exact ih u
    | fault r => rfl
    | refused r => rfl

/-! ## Steps -/

/-- What a step can do. -/
theorem step_cases {s t : State} (h : step s = .next t) :
    (fetch s = none ∧ t = s) ∨
    ∃ p i, fetch s = some p ∧ decode s.cfg p = .ok i ∧ aroundItem p (exec i) s = .next t := by
  unfold step at h
  split at h
  · next hf => injection h with h; exact .inl ⟨hf, h.symm⟩
  · next p hf =>
    split at h
    · simp at h
    · next i hd => exact .inr ⟨p, i, hf, hd, h⟩

/-- What stands around an operation: nothing but taking its packet, except for a bus item, which is one tick. -/
theorem aroundItem_next {p : Packet} {run : State → Out} {s t : State} (h : aroundItem p run s = .next t) :
    (p.fmt ≠ .bus28 ∧ run (takePacket s) = .next t) ∨
    (p.fmt = .bus28 ∧ ∃ u, run (beginTick (packetPin p) (takePacket s)) = .next u ∧ t = endTick u) := by
  unfold aroundItem at h
  split at h
  · next hf =>
    obtain ⟨u, hu, ht⟩ := andThen_next h
    injection ht with ht
    exact .inr ⟨hf, u, hu, ht.symm⟩
  · next hf => exact .inl ⟨by simp [hf], h⟩
  · next hf => exact .inl ⟨by simp [hf], h⟩
  · next hf => exact .inl ⟨by simp [hf], h⟩

end Sys2Proof.Machine
end

