-- ==== Sys2Proof/Laws/Input.lean ====
section
/-! SUPPORT. What the input operations can do (43_input_mux.md R202-R207): they touch the held keys and the masks alone, and
keep the held keys in order. -/

namespace Sys2Proof.Machine

/-- The held keys stand in rising order. -/
abbrev keysSorted (down : List Byte) : Prop := down.Pairwise (fun x y => x.toNat < y.toNat)

theorem keyDown_frame (cc : Byte) (m : MachineState) :
    keyDown cc m = (m.setKbdDown (keyDown cc m).kbdDown).setKbdJoymask (keyDown cc m).kbdJoymask := by
  unfold keyDown
  split
  · rfl
  · split <;> rfl
  · rfl
  · rfl

theorem keyUp_frame (cc : Byte) (m : MachineState) :
    keyUp cc m = (m.setKbdDown (keyUp cc m).kbdDown).setKbdJoymask (keyUp cc m).kbdJoymask := by
  unfold keyUp
  split
  · rfl
  · split <;> rfl
  · rfl
  · rfl

theorem joyDigits_frame (key : JoyFn → Byte) (mm : BitVec 5) (fs : List JoyFn) (m : MachineState) :
    fs.foldl (joyDigit key mm) m = m.setKbdDown (fs.foldl (joyDigit key mm) m).kbdDown := by
  induction fs generalizing m with
  | nil => rfl
  | cons f fs ih =>
    rw [List.foldl_cons, ih]
    have : joyDigit key mm m f = m.setKbdDown (joyDigit key mm m f).kbdDown := by
      unfold joyDigit; split <;> rfl
    rw [this]; rfl

theorem joystick_frame (mm : BitVec 5) (m : MachineState) :
    joystick mm m = (m.setKbdDown (joystick mm m).kbdDown).setJoyJoymask (joystick mm m).joyJoymask := by
  unfold joystick
  split
  · rfl
  · rfl
  · rw [joyDigits_frame]; rfl
  · rw [joyDigits_frame]; rfl

/-- One function of a Sinclair JOY call: which keys are held after it. -/
theorem mem_joyDigit (key : JoyFn → Byte) (mm : BitVec 5) (m : MachineState) (f : JoyFn) (k : Byte) :
    k ∈ (joyDigit key mm m f).kbdDown ↔ (k = key f ∧ mm &&& joyBit f ≠ 0) ∨ (k ≠ key f ∧ k ∈ m.kbdDown) := by
  unfold joyDigit
  split
  · next h => simp only [kbdKeyDown, MachineState.setKbdDown_kbdDown, mem_keyPress]; tauto
  · next h => simp only [kbdKeyUp, MachineState.setKbdDown_kbdDown, mem_keyRelease]; tauto

theorem keyDown_sorted (cc : Byte) (m : MachineState) (h : keysSorted m.kbdDown) : keysSorted (keyDown cc m).kbdDown := by
  unfold keyDown
  split
  · exact keyPress_sorted _ _ h
  · split
    · exact h
    · exact keyPress_sorted _ _ h
  · exact keyPress_sorted _ _ h
  · exact keyPress_sorted _ _ h

theorem keyUp_sorted (cc : Byte) (m : MachineState) (h : keysSorted m.kbdDown) : keysSorted (keyUp cc m).kbdDown := by
  unfold keyUp
  split
  · exact keyRelease_sorted _ _ h
  · split
    · exact h
    · exact keyRelease_sorted _ _ h
  · exact keyRelease_sorted _ _ h
  · exact keyRelease_sorted _ _ h

theorem joyDigits_sorted (key : JoyFn → Byte) (mm : BitVec 5) (fs : List JoyFn) (m : MachineState)
    (h : keysSorted m.kbdDown) : keysSorted (fs.foldl (joyDigit key mm) m).kbdDown := by
  induction fs generalizing m with
  | nil => exact h
  | cons f fs ih =>
    refine ih _ ?_
    unfold joyDigit
    split
    · exact keyPress_sorted _ _ h
    · exact keyRelease_sorted _ _ h

theorem joystick_sorted (mm : BitVec 5) (m : MachineState) (h : keysSorted m.kbdDown) :
    keysSorted (joystick mm m).kbdDown := by
  unfold joystick
  split
  · exact h
  · exact h
  · exact joyDigits_sorted _ _ _ _ h
  · exact joyDigits_sorted _ _ _ _ h

end Sys2Proof.Machine
end

