-- ==== Sys2Proof/Laws/Snapshot.lean ====
section
/-! SUPPORT. The run-length decoder token by token, the page loop page by page, and what a quickload can do to the machine
(44_snapshot_codec.md R220-R246). -/

namespace Sys2Proof.Machine

/-! ## Tokens -/

theorem tokenAt_nil (term : Bool) : tokenAt term [] = none := by simp [tokenAt]

/-- Where a byte is left there is a token (30_encoding.md R114). -/
theorem tokenAt_ne_none (term : Bool) (rest : List Byte) (h : rest ≠ []) : tokenAt term rest ≠ none := by
  unfold tokenAt
  split
  · simp
  · split
    · contradiction
    · split
      · simp
      · split
        · simp
        · split
          · simp
          · split <;> simp

theorem tokenAt_stop (rest : List Byte) : tokenAt true (0x00 :: 0xED :: 0xED :: 0x00 :: rest) = some .stop := by
  simp [tokenAt]

theorem tokenAt_run (term : Bool) (cc vv : Byte) (rest : List Byte) :
    tokenAt term (0xED :: 0xED :: cc :: vv :: rest) = some (.run cc vv) := by
  simp [tokenAt]

theorem tokenAt_litEd (term : Bool) (b : Byte) (rest : List Byte) (h : b ≠ 0xED) :
    tokenAt term (0xED :: b :: rest) = some .litEd := by
  simp only [tokenAt]
  rw [if_neg (by simp)]
  simp only [ne_eq, not_true_eq_false, if_false, h, not_false_eq_true, if_true]

theorem tokenAt_lit (term : Bool) (b : Byte) (rest : List Byte) (h : b ≠ 0xED)
    (hs : ¬ (term = true ∧ (b :: rest).take 4 = [0x00, 0xED, 0xED, 0x00])) :
    tokenAt term (b :: rest) = some (.lit b) := by
  unfold tokenAt
  rw [if_neg hs]
  simp only [ne_eq, h, not_false_eq_true, if_true]

/-! ## The scan -/

/-- The scan does not look at what it has produced: earlier output stays below. -/
theorem scanLoop_outRev (fuel : Nat) (rest out : List Byte) (term stopped : Bool) (more : List Byte) :
    scanLoop fuel { rest := rest, outRev := out ++ more, term := term, stopped := stopped } =
      (scanLoop fuel { rest := rest, outRev := out, term := term, stopped := stopped }).map
        fun sc => { sc with outRev := sc.outRev ++ more } := by
  induction fuel generalizing rest out stopped with
  | zero => rfl
  | succ fuel ih =>
    simp only [scanLoop]
    by_cases hs : stopped = true
    · simp [hs, Except.map]
    · simp only [hs, Bool.false_eq_true, if_false]
      cases tokenAt term rest with
      | none => rfl
      | some t =>
        cases t with
        | stop => rfl
        | run cc vv =>
          simp only [scanRun, scanTake]
          rw [← List.append_assoc]
          exact ih _ _ _
        | badRun cc => rfl
        | litEd =>
          simp only [scanLitEd, scanTake]
          rw [← List.append_assoc]
          exact ih _ _ _
        | lit b =>
          simp only [scanLit, scanTake]
          rw [← List.append_assoc]
          exact ih _ _ _

/-- Any fuel that covers the bytes left gives the same scan. -/
theorem scanLoop_fuel (f g : Nat) (sc : Scan) (hf : sc.rest.length ≤ f) (hg : sc.rest.length ≤ g) :
    scanLoop f sc = scanLoop g sc := by
  induction f generalizing g sc with
  | zero =>
    have h : sc.rest = [] := List.eq_nil_of_length_eq_zero (by omega)
    cases g with
    | zero => rfl
    | succ g => simp [scanLoop, h, tokenAt_nil]
  | succ f ih =>
    cases g with
    | zero =>
      have h : sc.rest = [] := List.eq_nil_of_length_eq_zero (by omega)
      simp [scanLoop, h, tokenAt_nil]
    | succ g =>
      simp only [scanLoop]
      by_cases hr : sc.rest = []
      · simp [hr, tokenAt_nil]
      · have hlen : 0 < sc.rest.length := List.length_pos_iff.2 hr
        split
        · rfl
        · split
          · rfl
          · rfl
          · exact ih _ _ (by simp [scanRun, scanTake]; omega) (by simp [scanRun, scanTake]; omega)
          · rfl
          · exact ih _ _ (by simp [scanLitEd, scanTake]; omega) (by simp [scanLitEd, scanTake]; omega)
          · exact ih _ _ (by simp [scanLit, scanTake]; omega) (by simp [scanLit, scanTake]; omega)

theorem rle_eq (src : List Byte) (term : Bool) :
    rle src term = (scanLoop src.length (scanOf src term)).map fun sc => sc.outRev.reverse := by
  unfold rle
  cases scanLoop src.length (scanOf src term) <;> rfl

theorem rle_nil (term : Bool) : rle [] term = .ok [] := rfl

theorem rle_stop (src : List Byte) (term : Bool) (h : tokenAt term src = some .stop) : rle src term = .ok [] := by
  cases src with
  | nil => simp [tokenAt_nil] at h
  | cons b bs => simp [rle, scanLoop, scanOf, h, scanEnd]

theorem rle_badRun (src : List Byte) (term : Bool) (cc : Option Byte) (h : tokenAt term src = some (.badRun cc)) :
    rle src term = .error .truncatedRun := by
  cases src with
  | nil => simp [tokenAt_nil] at h
  | cons b bs => simp [rle, scanLoop, scanOf, h]

/-- The rest of a decode after a token of `k` bytes that produced `bs`. -/
theorem rle_rest (src bs : List Byte) (term : Bool) (k n : Nat) (hk : 1 ≤ k) (hn : src.length = n + 1)
    (hb : bs.reverse = bs) :
    ((scanLoop n (scanTake (scanOf src term) k bs)).map fun sc => sc.outRev.reverse) =
      (rle (src.drop k) term).map (bs ++ ·) := by
  have e : scanTake (scanOf src term) k bs =
      { rest := src.drop k, outRev := [] ++ bs, term := term, stopped := false } := by
    simp [scanTake, scanOf]
  rw [e, scanLoop_outRev, rle_eq,
    scanLoop_fuel n (src.drop k).length { rest := src.drop k, outRev := [], term := term, stopped := false }
      (by simp; omega) (by simp)]
  simp only [scanOf]
  cases scanLoop (src.drop k).length { rest := src.drop k, outRev := [], term := term, stopped := false } with
  | error e => rfl
  | ok sc => simp [Except.map, hb]

theorem rle_run (src : List Byte) (term : Bool) (cc vv : Byte) (h : tokenAt term src = some (.run cc vv)) :
    rle src term = (rle (src.drop 4) term).map (List.replicate cc.toNat vv ++ ·) := by
  cases src with
  | nil => simp [tokenAt_nil] at h
  | cons b bs =>
    rw [← rle_rest (b :: bs) _ term 4 bs.length (by omega) rfl (by simp)]
    rw [rle_eq, List.length_cons, scanLoop]
    simp [scanOf, h, scanRun]

theorem rle_litEd (src : List Byte) (term : Bool) (h : tokenAt term src = some .litEd) :
    rle src term = (rle (src.drop 1) term).map (0xED :: ·) := by
  cases src with
  | nil => simp [tokenAt_nil] at h
  | cons b bs =>
    have := rle_rest (b :: bs) [0xED] term 1 bs.length (by omega) rfl (by simp)
    simp only [List.singleton_append] at this
    rw [← this]
    rw [rle_eq, List.length_cons, scanLoop]
    simp [scanOf, h, scanLitEd]

theorem rle_lit (src : List Byte) (term : Bool) (b : Byte) (h : tokenAt term src = some (.lit b)) :
    rle src term = (rle (src.drop 1) term).map (b :: ·) := by
  cases src with
  | nil => simp [tokenAt_nil] at h
  | cons x bs =>
    have := rle_rest (x :: bs) [b] term 1 bs.length (by omega) rfl (by simp)
    simp only [List.singleton_append] at this
    rw [← this]
    rw [rle_eq, List.length_cons, scanLoop]
    simp [scanOf, h, scanLit]

/-- The decoder fails in one way only. -/
theorem scanLoop_error (fuel : Nat) (sc : Scan) (e : LoadCause) (h : scanLoop fuel sc = .error e) : e = .truncatedRun := by
  induction fuel generalizing sc with
  | zero => simp [scanLoop] at h
  | succ fuel ih =>
    simp only [scanLoop] at h
    split at h
    · simp at h
    · split at h
      · simp at h
      · simp at h
      · exact ih _ h
      · injection h with h; exact h.symm
      · exact ih _ h
      · exact ih _ h

theorem rle_error (src : List Byte) (term : Bool) (e : LoadCause) (h : rle src term = .error e) : e = .truncatedRun := by
  unfold rle at h
  split at h
  · simp at h
  · next e' he => injection h with h; rw [← h]; exact scanLoop_error _ _ _ he

/-- What the decoder makes of the token at the head of its input. -/
theorem rle_cases (src : List Byte) (term : Bool) (h : src ≠ []) :
    ∃ t, tokenAt term src = some t ∧
      ((t = .stop ∧ rle src term = .ok []) ∨
        (∃ cc, t = .badRun cc ∧ rle src term = .error .truncatedRun) ∨
        (∃ cc vv, t = .run cc vv ∧ 4 ≤ src.length ∧
          rle src term = (rle (src.drop 4) term).map (List.replicate cc.toNat vv ++ ·)) ∨
        ∃ b, (t = .litEd ∧ b = 0xED ∨ t = .lit b) ∧ rle src term = (rle (src.drop 1) term).map (b :: ·)) := by
  cases ht : tokenAt term src with
  | none => exact absurd ht (tokenAt_ne_none term src h)
  | some t =>
    refine ⟨t, rfl, ?_⟩
    cases t with
    | stop => exact .inl ⟨rfl, rle_stop _ _ ht⟩
    | badRun cc => exact .inr (.inl ⟨cc, rfl, rle_badRun _ _ _ ht⟩)
    | run cc vv =>
      refine .inr (.inr (.inl ⟨cc, vv, rfl, ?_, rle_run _ _ _ _ ht⟩))
      unfold tokenAt at ht
      split at ht
      · simp at ht
      · match src, ht with
        | [], ht => simp at ht
        | [b], ht => simp at ht; split at ht <;> simp at ht
        | [b, c], ht => simp at ht; split at ht <;> (try split at ht) <;> simp at ht
        | [b, c, d], ht => simp at ht; split at ht <;> (try split at ht) <;> simp at ht
        | b :: c :: d :: e :: r, ht => simp
    | litEd => exact .inr (.inr (.inr ⟨0xED, .inl ⟨rfl, rfl⟩, rle_litEd _ _ ht⟩))
    | lit b => exact .inr (.inr (.inr ⟨b, .inr rfl, rle_lit _ _ _ ht⟩))

/-! ## Staged banks -/

/-- The canonical form of the staged banks. -/
structure Stage.wf (st : Stage) : Prop where
  ram : Memory.wf ramSize st.ram
  junk : Memory.wf bankSize st.junk

/-- A page's bank is one of the three, or junk (30_encoding.md R113). -/
theorem pageBank_le (c : Cfg) (page : Byte) (b : Nat) (h : pageBank c page = .ram b) : b ≤ 2 := by
  unfold pageBank at h
  dsimp only at h
  generalize (if (page.toNat : Int) - (c.pageOffset : Int) = 5 then (0 : Int)
    else (page.toNat : Int) - (c.pageOffset : Int)) = idx at h
  by_cases hi : 0 ≤ idx ∧ idx ≤ 2
  · rw [if_pos hi] at h
    injection h with h
    omega
  · rw [if_neg hi] at h
    simp at h

theorem stagePage_ram (st : Stage) (b : Nat) (out : List Byte) (k : Nat) :
    (stagePage st (.ram b) out).ram.read k =
      if 16384 * b ≤ k ∧ k < 16384 * b + out.length then out.getD (k - 16384 * b) 0 else st.ram.read k := by
  have e : bankKey b 0 = 16384 * b := by unfold bankKey bankSize; omega
  simp only [stagePage, e, read_writeBytes, unlistedByte]

theorem stagePage_junk (st : Stage) (out : List Byte) (k : Nat) :
    (stagePage st .junk out).junk.read k = if k < out.length then out.getD k 0 else st.junk.read k := by
  simp only [stagePage, read_writeBytes, unlistedByte, Nat.zero_le, true_and, Nat.zero_add, Nat.sub_zero]

theorem stagePage_wf (c : Cfg) (page : Byte) (st : Stage) (out : List Byte) (h : st.wf) (ho : out.length ≤ bankSize) :
    (stagePage st (pageBank c page) out).wf := by
  cases hb : pageBank c page with
  | junk => exact ⟨h.ram, writeBytes_wf _ _ _ _ h.junk (by omega)⟩
  | ram b =>
    have := pageBank_le c page b hb
    refine ⟨writeBytes_wf _ _ _ _ h.ram ?_, h.junk⟩
    unfold bankKey ramSize
    unfold bankSize at *
    omega

/-! ## The page loop -/

theorem parsePage_rest (c : Cfg) (bytes : List Byte) (st : Stage) (rest : List Byte) (st' : Stage)
    (h : parsePage c bytes st = .ok (rest, st')) : rest.length + 3 ≤ bytes.length ∧ (st.wf → st'.wf) := by
  unfold parsePage at h
  split at h
  · simp at h
  · split at h
    · simp at h
    · split at h
      · simp at h
      · split at h
        · simp at h
        · split at h
          · simp at h
          · next hl _ _ _ out _ ho =>
            injection h with h
            injection h with h1 h2
            refine ⟨?_, ?_⟩
            · rw [← h1]; simp; omega
            · intro hw; rw [← h2]; exact stagePage_wf c _ st out hw (by omega)

theorem pageLoop_wf (c : Cfg) (fuel : Nat) (bytes : List Byte) (st st' : Stage)
    (h : pageLoop c fuel bytes st = .ok st') (hw : st.wf) : st'.wf := by
  induction fuel generalizing bytes st with
  | zero => simp only [pageLoop] at h; injection h with h; rw [← h]; exact hw
  | succ fuel ih =>
    simp only [pageLoop] at h
    split at h
    · injection h with h; rw [← h]; exact hw
    · split at h
      · simp at h
      · next hp => exact ih _ _ h ((parsePage_rest c _ _ _ _ hp).2 hw)

/-- Any fuel that covers the bytes left gives the same pages. -/
theorem pageLoop_fuel (c : Cfg) (f g : Nat) (bytes : List Byte) (st : Stage) (hf : bytes.length ≤ f)
    (hg : bytes.length ≤ g) : pageLoop c f bytes st = pageLoop c g bytes st := by
  induction f generalizing g bytes st with
  | zero =>
    have h : bytes = [] := List.eq_nil_of_length_eq_zero (by omega)
    cases g <;> simp [pageLoop, h]
  | succ f ih =>
    cases g with
    | zero =>
      have h : bytes = [] := List.eq_nil_of_length_eq_zero (by omega)
      simp [pageLoop, h]
    | succ g =>
      simp only [pageLoop]
      split
      · rfl
      · split
        · rfl
        · next hp =>
          have := (parsePage_rest c _ _ _ _ hp).1
          exact ih _ _ _ (by omega) (by omega)

/-! ## Loads -/

theorem parseLegacy_wf (b : List Byte) (st st' : Stage) (h : parseLegacy b st = .ok st') (hw : st.wf) : st'.wf := by
  unfold parseLegacy at h
  split at h
  · simp at h
  · split at h
    · simp at h
    · next ho =>
      injection h with h
      rw [← h]
      exact ⟨writeBytes_wf _ _ _ _ hw.ram (by omega), hw.junk⟩

theorem parseExtended_wf (c : Cfg) (b : List Byte) (st st' : Stage) (pc : Nat)
    (h : parseExtended c b st = .ok (pc, st')) (hw : st.wf) : st'.wf := by
  unfold parseExtended at h
  split at h
  · simp at h
  · split at h
    · simp at h
    · split at h
      · simp at h
      · split at h
        · simp at h
        · split at h
          · simp at h
          · next hp =>
            injection h with h
            injection h with h1 h2
            rw [← h2]
            exact pageLoop_wf c _ _ _ _ hp hw

/-- Everything a successful load can do to the machine: RAM, junk, the engine's block and the border colour are replaced,
in canonical form (R245-R247). -/
structure Loaded (m n : MachineState) : Prop where
  frame : n = (((m.setRam n.ram).setJunk n.junk).setCpu n.cpu).setBorderColor n.borderColor
  wf : m.ram.wf ramSize → m.junk.wf bankSize → n.ram.wf ramSize ∧ n.junk.wf bankSize

theorem loadLegacy_loaded (c : Cfg) (b : List Byte) (m n : MachineState) (h : loadLegacy c b m = .ok n) : Loaded m n := by
  unfold loadLegacy at h
  split at h
  · simp at h
  · next hp =>
    injection h with h
    subst h
    refine ⟨rfl, fun hr hj => ?_⟩
    have := parseLegacy_wf b (stageOf m) _ hp ⟨hr, hj⟩
    exact ⟨this.ram, this.junk⟩

theorem loadExtended_loaded (c : Cfg) (b : List Byte) (m n : MachineState) (h : loadExtended c b m = .ok n) :
    Loaded m n := by
  unfold loadExtended at h
  split at h
  · simp at h
  · next hp =>
    injection h with h
    subst h
    refine ⟨rfl, fun hr hj => ?_⟩
    have := parseExtended_wf c b (stageOf m) _ _ hp ⟨hr, hj⟩
    exact ⟨this.ram, this.junk⟩

theorem quickload_loaded (c : Cfg) (b : List Byte) (m n : MachineState) (h : quickload c b m = .ok n) : Loaded m n := by
  unfold quickload at h
  split at h
  · simp at h
  · split at h
    · exact loadLegacy_loaded c b m n h
    · exact loadExtended_loaded c b m n h

/-- A load's end (R243): the machine as a whole, or the failure alone. -/
theorem finishLoad_cases (s : State) (r : Except LoadCause MachineState) :
    (∃ n, r = .ok n ∧ finishLoad s r = .next ((s.setMachine n).setResult .loaded)) ∨
      ∃ e, r = .error e ∧ finishLoad s r = .next (s.setResult (.failed (.load e))) := by
  cases r with
  | ok n => exact .inl ⟨n, rfl, rfl⟩
  | error e => exact .inr ⟨e, rfl, rfl⟩

end Sys2Proof.Machine
end

