-- ==== Sys2Proof/Laws/Invariant.lean ====
section
/-! SUPPORT. The invariants of 10_state.md R47 under each shared operation on the machine. -/

namespace Sys2Proof.Machine

/-- The ROM of a fresh machine, byte by byte (70_reset_and_hazards.md R300). -/
theorem read_installRom (rom : List Byte) (k : Nat) : (installRom rom).read k = rom.getD k 0 := by
  have := read_cellsFrom 0 rom k (Nat.zero_le _)
  simpa [unlistedByte, installRom] using this

/-- Reset as updates of single fields (70_reset_and_hazards.md R303). -/
theorem resetMachine_eq (c : Cfg) (m : MachineState) :
    resetMachine c m = ((((((((((m.setCpu c.engineReset).setLastUlaOut 0).setBorderColor
      0).setIntLine false).setIntHold 0).setScanlineCounter c.scanlinePeriod).setLine 0).setBlinkCounter
      0).setKbdJoymask 0).setJoyJoymask 0).setKbdDown [] := by
  simp only [resetMachine, initMachine, MachineState.setCpu, MachineState.setLastUlaOut, MachineState.setBorderColor,
    MachineState.setIntLine, MachineState.setIntHold, MachineState.setScanlineCounter, MachineState.setLine,
    MachineState.setBlinkCounter, MachineState.setKbdJoymask, MachineState.setJoyJoymask, MachineState.setKbdDown]

/-- A fresh machine meets the invariants (R45). -/
theorem initMachine_inv (c : Cfg) (rom : List Byte) (hc : cfgOk c = true) (hr : rom.length = c.romBanks * bankSize) :
    (initMachine c rom).Inv c := by
  obtain ⟨hP, hN, -⟩ := cfgOk_parts hc
  constructor <;> simp only [initMachine]
  · exact hP
  · exact Nat.le_refl _
  · exact hN
  · exact Nat.zero_le _
  · simp
  · simp [Memory.wf]
  · exact cellsFrom_wf rom _ (by omega)
  · simp [Memory.wf]
  · simp [Memory.wf]
  · exact List.Pairwise.nil

/-- RESET keeps the invariants (R46). -/
theorem resetMachine_inv (c : Cfg) (m : MachineState) (hc : cfgOk c = true) (h : m.Inv c) : (resetMachine c m).Inv c := by
  obtain ⟨hP, hN, -⟩ := cfgOk_parts hc
  constructor <;> simp only [resetMachine, initMachine]
  · exact hP
  · exact Nat.le_refl _
  · exact hN
  · exact Nat.zero_le _
  · simp
  · exact h.ram_wf
  · exact h.rom_wf
  · exact h.junk_wf
  · exact h.fb_wf
  · exact List.Pairwise.nil

/-- A transaction keeps them: of the fields they speak of it changes RAM alone. -/
theorem busFrame_inv {s t : State} (c : Cfg) (hf : BusFrame s t) (h : s.m.Inv c) : t.m.Inv c := by
  have hm := hf.m
  constructor
  · rw [hm]; exact h.counter_pos
  · rw [hm]; exact h.counter_le
  · rw [hm]; exact h.line_lt
  · rw [hm]; exact h.hold_le
  · rw [hm]; exact h.line_iff_hold
  · exact hf.ram_wf h.ram_wf
  · rw [hm]; exact h.rom_wf
  · rw [hm]; exact h.junk_wf
  · rw [hm]; exact h.fb_wf
  · rw [hm]; exact h.keys_sorted

/-- The engine's block is not spoken of. -/
theorem setCpu_inv (c : Cfg) (m : MachineState) (v : Cpu) (h : m.Inv c) : (m.setCpu v).Inv c :=
  ⟨h.counter_pos, h.counter_le, h.line_lt, h.hold_le, h.line_iff_hold, h.ram_wf, h.rom_wf, h.junk_wf, h.fb_wf,
    h.keys_sorted⟩

/-- A framebuffer in canonical form keeps them. -/
theorem setFb_inv (c : Cfg) (m : MachineState) (v : Memory) (h : m.Inv c) (hv : v.wf (fbSize c)) : (m.setFb v).Inv c :=
  ⟨h.counter_pos, h.counter_le, h.line_lt, h.hold_le, h.line_iff_hold, h.ram_wf, h.rom_wf, h.junk_wf, hv, h.keys_sorted⟩

theorem drawLine_inv (c : Cfg) (n : Nat) (m : MachineState) (hc : cfgOk c = true) (h : m.Inv c) : (drawLine c n m).Inv c := by
  rw [drawLine_frame]
  exact setFb_inv c m _ h (drawLine_wf n m hc h.fb_wf)

theorem rasterStep_fb_wf (c : Cfg) (m : MachineState) (hc : cfgOk c = true) (h : m.fb.wf (fbSize c)) :
    (rasterStep c m).fb.wf (fbSize c) := by
  have hd : (drawLine c m.line (m.setScanlineCounter c.scanlinePeriod)).fb.wf (fbSize c) := drawLine_wf _ _ hc h
  rcases rasterStep_cases c m with ⟨-, e⟩ | ⟨-, -, e⟩ | ⟨-, -, e⟩ <;> rw [e]
  · rw [holdStep_frame]; exact h
  · rw [holdStep_frame]; exact hd
  · exact hd

/-- The raster step of a tick keeps them (R182-R184, R276, R277). -/
theorem rasterStep_inv (c : Cfg) (m : MachineState) (hc : cfgOk c = true) (h : m.Inv c) : (rasterStep c m).Inv c := by
  obtain ⟨hP, hN, hH, -⟩ := cfgOk_parts hc
  obtain ⟨r1, r2, r3⟩ := rasterStep_numbers c m h.counter_pos h.line_iff_hold hH
  have hfb := rasterStep_fb_wf c m hc h.fb_wf
  have hcp := h.counter_pos
  have hcl := h.counter_le
  have hll := h.line_lt
  have hhl := h.hold_le
  have hfr := (rasterStep_frame c m).rest
  have hl : (rasterStep c m).line < c.totalScanlines ∧ (rasterStep c m).intHold ≤ c.intHoldTicks := by
    split at r3
    · omega
    · next hn =>
      obtain ⟨a, -, b⟩ := r3
      refine ⟨?_, by omega⟩
      rw [a]
      split
      · next h1 => have : ¬ c.totalScanlines ≤ m.line + 1 := fun h2 => hn ⟨h1, h2⟩; omega
      · exact hll
  constructor
  · rw [r1]; split <;> omega
  · rw [r1]; split <;> omega
  · exact hl.1
  · exact hl.2
  · exact r2
  · rw [hfr]; exact h.ram_wf
  · rw [hfr]; exact h.rom_wf
  · rw [hfr]; exact h.junk_wf
  · exact hfb
  · rw [hfr]; exact h.keys_sorted

/-- One tick keeps them. -/
theorem tickWith_inv {w : Pin} {s t : State} (hc : cfgOk s.cfg = true) (h : s.m.Inv s.cfg) (ht : tickWith w s = .next t) :
    t.m.Inv s.cfg := by
  obtain ⟨u, hu, rfl, -⟩ := tickWith_next ht
  obtain ⟨-, -, hf⟩ := dispatch_next hu
  have hb : (beginTick w s).m.Inv s.cfg := setCpu_inv _ _ _ h
  have hcfg : u.cfg = s.cfg := hf.cfg
  show (rasterStep u.cfg u.m).Inv s.cfg
  rw [hcfg]
  exact rasterStep_inv s.cfg u.m hc (busFrame_inv s.cfg hf hb)

/-- A run of ticks keeps them. -/
theorem runTicks_inv {n : Nat} {s t : State} (hc : cfgOk s.cfg = true) (h : s.m.Inv s.cfg) (ht : runTicks n s = .next t) :
    t.m.Inv s.cfg := by
  induction n generalizing s with
  | zero => injection ht with ht; rw [← ht]; exact h
  | succ n ih =>
    rw [runTicks_succ] at ht
    obtain ⟨u, hu, hv⟩ := andThen_next ht
    have hcfg : u.cfg = s.cfg := (tickWith_frame hu).2.1
    have hu' : u.m.Inv s.cfg := tickWith_inv (s := takeAnswer s) hc h hu
    have := ih (s := u) (by rw [hcfg]; exact hc) (by rw [hcfg]; exact hu') hv
    rw [hcfg] at this
    exact this

/-- Held keys in order and any mask keep them. -/
theorem setKeys_inv (c : Cfg) (m : MachineState) (v : List Byte) (h : m.Inv c) (hv : keysSorted v) : (m.setKbdDown v).Inv c :=
  ⟨h.counter_pos, h.counter_le, h.line_lt, h.hold_le, h.line_iff_hold, h.ram_wf, h.rom_wf, h.junk_wf, h.fb_wf, hv⟩

theorem keyDown_inv (c : Cfg) (m : MachineState) (cc : Byte) (h : m.Inv c) : (keyDown cc m).Inv c := by
  have hk := setKeys_inv c m _ h (keyDown_sorted cc m h.keys_sorted)
  rw [keyDown_frame]
  exact ⟨hk.counter_pos, hk.counter_le, hk.line_lt, hk.hold_le, hk.line_iff_hold, hk.ram_wf, hk.rom_wf, hk.junk_wf, hk.fb_wf,
    hk.keys_sorted⟩

theorem keyUp_inv (c : Cfg) (m : MachineState) (cc : Byte) (h : m.Inv c) : (keyUp cc m).Inv c := by
  have hk := setKeys_inv c m _ h (keyUp_sorted cc m h.keys_sorted)
  rw [keyUp_frame]
  exact ⟨hk.counter_pos, hk.counter_le, hk.line_lt, hk.hold_le, hk.line_iff_hold, hk.ram_wf, hk.rom_wf, hk.junk_wf, hk.fb_wf,
    hk.keys_sorted⟩

theorem joystick_inv (c : Cfg) (m : MachineState) (mm : BitVec 5) (h : m.Inv c) : (joystick mm m).Inv c := by
  have hk := setKeys_inv c m _ h (joystick_sorted mm m h.keys_sorted)
  rw [joystick_frame]
  exact ⟨hk.counter_pos, hk.counter_le, hk.line_lt, hk.hold_le, hk.line_iff_hold, hk.ram_wf, hk.rom_wf, hk.junk_wf, hk.fb_wf,
    hk.keys_sorted⟩

/-- A successful load keeps them. -/
theorem loaded_inv (c : Cfg) {m n : MachineState} (hl : Loaded m n) (h : m.Inv c) : n.Inv c := by
  obtain ⟨hr, hj⟩ := hl.wf h.ram_wf h.junk_wf
  have hf := hl.frame
  constructor
  · rw [hf]; exact h.counter_pos
  · rw [hf]; exact h.counter_le
  · rw [hf]; exact h.line_lt
  · rw [hf]; exact h.hold_le
  · rw [hf]; exact h.line_iff_hold
  · exact hr
  · rw [hf]; exact h.rom_wf
  · exact hj
  · rw [hf]; exact h.fb_wf
  · rw [hf]; exact h.keys_sorted

end Sys2Proof.Machine
end

