-- ==== Sys2Proof/Laws/Pages.lean ====
section
/-! SUPPORT. An extended snapshot laid out as start, pages and tail (30_encoding.md R108, R111, R112): what the page loop and
the loader make of it (44_snapshot_codec.md R226-R238). -/

namespace Sys2Proof.Machine

theorem byteAt_append (x y : List Byte) (i : Nat) (h : i < x.length) : byteAt (x ++ y) i = byteAt x i := by
  simp only [byteAt, List.getD_append _ _ _ _ h]

theorem u16le_append (x y : List Byte) (i : Nat) (h : i + 1 < x.length) : u16le (x ++ y) i = u16le x i := by
  simp only [u16le, byteAt_append _ _ _ (show i < x.length by omega), byteAt_append _ _ _ h]

theorem SnapPage.bytes_length (p : SnapPage) : p.bytes.length = 3 + p.data.length := by
  simp [SnapPage.bytes]; omega

theorem SnapPage.bytes_u16le (p : SnapPage) (tail : List Byte) (h : p.data.length < 0xFFFF) :
    u16le (p.bytes ++ tail) 0 = p.data.length := by
  simp only [u16le, byteAt, SnapPage.bytes, List.cons_append, List.getD_cons_zero, Nat.zero_add, List.getD_cons_succ,
    BitVec.toNat_ofNat]
  omega

theorem SnapPage.bytes_drop (p : SnapPage) (tail : List Byte) : (p.bytes ++ tail).drop 3 = p.data ++ tail := rfl

/-- A page at the head of the payload, up to what its data expand to. -/
theorem parsePage_page (c : Cfg) (p : SnapPage) (tail : List Byte) (st : Stage) (h : p.data.length < 0xFFFF) :
    parsePage c (p.bytes ++ tail) st =
      match rle p.data false with
      | .error e => .error e
      | .ok out =>
        if bankSize < out.length then .error .outputOverflow
        else .ok (tail, stagePage st (pageBank c p.number) out) := by
  unfold parsePage
  rw [if_neg (by rw [List.length_append, SnapPage.bytes_length]; omega), SnapPage.bytes_u16le p tail h,
    if_neg (by omega), SnapPage.bytes_drop, if_neg (by rw [List.length_append]; omega), List.take_left,
    List.drop_left]
  rfl

/-- A page that loads is staged and the loop goes on after it. -/
theorem parsePage_loads (c : Cfg) (p : SnapPage) (out tail : List Byte) (st : Stage) (h : p.loads out) :
    parsePage c (p.bytes ++ tail) st = .ok (tail, stagePage st (pageBank c p.number) out) := by
  obtain ⟨h1, h2, h3⟩ := h
  rw [parsePage_page c p tail st h1, h2]
  show (if bankSize < out.length then _ else _) = _
  rw [if_neg (by omega)]

/-- The page loop over pages that load, then on what follows. -/
theorem pageLoop_pages (c : Cfg) (pages : List (SnapPage × List Byte)) (tail : List Byte) (st : Stage) (fuel : Nat)
    (h : ∀ p ∈ pages, p.1.loads p.2) (hf : (pagesBytes pages ++ tail).length ≤ fuel) :
    pageLoop c fuel (pagesBytes pages ++ tail) st = pageLoop c tail.length tail (stagePages c pages st) := by
  induction pages generalizing st fuel with
  | nil => exact pageLoop_fuel c fuel tail.length tail st (by simpa [pagesBytes] using hf) (Nat.le_refl _)
  | cons p ps ih =>
    have e : pagesBytes (p :: ps) ++ tail = p.1.bytes ++ (pagesBytes ps ++ tail) := by
      simp [pagesBytes, List.append_assoc]
    rw [e] at hf ⊢
    have hl : (p.1.bytes ++ (pagesBytes ps ++ tail)).length = 3 + p.1.data.length + (pagesBytes ps ++ tail).length := by
      rw [List.length_append, SnapPage.bytes_length]
    cases fuel with
    | zero => omega
    | succ fuel =>
      simp only [pageLoop]
      rw [if_neg (by intro h0; rw [h0] at hl; simp at hl; omega),
        parsePage_loads c p.1 p.2 _ st (h p (by simp))]
      exact ih _ fuel (fun q hq => h q (by simp [hq])) (by omega)

/-- The page loop on a first page that fails. -/
theorem pageLoop_error (c : Cfg) (bytes : List Byte) (st : Stage) (e : LoadCause) (h : parsePage c bytes st = .error e)
    (hb : bytes ≠ []) : pageLoop c bytes.length bytes st = .error e := by
  cases hl : bytes.length with
  | zero => exact absurd (List.eq_nil_of_length_eq_zero hl) hb
  | succ n => simp [pageLoop, hb, h]

/-- The extension header is accepted and the page loop decides (R226). -/
theorem parseExtended_start (c : Cfg) (b0 payload : List Byte) (st : Stage) (h : ExtendedStart c b0) :
    parseExtended c (b0 ++ payload) st =
      match pageLoop c payload.length payload st with
      | .error e => .error e
      | .ok st' => .ok (u16le b0 32, st') := by
  obtain ⟨h1, h2, -, h4⟩ := h
  unfold parseExtended
  rw [if_neg (by rw [List.length_append]; omega), u16le_append _ _ 30 (by omega), if_neg (by omega),
    if_neg (by rw [List.length_append]; omega), byteAt_append _ _ 34 (by omega), if_neg (by simpa using h4), ← h1,
    List.drop_left, u16le_append _ _ 32 (by omega),
    pageLoop_fuel c (b0 ++ payload).length payload.length payload st (by rw [List.length_append]; omega) (Nat.le_refl _)]
  all_goals rfl

theorem regImage_append (x y : List Byte) (pc : Nat) (h : 30 ≤ x.length) : regImage (x ++ y) pc = regImage x pc := by
  unfold regImage snapR flags0
  simp only [byteAt_append x y _ (show 0 < x.length by omega), byteAt_append x y _ (show 1 < x.length by omega),
    byteAt_append x y _ (show 2 < x.length by omega), byteAt_append x y _ (show 3 < x.length by omega),
    byteAt_append x y _ (show 4 < x.length by omega), byteAt_append x y _ (show 5 < x.length by omega),
    byteAt_append x y _ (show 10 < x.length by omega), byteAt_append x y _ (show 11 < x.length by omega),
    byteAt_append x y _ (show 12 < x.length by omega), byteAt_append x y _ (show 13 < x.length by omega),
    byteAt_append x y _ (show 14 < x.length by omega), byteAt_append x y _ (show 15 < x.length by omega),
    byteAt_append x y _ (show 16 < x.length by omega), byteAt_append x y _ (show 17 < x.length by omega),
    byteAt_append x y _ (show 18 < x.length by omega), byteAt_append x y _ (show 19 < x.length by omega),
    byteAt_append x y _ (show 20 < x.length by omega), byteAt_append x y _ (show 21 < x.length by omega),
    byteAt_append x y _ (show 22 < x.length by omega), byteAt_append x y _ (show 27 < x.length by omega),
    byteAt_append x y _ (show 28 < x.length by omega), byteAt_append x y _ (show 29 < x.length by omega),
    u16le_append x y 8 (by omega), u16le_append x y 23 (by omega), u16le_append x y 25 (by omega)]

/-- An extended load fails as its page loop fails. -/
theorem quickload_start_error (c : Cfg) (b0 payload : List Byte) (m : MachineState) (e : LoadCause)
    (h : ExtendedStart c b0) (he : pageLoop c payload.length payload (stageOf m) = .error e) :
    quickload c (b0 ++ payload) m = .error e := by
  have h1 := h.whole
  have h3 := h.pc_zero
  have hl := h.long
  unfold quickload
  rw [if_neg (by rw [List.length_append]; unfold headerLength; omega), u16le_append _ _ 6 (by omega), if_neg (by simp [h3])]
  unfold loadExtended
  rw [parseExtended_start c b0 payload _ h, he]

/-- An extended load with pages that load (R236-R238, R244-R246). -/
theorem loadExtended_pages (c : Cfg) (b0 : List Byte) (pages : List (SnapPage × List Byte)) (m : MachineState)
    (h : ExtendedStart c b0) (hp : ∀ p ∈ pages, p.1.loads p.2) :
    loadExtended c (b0 ++ pagesBytes pages) m = .ok (commit c b0 (u16le b0 32) (stagePages c pages (stageOf m)) m) := by
  have h1 := h.whole
  have hl := h.long
  unfold loadExtended
  have e : pageLoop c (pagesBytes pages).length (pagesBytes pages) (stageOf m) =
      .ok (stagePages c pages (stageOf m)) := by
    have := pageLoop_pages c pages [] (stageOf m) (pagesBytes pages).length hp (by simp)
    simpa [pageLoop] using this
  rw [parseExtended_start c b0 _ _ h, e]
  simp only [commit, regImage_append _ _ _ (show 30 ≤ b0.length by omega), snapBorder, flags0,
    byteAt_append _ _ 12 (show 12 < b0.length by omega)]

end Sys2Proof.Machine
end

