-- ==== Sys2Proof/Laws/PerInstr.lean ====
section
/-! SUPPORT. One statement about every operation as syntax: the word of its encoding, numbered as spec/opcode_table.json
numbers it, fits the mask and the match of its row (30_encoding.md R92, R93, R107, R108, R114). -/

namespace Sys2Proof.Laws

open Sys2Proof.Machine

/-- The word of a packet as the opcode table numbers it: the pin word, the selector byte, the header's PC field, or the
first four bytes of the stream, first byte most significant. -/
def packetWord (p : Packet) : Nat :=
  match p.fmt with
  | .bus28 => natOfBytes p.bytes
  | .host8 => (byteAt p.bytes 0).toNat
  | .z80hdr => u16le p.bytes 6
  | .rle32 _ =>
    (byteAt p.bytes 0).toNat * 16777216 + (byteAt p.bytes 1).toNat * 65536 + (byteAt p.bytes 2).toNat * 256 +
      (byteAt p.bytes 3).toNat

/-- Mask and match of the row of the opcode table. -/
def rowPattern : Instr → Nat × Nat
  | .mrd _ _ => (0x0F000000, 0x05000000)
  | .mwr _ _ => (0x0F000000, 0x09000000)
  | .irdUla _ _ => (0x0F000001, 0x06000000)
  | .iwrUla _ _ => (0x0F000001, 0x0A000000)
  | .irdJoy _ _ => (0x0F0000E1, 0x06000001)
  | .irdOpen _ _ => (0x0F000001, 0x06000001)
  | .iwrOpen _ _ => (0x0F000001, 0x0A000001)
  | .idle _ _ => (0x0F000000, 0x00000000)
  | .noaccM _ _ => (0x0F000000, 0x01000000)
  | .noaccIo _ _ => (0x0F000000, 0x02000000)
  | .init _ _ => (0xFF, 0x00)
  | .reset => (0xFF, 0x01)
  | .execUs _ => (0xFF, 0x02)
  | .keydn _ => (0xFF, 0x03)
  | .keyup _ => (0xFF, 0x04)
  | .jmode _ => (0xFF, 0x05)
  | .joy _ => (0xFF, 0x06)
  | .qload _ => (0xFF, 0x07)
  | .save => (0xFF, 0x08)
  | .restore _ => (0xFF, 0x09)
  | .dinfo => (0xFF, 0x0A)
  | .tick _ => (0xFF, 0x10)
  | .lineOutside _ => (0xFF, 0x11)
  | .lineBorder _ => (0xFF, 0x11)
  | .lineBitmap _ => (0xFF, 0x11)
  | .qloadExt _ => (0xFFFF, 0x0000)
  | .qloadLegacy _ => (0x0000, 0x0000)
  | .rleEnd => (0xFFFFFFFF, 0x00EDED00)
  | .rleRun _ _ => (0xFFFF0000, 0xEDED0000)
  | .rleBadRun _ => (0xFFFF0000, 0xEDED0000)
  | .rleLitEd => (0xFF000000, 0xED000000)
  | .rleLit _ => (0x00000000, 0x00000000)

/-- The word of the encoding of a well-formed operation fits its row. -/
def Encodes.Statement (i : Instr) : Prop :=
  ∀ c : Cfg, i.wellFormed c = true → packetWord (encode i) &&& (rowPattern i).1 = (rowPattern i).2

/-- A pin word's bytes are its number. -/
theorem natOfBytes_pinBytes (w : Pin) : natOfBytes (pinBytes w) = w.toNat := by
  have h0 : (w.extractLsb' 0 8).toNat = w.toNat % 256 := by simp
  have h1 : (w.extractLsb' 8 8).toNat = w.toNat / 256 % 256 := by simp [Nat.shiftRight_eq_div_pow]
  have h2 : (w.extractLsb' 16 8).toNat = w.toNat / 65536 % 256 := by simp [Nat.shiftRight_eq_div_pow]
  have h3 : ((0 : BitVec 4) ++ w.extractLsb' 24 4).toNat = w.toNat / 16777216 % 16 := by
    have hz : ((0 : BitVec 4) ++ w.extractLsb' 24 4).toNat = (w.extractLsb' 24 4).toNat := by
      rw [BitVec.toNat_append]; simp
    rw [hz]; simp [Nat.shiftRight_eq_div_pow]
  have hw := w.isLt
  simp only [pinBytes, natOfBytes, h0, h1, h2, h3]
  omega

/-- A bus row's encoding masked field by field. -/
theorem busPacket_pattern (k : BusClass) (a m v : Addr) (d : Byte) (h : a &&& m = v) :
    packetWord (busPacket k a d) &&& (mkPin 0xF 0 m).toNat = (mkPin (kindBits k) 0 v).toNat := by
  show natOfBytes (pinBytes (mkPin (kindBits k) d a)) &&& _ = _
  rw [natOfBytes_pinBytes, ← BitVec.toNat_and, mkPin_and, h]
  congr 2
  · cases k <;> rfl
  · exact BitVec.and_zero

/-- The low bit of an address. -/
theorem addr_and_one (a : Addr) : a &&& 1 = if a.getLsbD 0 then 1 else 0 := by
  apply BitVec.eq_of_getLsbD_eq
  intro i hi
  rw [BitVec.getLsbD_and]
  have hc : i = 0 ∨ (1 : Addr).getLsbD i = false := by revert i; decide
  rcases hc with rfl | hc
  · cases a.getLsbD 0 <;> rfl
  · rw [hc, Bool.and_false]
    split
    · exact hc.symm
    · exact BitVec.getLsbD_zero.symm

/-- The bits that select the joystick port. -/
theorem addr_and_joy (a : Addr) (h0 : a.getLsbD 0 = true) (h : a.extractLsb' 5 3 = 0) : a &&& 0xE1 = 1 := by
  have hb : ∀ k < 3, a.getLsbD (5 + k) = false := by
    intro k hk
    have := congrArg (fun x => BitVec.getLsbD x k) h
    simpa [hk] using this
  have h5 := hb 0 (by omega)
  have h6 := hb 1 (by omega)
  have h7 := hb 2 (by omega)
  apply BitVec.eq_of_getLsbD_eq
  intro i hi
  rw [BitVec.getLsbD_and]
  have hc : i = 0 ∨ i = 5 ∨ i = 6 ∨ i = 7 ∨ (0xE1 : Addr).getLsbD i = false ∧ (1 : Addr).getLsbD i = false := by
    revert i; decide
  rcases hc with rfl | rfl | rfl | rfl | ⟨e1, e2⟩
  · rw [h0]; rfl
  · rw [h5]; rfl
  · rw [h6]; rfl
  · rw [h7]; rfl
  · rw [e1, e2, Bool.and_false]

/-- What a port selection says of the low address bits (30_encoding.md R93). -/
theorem readPort_bits (a : Addr) :
    (readPort a = .irdUla → a &&& 1 = 0) ∧ (readPort a = .irdJoy → a &&& 0xE1 = 1) ∧
      (readPort a = .irdOpen → a &&& 1 = 1) := by
  have h1 := addr_and_one a
  have hj := addr_and_joy a
  unfold readPort
  rw [h1]
  by_cases h0 : a.getLsbD 0 = true
  · by_cases h5 : a.extractLsb' 5 3 = 0
    · rw [if_neg (by rw [h0]; decide), if_pos h5]
      exact ⟨nofun, fun _ => hj h0 h5, nofun⟩
    · rw [if_neg (by rw [h0]; decide), if_neg h5, if_pos h0]
      exact ⟨nofun, nofun, fun _ => rfl⟩
  · rw [if_pos (Bool.eq_false_iff.2 h0), if_neg h0]
    exact ⟨fun _ => rfl, nofun, nofun⟩

theorem writePort_bits (a : Addr) :
    (writePort a = .iwrUla → a &&& 1 = 0) ∧ (writePort a = .iwrOpen → a &&& 1 = 1) := by
  have h1 := addr_and_one a
  unfold writePort
  rw [h1]
  by_cases h0 : a.getLsbD 0 = true
  · rw [if_neg (by rw [h0]; decide), if_pos h0]
    exact ⟨nofun, fun _ => rfl⟩
  · rw [if_pos (Bool.eq_false_iff.2 h0), if_neg h0]
    exact ⟨fun _ => rfl, nofun⟩

/-- A selector byte fits its own row. -/
theorem selector_pattern (sel : Byte) (args : List Byte) : (byteAt (sel :: args) 0).toNat &&& 0xFF = sel.toNat := by
  show sel.toNat &&& (2 ^ 8 - 1) = sel.toNat
  rw [Nat.and_two_pow_sub_one_eq_mod, Nat.mod_eq_of_lt sel.isLt]

theorem Encodes.mrd (a : Addr) (d : Byte) : Encodes.Statement (.mrd a d) :=
  fun _ _ => busPacket_pattern .mrd a 0 0 d BitVec.and_zero

theorem Encodes.mwr (a : Addr) (d : Byte) : Encodes.Statement (.mwr a d) :=
  fun _ _ => busPacket_pattern .mwr a 0 0 d BitVec.and_zero

theorem Encodes.irdUla (a : Addr) (d : Byte) : Encodes.Statement (.irdUla a d) :=
  fun _ h => busPacket_pattern .irdUla a 1 0 d ((readPort_bits a).1 (eq_of_beq h))

theorem Encodes.iwrUla (a : Addr) (d : Byte) : Encodes.Statement (.iwrUla a d) :=
  fun _ h => busPacket_pattern .iwrUla a 1 0 d ((writePort_bits a).1 (eq_of_beq h))

theorem Encodes.irdJoy (a : Addr) (d : Byte) : Encodes.Statement (.irdJoy a d) :=
  fun _ h => busPacket_pattern .irdJoy a 0xE1 1 d ((readPort_bits a).2.1 (eq_of_beq h))

theorem Encodes.irdOpen (a : Addr) (d : Byte) : Encodes.Statement (.irdOpen a d) :=
  fun _ h => busPacket_pattern .irdOpen a 1 1 d ((readPort_bits a).2.2 (eq_of_beq h))

theorem Encodes.iwrOpen (a : Addr) (d : Byte) : Encodes.Statement (.iwrOpen a d) :=
  fun _ h => busPacket_pattern .iwrOpen a 1 1 d ((writePort_bits a).2 (eq_of_beq h))

theorem Encodes.idle (a : Addr) (d : Byte) : Encodes.Statement (.idle a d) :=
  fun _ _ => busPacket_pattern .idle a 0 0 d BitVec.and_zero

theorem Encodes.noaccM (a : Addr) (d : Byte) : Encodes.Statement (.noaccM a d) :=
  fun _ _ => busPacket_pattern .noaccM a 0 0 d BitVec.and_zero

theorem Encodes.noaccIo (a : Addr) (d : Byte) : Encodes.Statement (.noaccIo a d) :=
  fun _ _ => busPacket_pattern .noaccIo a 0 0 d BitVec.and_zero

theorem Encodes.init (rom : List Byte) (cfg : Cfg) : Encodes.Statement (.init rom cfg) :=
  fun _ _ => selector_pattern 0x00 rom

theorem Encodes.reset : Encodes.Statement .reset :=
  fun _ _ => selector_pattern 0x01 []

theorem Encodes.execUs (us : Nat) : Encodes.Statement (.execUs us) :=
  fun _ _ => selector_pattern 0x02 (bytesOfNat us)

theorem Encodes.keydn (cc : Byte) : Encodes.Statement (.keydn cc) :=
  fun _ _ => selector_pattern 0x03 [cc]

theorem Encodes.keyup (cc : Byte) : Encodes.Statement (.keyup cc) :=
  fun _ _ => selector_pattern 0x04 [cc]

theorem Encodes.jmode (m : JoyMode) : Encodes.Statement (.jmode m) :=
  fun _ _ => selector_pattern 0x05 [modeNumber m]

theorem Encodes.joy (mm : BitVec 5) : Encodes.Statement (.joy mm) :=
  fun _ _ => selector_pattern 0x06 [(0 : BitVec 3) ++ mm]

theorem Encodes.qload (b : List Byte) : Encodes.Statement (.qload b) :=
  fun _ _ => selector_pattern 0x07 b

theorem Encodes.save : Encodes.Statement .save :=
  fun _ _ => selector_pattern 0x08 []

theorem Encodes.restore (k : Nat) : Encodes.Statement (.restore k) :=
  fun _ _ => selector_pattern 0x09 (bytesOfNat k)

theorem Encodes.dinfo : Encodes.Statement .dinfo :=
  fun _ _ => selector_pattern 0x0A []

theorem Encodes.tick (w : Pin) : Encodes.Statement (.tick w) :=
  fun _ _ => selector_pattern 0x10 (pinBytes w)

theorem Encodes.lineOutside (n : Nat) : Encodes.Statement (.lineOutside n) :=
  fun _ _ => selector_pattern 0x11 (bytesOfNat n)

theorem Encodes.lineBorder (n : Nat) : Encodes.Statement (.lineBorder n) :=
  fun _ _ => selector_pattern 0x11 (bytesOfNat n)

theorem Encodes.lineBitmap (n : Nat) : Encodes.Statement (.lineBitmap n) :=
  fun _ _ => selector_pattern 0x11 (bytesOfNat n)

theorem Encodes.qloadExt (b : List Byte) : Encodes.Statement (.qloadExt b) := by
  intro _ h
  have h : isExtended b = true := h
  simp only [isExtended, Bool.and_eq_true, decide_eq_true_eq] at h
  show u16le b 6 &&& 0xFFFF = 0
  rw [h.2, Nat.zero_and]

theorem Encodes.qloadLegacy (b : List Byte) : Encodes.Statement (.qloadLegacy b) := fun _ _ => Nat.and_zero _

theorem Encodes.rleEnd : Encodes.Statement .rleEnd := fun _ _ => rfl

theorem Encodes.rleRun (cc vv : Byte) : Encodes.Statement (.rleRun cc vv) := by
  intro _ _
  show (237 * 16777216 + 237 * 65536 + cc.toNat * 256 + vv.toNat) &&& 0xFFFF0000 = 0xEDED0000
  have h1 := cc.isLt
  have h2 := vv.isLt
  rw [show 237 * 16777216 + 237 * 65536 + cc.toNat * 256 + vv.toNat = 2 ^ 16 * 0xEDED + (cc.toNat * 256 + vv.toNat) from by
    omega, Nat.two_pow_add_eq_or_of_lt (by omega), Nat.and_or_distrib_right]
  have h3 : (cc.toNat * 256 + vv.toNat) &&& 0xFFFF0000 = 0 := by
    have : (0xFFFF0000 : Nat) = 2 ^ 16 * 0xFFFF := by norm_num
    apply Nat.eq_of_testBit_eq
    intro i
    rw [Nat.testBit_and, this, Nat.testBit_two_pow_mul]
    by_cases hi : 16 ≤ i
    · rw [Nat.testBit_lt_two_pow (lt_of_lt_of_le (by omega : _ < 2 ^ 16) (Nat.pow_le_pow_right (by norm_num) hi))]
      simp
    · simp [hi]
  rw [h3]; rfl

theorem Encodes.rleBadRun (cc : Option Byte) : Encodes.Statement (.rleBadRun cc) := by
  cases cc with
  | none => exact fun _ _ => rfl
  | some cc => exact Encodes.rleRun cc 0

theorem Encodes.rleLitEd : Encodes.Statement .rleLitEd := fun _ _ => rfl

theorem Encodes.rleLit (b : Byte) : Encodes.Statement (.rleLit b) := fun _ _ => Nat.and_zero _

end Sys2Proof.Laws
end

