-- ==== Sys2Proof/Laws/Run.lean ====
section
/-! SUPPORT. Several steps of the machine behind the host's interface, and what one step on a bus item or a token is. -/

namespace Sys2Proof.Machine

theorem host_run_succ (M : Host.Core) (k : Nat) (s : M.State) :
    M.run (k + 1) s =
      match M.step s with
      | .next s' => M.run k s'
      | .fault r => .fault r
      | .refused r => .refused r := rfl

/-- `k + 1` steps are one step, then `k`. -/
theorem core_run_succ (k : Nat) (s : State) :
    Host.Core.run Sys2Proof.core (k + 1) s = andThen (step s) (Host.Core.run Sys2Proof.core k) := by
  refine (host_run_succ Sys2Proof.core k s).trans ?_
  have e : Sys2Proof.core.step s = step s := rfl
  rw [e]
  generalize step s = o
  cases o <;> rfl

/-- A well-formed bus item at the head of the inbox is one tick. -/
theorem step_busItem (s : State) (w : Pin) (rest : List Packet) (hw : (classify w).isSome = true)
    (hi : s.inbox = { fmt := .bus28, bytes := pinBytes w, cfg := none } :: rest) :
    step s = tickWith w (s.setInbox rest) := by
  obtain ⟨k, hk⟩ := Option.isSome_iff_exists.1 hw
  have hd : decodePin w = .ok (busInstr k (pinAddr w) (pinData w)) := by simp [decodePin, hk]
  have hpin : packetPin { fmt := .bus28, bytes := pinBytes w, cfg := none } = w := by
    have := pinOfBytes_pinBytes w
    simp_all [packetPin, pinBytes]
  simp only [step, fetch, hi, decode, decodeBus_pinBytes, hd, aroundItem, takePacket, List.tail_cons, hpin, tickWith,
    dispatch_eq_exec _ hd]

/-- With nothing called, a scan that is not over runs its next token. -/
theorem step_token (s : State) (t : Token) (hi : s.inbox = []) (hs : s.scan.stopped = false)
    (ht : tokenAt s.scan.term s.scan.rest = some t) : step s = exec (tokenInstr t) s := by
  have hr : s.scan.rest ≠ [] := by rintro h; simp [tokenAt, h] at ht
  have : takePacket s = s := by cases s; simp_all [takePacket, State.setInbox]
  simp [step, fetch, hi, hs, hr, decode, scanPacket, decodeToken, ht, aroundItem, this]

/-- With nothing called and no scan running, a step does nothing (60_exceptions.md R288). -/
theorem step_idle (s : State) (hi : s.inbox = []) (h : s.scan.stopped = true ∨ s.scan.rest = []) : step s = .next s := by
  have : (s.scan.stopped || s.scan.rest.isEmpty) = true := by rcases h with h | h <;> simp [h]
  simp [step, fetch, hi, this]

end Sys2Proof.Machine
end

