-- ==== Sys2Proof/Laws/Video.lean ====
section
/-! SUPPORT. What a line decode writes, byte by byte (41_video_decoder.md R162, R163). -/

namespace Sys2Proof.Machine

/-- A concatenation of `n` pieces of four bytes, read at byte `j` of piece `x`. -/
theorem flatMap_four_getD (f : Nat → List Byte) (hf : ∀ x, (f x).length = 4) (n x j : Nat) (hx : x < n) (hj : j < 4) :
    ((List.range n).flatMap f).getD (4 * x + j) 0 = (f x).getD j 0 := by
  have hlen : ∀ k, ((List.range k).flatMap f).length = 4 * k := by
    intro k
    simp [List.length_flatMap, hf, Nat.mul_comm]
  induction n with
  | zero => omega
  | succ n ih =>
    rw [List.range_succ, List.flatMap_append]
    by_cases h : x < n
    · rw [List.getD_append _ _ _ _ (by rw [hlen]; omega)]
      exact ih h
    · have : x = n := by omega
      subst this
      rw [List.getD_append_right _ _ _ _ (by rw [hlen]; omega), hlen]
      simp

theorem cellBytes_length (c : Cfg) (m : MachineState) (yy x : Nat) : (cellBytes c m yy x).length = 4 := rfl

theorem cells_length (c : Cfg) (m : MachineState) (yy : Nat) :
    ((List.range 32).flatMap (cellBytes c m yy)).length = 128 := by
  simp [List.length_flatMap, cellBytes_length]

/-- A byte of the left border of a bitmap row. -/
theorem bitmapRowBytes_left (c : Cfg) (m : MachineState) (yy k : Nat) (hk : k < c.leftBorderPx / 2) :
    (bitmapRowBytes c m yy).getD k 0 = borderByte m.borderColor := by
  unfold bitmapRowBytes borderBytes
  rw [List.getD_append _ _ _ _ (by simp; omega), List.getD_append _ _ _ _ (by simpa using hk)]
  simp [hk]

/-- Byte `j` of cell `x` of a bitmap row. -/
theorem bitmapRowBytes_cell (c : Cfg) (m : MachineState) (yy x j : Nat) (hx : x < 32) (hj : j < 4) :
    (bitmapRowBytes c m yy).getD (c.leftBorderPx / 2 + 4 * x + j) 0 = (cellBytes c m yy x).getD j 0 := by
  unfold bitmapRowBytes borderBytes
  rw [List.getD_append _ _ _ _ (by rw [List.length_append, cells_length, List.length_replicate]; omega),
    List.getD_append_right _ _ _ _ (by rw [List.length_replicate]; omega), List.length_replicate]
  have : c.leftBorderPx / 2 + 4 * x + j - c.leftBorderPx / 2 = 4 * x + j := by omega
  rw [this]
  exact flatMap_four_getD _ (cellBytes_length c m yy) 32 x j hx hj

/-- A byte of the right border of a bitmap row. -/
theorem bitmapRowBytes_right (c : Cfg) (m : MachineState) (yy k : Nat) (hk : k < c.rightBorderPx / 2) :
    (bitmapRowBytes c m yy).getD (c.leftBorderPx / 2 + 128 + k) 0 = borderByte m.borderColor := by
  unfold bitmapRowBytes borderBytes
  rw [List.getD_append_right _ _ _ _ (by rw [List.length_append, cells_length, List.length_replicate]; omega),
    List.length_append, cells_length, List.length_replicate]
  have : c.leftBorderPx / 2 + 128 + k - (c.leftBorderPx / 2 + 128) = k := by omega
  simp [this, hk]

/-- The bytes of a bitmap row depend on the border colour, the blink phase and the 64 fetched bytes alone (R169). -/
theorem bitmapRowBytes_congr (c : Cfg) (m m' : MachineState) (yy : Nat) (hb : m'.borderColor = m.borderColor)
    (hp : blinkPhase c m' = blinkPhase c m) (hv : ∀ x < 32, vidRead c m' (voff yy x) = vidRead c m (voff yy x))
    (ha : ∀ x < 32, vidRead c m' (aoff yy x) = vidRead c m (aoff yy x)) :
    bitmapRowBytes c m' yy = bitmapRowBytes c m yy := by
  unfold bitmapRowBytes borderBytes
  rw [hb]
  congr 2
  simp only [List.flatMap]
  congr 1
  refine List.map_congr_left ?_
  intro x hx
  have hx := List.mem_range.1 hx
  simp only [cellBytes, hv x hx, ha x hx, hp]

/-- The framebuffer after a border line, byte by byte. -/
theorem drawBorder_read (c : Cfg) (n : Nat) (m : MachineState) (k : Nat) :
    (drawBorder c n m).fb.read k =
      if fbRow c n * fbStride c ≤ k ∧ k < fbRow c n * fbStride c + fbStride c then borderByte m.borderColor
      else m.fb.read k := by
  simp only [drawBorder, writeRow, MachineState.setFb_fb, read_writeBytes, borderRow, List.length_replicate]
  split
  · rw [List.getD_eq_getElem?_getD, List.getElem?_replicate, if_pos (by omega)]; rfl
  · rfl

/-- The framebuffer after a bitmap line, byte by byte. -/
theorem drawBitmap_read (c : Cfg) (n : Nat) (m : MachineState) (k : Nat) (hl : c.leftBorderPx % 2 = 0)
    (hr : c.rightBorderPx % 2 = 0) :
    (drawBitmap c n m).fb.read k =
      if fbRow c n * fbStride c ≤ k ∧ k < fbRow c n * fbStride c + fbStride c then
        (bitmapRowBytes c m (bitmapRow c n)).getD (k - fbRow c n * fbStride c) 0
      else m.fb.read k := by
  simp only [drawBitmap, writeRow, MachineState.setFb_fb, read_writeBytes, bitmapRowBytes_length c m _ hl hr]
  rfl

/-- LINE in whichever class the line has is the line decode (R160). -/
theorem exec_decodeLine (n : Nat) (s : State) (hs : s.created = true) :
    exec (decodeLine s.cfg n) s = .next (s.setMachine (drawLine s.cfg n s.m)) := by
  unfold decodeLine drawLine
  cases h : lineClass s.cfg n <;> simp only [exec, execLineOutside, execLineBorder, execLineBitmap, h] <;>
    rw [live_created _ hs] <;> rfl

/-- The framebuffer after any line, byte by byte. -/
theorem drawLine_read (c : Cfg) (n : Nat) (m : MachineState) (hc : cfgOk c = true) (k : Nat) :
    (drawLine c n m).fb.read k =
      if lineClass c n ≠ .outside ∧ fbRow c n * fbStride c ≤ k ∧ k < fbRow c n * fbStride c + fbStride c then
        if lineClass c n = .border then borderByte m.borderColor
        else (bitmapRowBytes c m (bitmapRow c n)).getD (k - fbRow c n * fbStride c) 0
      else m.fb.read k := by
  obtain ⟨-, -, -, hl, hr, -⟩ := cfgOk_parts hc
  unfold drawLine
  cases h : lineClass c n
  · simp
  · simp [drawBorder_read]
  · simp [drawBitmap_read _ _ _ _ hl hr]

end Sys2Proof.Machine
end

