-- ==== Sys2Proof/Tests/Slice0.lean ====
section
/-! SUPPORT. Tests of the model: ill-formed terms the checks refuse, words written out from the spec's encodings, one or two
single steps per operation with the values of 95_test_vectors.md (named in each comment), and for every obligation with
hypotheses a state and operands that meet them. -/

namespace Sys2Proof.Tests

open Sys2Proof.Machine

/-- The outcome is a next state with the property. -/
def ok (o : Out) (p : State → Bool) : Bool :=
  match o with
  | .next t => p t
  | .fault _ => false
  | .refused _ => false

/-- The outcome is this refusal. -/
def refusedBy (o : Out) (r : Refusal) : Bool :=
  match o with
  | .next _ => false
  | .fault _ => false
  | .refused q => decide (q = r)

/-- The start state of 95_test_vectors.md: ROM `F3 AF` and zeros. -/
def base : State := { State.reset with m := { State.reset.m with rom := [(0, 0xF3), (1, 0xAF)] } }

/-- The start state with keys held. -/
def held (keys : List Byte) : State := base.setMachine (base.m.setKbdDown keys)

/-- The start state in a joystick mode. -/
def inMode (mode : JoyMode) : State := base.setMachine (base.m.setJoyMode mode)

/-- A failed quickload. -/
def loadFails (b : List Byte) (cause : LoadCause) : Bool :=
  ok (exec (.qload b) base) fun t => decide (t = base.setResult (.failed (.load cause)))

/-- `n` zero bytes. -/
def zeros (n : Nat) : List Byte := List.replicate n 0

/-- `HDR_A` of 95_test_vectors.md section 2.10. -/
def hdrA : List Byte :=
  [0x12, 0x34, 0x56, 0x78, 0x9A, 0xBC, 0x00, 0x80, 0xFE, 0xFF, 0x3F, 0x81, 0x2B, 0xDE, 0xF0] ++
  [0x01, 0x02, 0x03, 0x04, 0x05, 0x06, 0x07, 0x08, 0x3A, 0x5C, 0xCD, 0xAB, 0x01, 0x00, 0x41]

/-- The block of V71. -/
def block71 : List Byte := [0xAA, 0xBB, 0xED, 0xED, 0x04, 0xCC, 0xED, 0x01, 0x00, 0xED, 0xED, 0x00, 0xFF, 0xFF]

/-- `HDR_0 ++ EXT3(00)` of 95_test_vectors.md section 2.10. -/
def ext0 : List Byte := zeros 30 ++ [0x03, 0x00, 0x00, 0x00, 0x00]

/-- A legacy header with PC = 1 and the given `FLAGS0`. -/
def legacy (flags : Byte) : List Byte := zeros 6 ++ [0x01, 0x00] ++ zeros 4 ++ [flags] ++ zeros 17

/-- The configuration of 95_test_vectors.md P3. -/
def smallCfg : Cfg :=
  { Cfg.default with
    scanlinePeriod := 4, totalScanlines := 3, intHoldTicks := 2, firstFbLine := 0, topBorderLines := 1, bottomBorderLines := 0 }

/-- The start state of P3. -/
def small : State := { base with cfg := smallCfg, m := { base.m with scanlineCounter := 4 } }

/-! ## Well-formedness: each check refuses an ill-formed term (30_encoding.md R93, R94, R102, R108, R114; 00_scope.md R9) -/

theorem test_wellFormed_irdUla : (Instr.irdUla 0x00FF 0).wellFormed Cfg.default = false := by decide
theorem test_wellFormed_iwrUla : (Instr.iwrUla 0x001F 0).wellFormed Cfg.default = false := by decide
theorem test_wellFormed_irdJoy : (Instr.irdJoy 0x003F 0).wellFormed Cfg.default = false := by decide
theorem test_wellFormed_irdJoy_even : (Instr.irdJoy 0x0000 0).wellFormed Cfg.default = false := by decide
theorem test_wellFormed_irdOpen : (Instr.irdOpen 0x001F 0).wellFormed Cfg.default = false := by decide
theorem test_wellFormed_iwrOpen : (Instr.iwrOpen 0x00FE 0).wellFormed Cfg.default = false := by decide
theorem test_wellFormed_tick : (Instr.tick 0x7000000).wellFormed Cfg.default = false := by decide
theorem test_wellFormed_lineOutside : (Instr.lineOutside 32).wellFormed Cfg.default = false := by decide
theorem test_wellFormed_lineBorder : (Instr.lineBorder 64).wellFormed Cfg.default = false := by decide
theorem test_wellFormed_lineBitmap : (Instr.lineBitmap 256).wellFormed Cfg.default = false := by decide
theorem test_wellFormed_qloadExt : (Instr.qloadExt hdrA).wellFormed Cfg.default = false := by decide
theorem test_wellFormed_qloadExt_short : (Instr.qloadExt (zeros 29)).wellFormed Cfg.default = false := by decide
theorem test_wellFormed_qloadLegacy : (Instr.qloadLegacy ext0).wellFormed Cfg.default = false := by decide
theorem test_wellFormed_rleLit : (Instr.rleLit 0xED).wellFormed Cfg.default = false := by decide
theorem test_wellFormed_init : (Instr.init [] { Cfg.default with clockHz := 0 }).wellFormed Cfg.default = false := by decide

/-- Each constraint of 00_scope.md R9 refuses a configuration that breaks it alone. -/
theorem test_cfgOk_each :
    cfgOk Cfg.default = true ∧
    cfgOk { Cfg.default with scanlinePeriod := 0 } = false ∧
    cfgOk { Cfg.default with totalScanlines := 0 } = false ∧
    cfgOk { Cfg.default with intHoldTicks := 0 } = false ∧
    cfgOk { Cfg.default with leftBorderPx := 31 } = false ∧
    cfgOk { Cfg.default with rightBorderPx := 33 } = false ∧
    cfgOk { Cfg.default with blinkBit := 32 } = false ∧
    cfgOk { Cfg.default with romBanks := 0 } = false ∧
    cfgOk { Cfg.default with videoBank := 3 } = false ∧
    cfgOk { Cfg.default with palette := [] } = false := by decide

/-- The well-formed neighbours at the same boundaries. -/
theorem test_wellFormed_accepts :
    (Instr.irdUla 0x0000 0).wellFormed Cfg.default = true ∧ (Instr.irdJoy 0xFF1F 0).wellFormed Cfg.default = true ∧
    (Instr.irdOpen 0x003F 0).wellFormed Cfg.default = true ∧ (Instr.lineOutside 31).wellFormed Cfg.default = true ∧
    (Instr.lineBorder 32).wellFormed Cfg.default = true ∧ (Instr.lineBitmap 64).wellFormed Cfg.default = true ∧
    (Instr.lineBitmap 255).wellFormed Cfg.default = true ∧ (Instr.lineBorder 287).wellFormed Cfg.default = true ∧
    (Instr.lineOutside 288).wellFormed Cfg.default = true := by decide

/-! ## Decoding: a word per row, written out from 30_encoding.md R91-R94, R107, R108, R114 -/

/-- Kind `5`, data `F3`, address `0000` (V1). -/
theorem test_decode_mrd : decodeTableWord 28 0x5F30000 = some (.mrd 0x0000 0xF3) := by decide
/-- Kind `9`, data `44`, address `BFFF` (V1). -/
theorem test_decode_mwr : decodeTableWord 28 0x944BFFF = some (.mwr 0xBFFF 0x44) := by decide
/-- Kind `6`, A0 = 0 (V2). -/
theorem test_decode_irdUla : decodeTableWord 28 0x6BDFEFE = some (.irdUla 0xFEFE 0xBD) := by decide
/-- A0 = 0 wins over A[7:5] = 000 (V19, decision D6). -/
theorem test_decode_irdUla_first : decodeTableWord 28 0x6BF0000 = some (.irdUla 0x0000 0xBF) := by decide
/-- Kind `A`, A0 = 0 (V3). -/
theorem test_decode_iwrUla : decodeTableWord 28 0xA0500FE = some (.iwrUla 0x00FE 0x05) := by decide
/-- Kind `6`, A0 = 1, A[7:5] = 000, the upper byte not decoded (V19). -/
theorem test_decode_irdJoy : decodeTableWord 28 0x618FF1F = some (.irdJoy 0xFF1F 0x18) := by decide
/-- Kind `6`, A0 = 1, A[7:5] = 001 (V19). -/
theorem test_decode_irdOpen : decodeTableWord 28 0x600003F = some (.irdOpen 0x003F 0x00) := by decide
/-- Kind `A`, A0 = 1 (V19). -/
theorem test_decode_iwrOpen : decodeTableWord 28 0xA55001F = some (.iwrOpen 0x001F 0x55) := by decide
theorem test_decode_idle : decodeTableWord 28 0x0123456 = some (.idle 0x3456 0x12) := by decide
theorem test_decode_noaccM : decodeTableWord 28 0x1000000 = some (.noaccM 0x0000 0x00) := by decide
theorem test_decode_noaccIo : decodeTableWord 28 0x2000000 = some (.noaccIo 0x0000 0x00) := by decide
theorem test_decode_malformed :
    decodePin 0xD000000 = .error .malformedTransaction ∧ decodePin 0x7000000 = .error .malformedTransaction ∧
    decodePin 0x3000000 = .error .malformedTransaction ∧ decodePin 0x4000000 = .error .malformedTransaction ∧
    decodePin 0x8000000 = .error .malformedTransaction := by decide

theorem test_decode_init : decode Cfg.default ⟨.host8, [0x00, 0xF3], some smallCfg⟩ = .ok (.init [0xF3] smallCfg) := by decide
theorem test_decode_reset : decode Cfg.default ⟨.host8, [0x01], none⟩ = .ok .reset := by decide
theorem test_decode_exec : decode Cfg.default ⟨.host8, [0x02, 0x00, 0x4E], none⟩ = .ok (.execUs 19968) := by decide
theorem test_decode_keydn : decode Cfg.default ⟨.host8, [0x03, 0x7A], none⟩ = .ok (.keydn 0x7A) := by decide
theorem test_decode_keyup : decode Cfg.default ⟨.host8, [0x04, 0x0B], none⟩ = .ok (.keyup 0x0B) := by decide
theorem test_decode_jmode : decode Cfg.default ⟨.host8, [0x05, 0x02], none⟩ = .ok (.jmode .sinclair1) := by decide
theorem test_decode_joy : decode Cfg.default ⟨.host8, [0x06, 0x10], none⟩ = .ok (.joy 0x10) := by decide
theorem test_decode_qload : decode Cfg.default ⟨.host8, [0x07, 0x01], none⟩ = .ok (.qload [0x01]) := by decide
theorem test_decode_save : decode Cfg.default ⟨.host8, [0x08], none⟩ = .ok .save := by decide
theorem test_decode_restore : decode Cfg.default ⟨.host8, [0x09, 0x02], none⟩ = .ok (.restore 2) := by decide
theorem test_decode_dinfo : decode Cfg.default ⟨.host8, [0x0A], none⟩ = .ok .dinfo := by decide
theorem test_decode_tick :
    decode Cfg.default ⟨.host8, [0x10, 0xFE, 0x00, 0x05, 0x0A], none⟩ = .ok (.tick 0xA0500FE) := by decide
/-- V41: 31 outside, 32 border, 64 bitmap. -/
theorem test_decode_line :
    decode Cfg.default ⟨.host8, [0x11, 31], none⟩ = .ok (.lineOutside 31) ∧
    decode Cfg.default ⟨.host8, [0x11, 32], none⟩ = .ok (.lineBorder 32) ∧
    decode Cfg.default ⟨.host8, [0x11, 64], none⟩ = .ok (.lineBitmap 64) := by decide
theorem test_decode_unknown_selector :
    decode Cfg.default ⟨.host8, [0x0B], none⟩ = .error .unknownSelector ∧
    decode Cfg.default ⟨.host8, [0x12], none⟩ = .error .unknownSelector := by decide

theorem test_decode_qloadExt : decode Cfg.default ⟨.z80hdr, ext0, none⟩ = .ok (.qloadExt ext0) := by decide
theorem test_decode_qloadLegacy : decode Cfg.default ⟨.z80hdr, hdrA, none⟩ = .ok (.qloadLegacy hdrA) := by decide
theorem test_decode_rleEnd : decodeTableWord 32 0x00EDED00 = some .rleEnd := by decide
/-- With the terminator not enabled the same bytes start with a literal (R115, V65). -/
theorem test_decode_rleEnd_disabled :
    decode Cfg.default ⟨.rle32 false, [0x00, 0xED, 0xED, 0x00], none⟩ = .ok (.rleLit 0x00) := by decide
theorem test_decode_rleRun : decodeTableWord 32 0xEDED057A = some (.rleRun 0x05 0x7A) := by decide
theorem test_decode_rleBadRun : decode Cfg.default ⟨.rle32 true, [0xED, 0xED, 0x03], none⟩ = .ok (.rleBadRun (some 0x03)) := by
  decide
theorem test_decode_rleLitEd : decodeTableWord 32 0xED010200 = some .rleLitEd := by decide
theorem test_decode_rleLit : decodeTableWord 32 0x41000000 = some (.rleLit 0x41) := by decide

/-- The words the host probes: every row decodes and runs as the first operation after reset. -/
def rowWords : List (Nat × Nat) :=
  [(28, 0x5000000), (28, 0x9000000), (28, 0x6000000), (28, 0xA000000), (28, 0x6000001), (28, 0x6000021), (28, 0xA000001)] ++
  [(28, 0x0000000), (28, 0x1000000), (28, 0x2000000), (8, 0x00), (8, 0x01), (8, 0x02), (8, 0x03), (8, 0x04), (8, 0x05)] ++
  [(8, 0x06), (8, 0x07), (8, 0x08), (8, 0x09), (8, 0x0A), (8, 0x10), (8, 0x11), (16, 0x0000), (16, 0x0001)] ++
  [(32, 0x00EDED00), (32, 0xEDED0000), (24, 0xEDED00), (32, 0xED000000), (32, 0x41000000)]

theorem test_rowWords_decode : rowWords.all (fun w => (decodeTableWord w.1 w.2).isSome) = true := by decide
theorem test_rowWords_run : rowWords.all (fun w => ok (step (State.reset.withFetchWord w.1 w.2)) fun _ => true) = true := by
  decide

/-! ## Bus transactions -/

/-- V12. -/
theorem test_mrd_rom : ok (exec (.mrd 0x0001 0) base) (fun t => t.busData = some 0xAF) = true := by decide
/-- V1: C000 is the first byte of RAM bank 2. -/
theorem test_mrd_bank2 :
    ok (exec (.mrd 0xC000 0) (base.setMachine (base.m.setRam [(32768, 0x55)]))) (fun t => t.busData = some 0x55) = true := by
  decide
/-- V1: BFFF is the last byte of RAM bank 1. -/
theorem test_mwr_bank1 : ok (exec (.mwr 0xBFFF 0x44) base) (fun t => t.m.ram = [(32767, 0x44)]) = true := by decide
/-- V13: the last ROM byte is not writable. -/
theorem test_mwr_rom : ok (exec (.mwr 0x3FFF 0xAA) base) (fun t => t = base) = true := by decide
/-- V2: two half-rows selected, Z and A held. -/
theorem test_irdUla_two_rows : ok (exec (.irdUla 0xFCFE 0) (held [0x61, 0x7A])) (fun t => t.busData = some 0xBC) = true := by
  decide
/-- V18: MIC written 1 sets bit 6. -/
theorem test_irdUla_tape :
    ok (exec (.irdUla 0xFFFE 0) (base.setMachine (base.m.setLastUlaOut 0x08))) (fun t => t.busData = some 0xFF) = true := by
  decide
/-- V3: `IWR 00FE,F8`. -/
theorem test_iwrUla :
    ok (exec (.iwrUla 0x00FE 0xF8) (base.setMachine (base.m.setBorderColor 3)))
      (fun t => t.m.lastUlaOut = 0xF8 && t.m.borderColor = 0 && t.trace = [⟨true, 0⟩]) = true := by decide
/-- V3: `IWR 00FE,E7`, no tick counted yet. -/
theorem test_iwrUla_border : ok (exec (.iwrUla 0x00FE 0xE7) base) (fun t => t.m.borderColor = 7 && t.trace = [⟨false, 0⟩]) = true := by
  decide
/-- V19: masks `08` and `10`. -/
theorem test_irdJoy :
    ok (exec (.irdJoy 0x001F 0) (base.setMachine ((base.m.setKbdJoymask 0x08).setJoyJoymask 0x10)))
      (fun t => t.busData = some 0x18) = true := by decide
/-- R146: the port is not gated by the mode; an explicit mask set before the mode was chosen still shows in Sinclair1. -/
theorem test_irdJoy_sinclair :
    ok (exec (.irdJoy 0x001F 0) ((inMode .sinclair1).setMachine ((inMode .sinclair1).m.setJoyJoymask 0x05)))
      (fun t => t.m.joyMode = .sinclair1 && t.busData = some 0x05) = true := by decide
/-- P4: an open read changes no state of `S`. -/
theorem test_irdOpen : ok (exec (.irdOpen 0x003F 0) base) (fun t => t.m = base.m && t.draws = 1) = true := by decide
/-- V19: `IWR 001F,55`, no event. -/
theorem test_iwrOpen : ok (exec (.iwrOpen 0x001F 0x55) base) (fun t => t = base) = true := by decide
theorem test_idle : ok (exec (.idle 0xFFFF 0xFF) base) (fun t => t = base) = true := by decide
theorem test_noaccM : ok (exec (.noaccM 0x4000 0xFF) base) (fun t => t.m = base.m && t.trace = []) = true := by decide
theorem test_noaccIo : ok (exec (.noaccIo 0x0000 0xFF) base) (fun t => t.m = base.m && t.trace = []) = true := by decide

/-! ## Lines -/

/-- The memory of V40. -/
def screen : State :=
  base.setMachine
    (((base.m.setRam [(0, 0xA5), (0x1F, 0xFF), (0x1800, 0xC7), (0x181F, 0x0E)]).setBorderColor 2).setLastUlaOut 2)

/-- V41. -/
theorem test_lineOutside : ok (exec (.lineOutside 31) screen) (fun t => t = screen) = true := by decide
/-- V41: LINE 288 is outside again. -/
theorem test_lineOutside_below : ok (exec (.lineOutside 288) screen) (fun t => t = screen) = true := by decide
/-- V42: framebuffer row 0 and no more. -/
theorem test_lineBorder :
    ok (exec (.lineBorder 32) (base.setMachine (base.m.setBorderColor 5)))
      (fun t => t.m.fb.read 0 = 0x55 && t.m.fb.read 159 = 0x55 && t.m.fb.read 160 = 0) = true := by decide
/-- V40: left border, cell 0, cell 1, cell 31, right border, and the byte after the row. -/
theorem test_lineBitmap :
    ok (exec (.lineBitmap 64) screen) (fun t =>
      [5135, 5136, 5137, 5138, 5139, 5140, 5259, 5260, 5263, 5264, 5279, 5280].map t.m.fb.read =
        [0x22, 0xF8, 0xF8, 0x8F, 0x8F, 0x00, 0x00, 0x66, 0x66, 0x22, 0x22, 0x00]) = true := by decide
/-- V40 with the blink counter at 8: cell 0 is swapped, cell 31 is not. -/
theorem test_lineBitmap_blink :
    ok (exec (.lineBitmap 64) (screen.setMachine (screen.m.setBlinkCounter 8))) (fun t =>
      [5136, 5137, 5138, 5139, 5260].map t.m.fb.read = [0x8F, 0x8F, 0xF8, 0xF8, 0x66]) = true := by decide
/-- V22, V24, V25, V29. -/
theorem test_video_offsets :
    voff 7 31 = 0x071F ∧ voff 9 0 = 0x0120 ∧ voff 63 31 = 0x07FF ∧ voff 191 31 = 0x17FF ∧ aoff 191 31 = 0x1AFF ∧
      aoff 8 0 = 0x1820 := by decide
/-- V30. -/
theorem test_colours :
    colours 0x38 false = (0, 7) ∧ colours 0xC7 false = (15, 8) ∧ colours 0xC7 true = (8, 15) ∧ colours 0xAA true = (5, 2) ∧
      colours 0x40 false = (8, 8) := by decide

/-! ## The sequencer -/

/-- P3, tick 12: the frame wrap raises the interrupt. -/
theorem test_tick_wrap :
    ok (exec (.tick 0x0000000) (small.setMachine ((small.m.setScanlineCounter 1).setLine 2))) (fun t =>
      t.m.scanlineCounter = 4 && t.m.line = 0 && t.m.blinkCounter = 1 && t.m.intLine && t.m.intHold = 2) = true := by
  decide
/-- P3, tick 14: the hold reaches 0 and the read still gives the ROM byte. -/
theorem test_tick_hold :
    ok (exec (.tick 0x5F30000)
        (small.setMachine (((small.m.setScanlineCounter 3).setIntLine true).setIntHold 1))) (fun t =>
      t.m.scanlineCounter = 2 && !t.m.intLine && t.m.intHold = 0 && t.busData = some 0xF3 && t.ticks = 1) = true := by
  decide
/-- U17: after a cycle that reads nothing the byte of an earlier read is not handed on. -/
theorem test_tick_noRead :
    ok (exec (.tick 0x0000000) (base.setBusData (some 0xAF))) (fun t => t.busData = none && t.trace = []) = true := by decide
/-- V51: 2 microseconds are 7 ticks. -/
theorem test_exec_count :
    ok (exec (.execUs 2) (base.setEngineIn (List.replicate 7 0)))
      (fun t => t.result = .ticks 7 && t.ticks = 7 && t.m.scanlineCounter = 217) = true := by decide
/-- V51: `EXEC 0` performs no tick. -/
theorem test_exec_zero : ok (exec (.execUs 0) base) (fun t => t = base.setResult (.ticks 0)) = true := by decide
/-- V51. -/
theorem test_usToTicks :
    usToTicks Cfg.default 1 = 3 ∧ usToTicks Cfg.default 19968 = 69888 ∧ usToTicks Cfg.default 1000000 = 3500000 := by decide

/-! ## Keys and joysticks -/

/-- V60: Kempston, `KEYDN 0B`. -/
theorem test_keydn_kempston : ok (exec (.keydn 0x0B) (inMode .kempston)) (fun t => t.m.kbdJoymask = 8 && t.m.kbdDown = []) = true := by
  decide
/-- V60: Sinclair2, `KEYDN 20` presses "0". -/
theorem test_keydn_sinclair2 : ok (exec (.keydn 0x20) (inMode .sinclair2)) (fun t => t.m.kbdDown = [0x30]) = true := by decide
/-- V63: a release in mode None does not reach the mask. -/
theorem test_keyup_none :
    ok (exec (.keyup 0x0B) (base.setMachine (base.m.setKbdJoymask 8))) (fun t => t.m.kbdJoymask = 8) = true := by decide
/-- P4: Sinclair1, `KEYUP 0B` releases "4". -/
theorem test_keyup_sinclair1 :
    ok (exec (.keyup 0x0B) ((inMode .sinclair1).setMachine ((inMode .sinclair1).m.setKbdDown [0x34, 0x7A])))
      (fun t => t.m.kbdDown = [0x7A]) = true := by decide
/-- P4: the mode changes, masks and keys stay. -/
theorem test_jmode :
    ok (exec (.jmode .sinclair1) (base.setMachine ((base.m.setKbdJoymask 8).setKbdDown [0x7A])))
      (fun t => t.m.joyMode = .sinclair1 && t.m.kbdJoymask = 8 && t.m.kbdDown = [0x7A]) = true := by decide
/-- V61: Sinclair2, `JOY 1F`. -/
theorem test_joy_sinclair2 :
    ok (exec (.joy 0x1F) (inMode .sinclair2)) (fun t => t.m.kbdDown = [0x30, 0x36, 0x37, 0x38, 0x39] && t.m.joyJoymask = 0) =
      true := by decide
/-- V61: mode None, `JOY 05`. -/
theorem test_joy_none : ok (exec (.joy 0x05) base) (fun t => t.m.joyJoymask = 5 && t.m.kbdDown = []) = true := by decide

/-! ## Quickload -/

/-- V71. -/
theorem test_qload_legacy :
    ok (exec (.qload (hdrA ++ block71)) (base.setMachine (base.m.setRam [(7, 0x99), (8, 0x99)]))) (fun t =>
      t.result = .loaded &&
      t.m.ram = [(0, 0xAA), (1, 0xBB), (2, 0xCC), (3, 0xCC), (4, 0xCC), (5, 0xCC), (6, 0xED), (7, 0x01), (8, 0x99)] &&
      t.m.borderColor = 5 && t.m.cpu.regs.r = 0x81 && t.m.cpu.regs.pc = 0x8000 && t.m.cpu.regs.im = 1 &&
      t.m.cpu.prefetch = some 0x8000) = true := by decide
/-- V90-V102, V104, V106, V107. -/
theorem test_qload_failures :
    (loadFails [] .truncatedHeader && loadFails (zeros 29) .truncatedHeader && loadFails (zeros 30) .truncatedExtHeader &&
    loadFails (zeros 32) .extHeaderTooShort && loadFails (zeros 30 ++ [3, 0, 0, 0]) .truncatedExtHeader &&
    loadFails (zeros 30 ++ [3, 0, 0, 0, 3]) .unsupportedHwMode && loadFails (ext0 ++ [0, 0]) .truncatedPageHeader &&
    loadFails (ext0 ++ [0xFF, 0xFF, 8]) .uncompressedPage && loadFails (ext0 ++ [5, 0, 8, 1, 2, 3, 4]) .pageOverrun &&
    loadFails (ext0 ++ [1, 0, 8, 0x42, 5, 0, 4, 1]) .pageOverrun &&
    loadFails (ext0 ++ [3, 0, 8, 0xED, 0xED, 5]) .truncatedRun && loadFails (ext0 ++ [2, 0, 0, 0xED, 0xED]) .truncatedRun &&
    loadFails (legacy 0 ++ [0xED, 0xED, 1]) .truncatedRun && loadFails (legacy 0 ++ [0, 0xED, 0xED, 0]) .truncatedRun) = true := by
  decide
/-- V83: pages 8 and 3 both go to RAM bank 0, the later one overwrites; page 5 is empty. -/
theorem test_qloadExt_overwrite :
    ok (exec (.qloadExt (ext0 ++ [3, 0, 8, 1, 2, 3] ++ [1, 0, 3, 9] ++ [0, 0, 5])) base)
      (fun t => t.result = .loaded && t.m.ram = [(0, 9), (1, 2), (2, 3)]) = true := by decide
/-- V80's page 9: the junk bank. -/
theorem test_qloadExt_junk :
    ok (exec (.qloadExt (ext0 ++ [2, 0, 9, 0xDD, 0xEE])) base) (fun t => t.m.junk = [(0, 0xDD), (1, 0xEE)] && t.m.ram = []) =
      true := by decide
/-- V72: the terminator is not enabled. -/
theorem test_qloadLegacy_literal :
    ok (exec (.qloadLegacy (hdrA.set 12 0x0B ++ block71)) base)
      (fun t => t.m.ram.read 8 = 0x00 && t.m.ram.read 9 = 0xFF && t.m.cpu.regs.r = 0x81 && t.m.borderColor = 5) = true := by
  decide
/-- V108: bytes after the terminator are never read. -/
theorem test_qloadLegacy_end :
    ok (exec (.qloadLegacy (legacy 0x20 ++ [0x00, 0xED, 0xED, 0x00, 0xED, 0xED])) base)
      (fun t => t.result = .loaded && t.m.ram = [] && t.m.cpu.regs.pc = 1) = true := by decide
/-- V70. -/
theorem test_pageBank :
    [0, 2, 3, 4, 5, 6, 7, 8, 9, 255].map (pageBank Cfg.default) =
      [.junk, .junk, .ram 0, .ram 1, .ram 2, .junk, .junk, .ram 0, .junk, .junk] := by decide

/-! ## Stream tokens -/

/-- A stand-alone scan of these bytes. -/
def scanning (bytes : List Byte) : State := base.setScan (scanOf bytes true)

theorem test_rleEnd :
    ok (exec .rleEnd (scanning [0x00, 0xED, 0xED, 0x00, 0x22])) (fun t => t.scan.stopped && t.scan.rest = [0x22] && t.scan.outRev = []) =
      true := by decide
/-- V7. -/
theorem test_rleRun :
    ok (exec (.rleRun 0x05 0x7A) (scanning [0xED, 0xED, 0x05, 0x7A]))
      (fun t => t.scan.outRev = [0x7A, 0x7A, 0x7A, 0x7A, 0x7A] && t.scan.rest = []) = true := by decide
/-- V65: `ED ED 00 7A` produces nothing. -/
theorem test_rleRun_zero : ok (exec (.rleRun 0x00 0x7A) (scanning [0xED, 0xED, 0x00, 0x7A])) (fun t => t.scan.outRev = []) = true := by
  decide
theorem test_rleBadRun :
    ok (exec (.rleBadRun (some 3)) (scanning [0xED, 0xED, 0x03]))
      (fun t => t.result = .failed (.load .truncatedRun) && t.scan.stopped) = true := by decide
/-- V7: `ED 01 02` copies through. -/
theorem test_rleLitEd :
    ok (exec .rleLitEd (scanning [0xED, 0x01, 0x02])) (fun t => t.scan.outRev = [0xED] && t.scan.rest = [0x01, 0x02]) = true := by
  decide
theorem test_rleLit : ok (exec (.rleLit 0x41) (scanning [0x41, 0x42])) (fun t => t.scan.outRev = [0x41] && t.scan.rest = [0x42]) = true := by
  decide
/-- V65, six of its rows. -/
theorem test_rle :
    (rle [0xED, 0xED, 0x02, 0xED, 0xED] false).toOption = some [0xED, 0xED, 0xED] ∧
    (rle [0xED, 0x00, 0xED, 0xED, 0x02, 0x01] false).toOption = some [0xED, 0x00, 0x01, 0x01] ∧
    (rle [0x00, 0xED, 0xED, 0x00] false).toOption = none ∧
    (rle [0x11, 0x00, 0xED, 0xED, 0x00, 0x22] true).toOption = some [0x11] ∧
    (rle [0xED, 0xED, 0x02, 0x00, 0xED, 0xED, 0x00, 0x55] true).toOption = some [0x00, 0x00] ∧
    (rle [0x00, 0xED, 0xED] true).toOption = none := by decide

/-! ## Init, reset, records, display info -/

/-- The state after reset is the one INIT makes (10_state.md R45; the empty image stands for one of zeros). -/
theorem test_reset_is_init : State.reset.m = initMachine Cfg.default [] := by decide
/-- V110: an image of the wrong size. -/
theorem test_init_badRom : ok (exec (.init [1, 2, 3] Cfg.default) base) (fun t => t.result = .failed .badRom && !t.created) = true := by
  decide
/-- V111. -/
theorem test_reset :
    ok (exec .reset (base.setMachine
        ((((((base.m.setJoyMode .kempston).setKbdJoymask 8).setJoyJoymask 0x10).setKbdDown [0x7A]).setLine 33).setBorderColor 7)))
      (fun t => t.m.line = 0 && t.m.borderColor = 0 && t.m.kbdJoymask = 0 && t.m.joyJoymask = 0 && t.m.kbdDown = [] &&
        t.m.joyMode = .kempston && t.m.rom = base.m.rom) = true := by decide
theorem test_save :
    ok (exec .save (held [0x61])) (fun t => t.result = .saved 0 && t.records.map (fun r => (r.version, r.machine.kbdDown)) = [(1, [0x61])]) =
      true := by decide
/-- V112. -/
theorem test_restore :
    ok (exec (.restore 0) (base.setRecords [recordOf (held [0x61])])) (fun t => t.m.kbdDown = [0x61] && t.result = .restored) =
      true := by decide
/-- V113. -/
theorem test_restore_version :
    ok (exec (.restore 0) (base.setRecords [{ recordOf (held [0x61]) with version := 2 }]))
      (fun t => t.m = base.m && t.result = .failed .versionMismatch) = true := by decide
/-- V114. -/
theorem test_dinfo :
    ok (exec .dinfo base) (fun t => t.m = base.m && t.result = .display
      { width := 320, height := 256, bitsPerPixel := 4, strideBytes := 160, sizeBytes := 40960, buffer := .fb,
        palette := Cfg.referencePalette }) = true := by decide

/-! ## Witnesses: for every obligation with hypotheses, a state and operands that meet them -/

/-- A host call, a bus item and nothing else waiting. -/
def calling (p : Packet) : State := base.setInbox [p]

/-- A bus item. -/
def busItem (w : Pin) : Packet := { fmt := .bus28, bytes := pinBytes w, cfg := none }

theorem witness_MalformedPinWordsAreRefused :
    classify 0xC000000 = none ∧ classify 0x3000000 = none ∧ classify 0x4000000 = none ∧ classify 0x8000000 = none ∧
    base.created = true ∧ (base.setEngineIn [0, 0x5F30000, 0x7000000]).engineIn = [0, 0x5F30000] ++ 0x7000000 :: [] ∧
    classify 0x7000000 = none ∧ (classify 0).isSome = true ∧ (classify 0x5F30000).isSome = true ∧
    (base.setEngineIn [0x7000000]).engineIn = [] ++ 0x7000000 :: [] ∧
    [(0 : Pin), 0x5F30000].length < usToTicks base.cfg 1 := by decide

/-- One operation per check of `wellFormed`; the other rows admit every operand. -/
theorem witness_DecodeOfEncodeIsTheOperation :
    (Instr.mrd 0x4000 1).wellFormed Cfg.default = true ∧ (Instr.irdUla 0xFEFE 3).wellFormed Cfg.default = true ∧
    (Instr.iwrUla 0x00FE 4).wellFormed Cfg.default = true ∧ (Instr.irdJoy 0x001F 5).wellFormed Cfg.default = true ∧
    (Instr.irdOpen 0x00FF 6).wellFormed Cfg.default = true ∧ (Instr.iwrOpen 0x7FFD 7).wellFormed Cfg.default = true ∧
    (Instr.init [1] smallCfg).wellFormed Cfg.default = true ∧ (Instr.execUs 19968).wellFormed Cfg.default = true ∧
    (Instr.tick 0xA0500FE).wellFormed Cfg.default = true ∧ (Instr.lineOutside 288).wellFormed Cfg.default = true ∧
    (Instr.lineBorder 287).wellFormed Cfg.default = true ∧ (Instr.lineBitmap 255).wellFormed Cfg.default = true ∧
    (Instr.qloadExt ext0).wellFormed Cfg.default = true ∧ (Instr.qloadLegacy hdrA).wellFormed Cfg.default = true ∧
    (Instr.rleBadRun (some 9)).wellFormed Cfg.default = true ∧ (Instr.rleLit 0).wellFormed Cfg.default = true := by decide

theorem witness_StepRunsTheDecodedHostItem :
    (calling (hostPacket 0x03 [0x7A])).inbox = hostPacket 0x03 [0x7A] :: [] ∧ (hostPacket 0x03 [0x7A]).fmt ≠ .bus28 ∧
    decode base.cfg (hostPacket 0x03 [0x7A]) = .ok (.keydn 0x7A) := by decide

theorem witness_StepRunsABusItemAsOneTick :
    base.created = true ∧ (calling (busItem 0xA0500FE)).inbox = busItem 0xA0500FE :: [] ∧
    decode base.cfg (busItem 0xA0500FE) = .ok (.iwrUla 0x00FE 0x05) := by decide

theorem witness_StepWithNothingCalled :
    (scanning [0xED, 0xED, 0x05, 0x7A]).inbox = [] ∧ (scanning [0xED, 0xED, 0x05, 0x7A]).scan.stopped = false ∧
    tokenAt true [0xED, 0xED, 0x05, 0x7A] = some (.run 0x05 0x7A) ∧
    base.inbox = [] ∧ base.scan.stopped = false ∧ base.scan.rest = [] ∧
    (base.setScan { base.scan with stopped := true }).scan.stopped = true := by decide

/-- A state with memory, a key held, a record and a bus item waiting. -/
def busy : State := ((screen.setRecords [recordOf screen]).setMachine ((screen.m.setKbdDown [0x61]).setLine 311)).setInbox [busItem 0x9114000]

theorem screen_inv (keys : List Byte) (hk : keys.Pairwise (fun x y => x.toNat < y.toNat)) (n : Nat) (hn : n < 312) :
    ((screen.m.setKbdDown keys).setLine n).Inv Cfg.default where
  counter_pos := show 1 ≤ screen.m.scanlineCounter by decide
  counter_le := show screen.m.scanlineCounter ≤ Cfg.default.scanlinePeriod by decide
  line_lt := hn
  hold_le := show screen.m.intHold ≤ Cfg.default.intHoldTicks by decide
  line_iff_hold := show screen.m.intLine = true ↔ 0 < screen.m.intHold by decide
  ram_wf := show Memory.wf ramSize screen.m.ram by decide
  rom_wf := show Memory.wf (Cfg.default.romBanks * bankSize) screen.m.rom by decide
  junk_wf := show Memory.wf bankSize screen.m.junk by decide
  fb_wf := show Memory.wf (fbSize Cfg.default) screen.m.fb by decide
  keys_sorted := hk

theorem witness_StepKeepsTheInvariants : busy.Inv ∧ ∃ t, step busy = .next t := by
  refine ⟨⟨by decide, screen_inv [0x61] (by decide) 311 (by decide), ?_⟩, _, rfl⟩
  intro r hr
  have : r = recordOf screen := List.mem_singleton.1 hr
  subst this
  exact screen_inv [] (by decide) 0 (by decide)

theorem witness_MemoryReadYieldsTheMappedByte :
    base.created = true ∧ bankOf 0x0000 = .rom 0 ∧ bankOf 0x3FFF = .rom 0 ∧ bankOf 0x4000 = .ram 0 ∧ bankOf 0xBFFF = .ram 1 ∧
    bankOf 0xFFFF = .ram 2 := by decide

theorem witness_EveryAddressHasOneBankAndOffset :
    (0x3FFF : Addr).toNat < 0x4000 ∧ 0x4000 ≤ (0x4000 : Addr).toNat ∧ (0x7FFF : Addr).toNat < 0x8000 ∧
    0x8000 ≤ (0x8000 : Addr).toNat ∧ (0xBFFF : Addr).toNat < 0xC000 ∧ 0xC000 ≤ (0xC000 : Addr).toNat ∧
    bankOf 0x8123 = bankOf 0x8123 ∧ offsetOf 0x8123 = offsetOf 0x8123 := by decide

theorem witness_MemoryWriteStoresOneRamByteOrNothing :
    base.created = true ∧ (0x3FFF : Addr).toNat < 0x4000 ∧ 0x4000 ≤ (0x4000 : Addr).toNat := by decide

theorem witness_UlaReadIsWiredOr : (held [0x61, 0x7A]).created = true ∧ (0 : Nat) < 5 ∧ 4 < 5 := by decide

theorem witness_UlaWriteSetsBorderAndBeeper : base.created = true ∧ decodePin 0xAFF00FE = .ok (.iwrUla 0x00FE 0xFF) := by decide

theorem witness_JoystickReadIsTheOrOfTheMasks : (inMode .kempston).created = true := by decide

theorem witness_OpenPortReadDrawsAFreeByte : base.created = true := by decide

theorem witness_OpenPortWriteChangesNothing : base.created = true := by decide

theorem witness_NoAccessChangesNothing : base.created = true := by decide

theorem witness_TransactionsReachOnlyThreeFields :
    (∃ t, exec (busInstr .mwr 0x4000 1) base = .next t) ∧ (∃ t, exec (busInstr .mwr 0x3FFF 1) base = .next t) ∧
    (∃ t, exec (busInstr .mwr 0xFFFF 1) base = .next t) ∧ (∃ t, exec (busInstr .iwrUla 0x00FE 1) base = .next t) ∧
    (∃ t, exec (busInstr .irdOpen 0x00FF 0) base = .next t) ∧ (∃ t, exec (busInstr .idle 0 0) base = .next t) ∧
    bankOf 0x3FFF = .rom 0 ∧ bankOf 0x4000 = .ram 0 ∧ bankOf 0xFFFF = .ram 2 ∧ bankKey 2 (offsetOf 0xFFFF) = 49151 :=
  ⟨⟨_, rfl⟩, ⟨_, rfl⟩, ⟨_, rfl⟩, ⟨_, rfl⟩, ⟨_, rfl⟩, ⟨_, rfl⟩, by decide⟩

/-- The machine of `base` with everything hidden from a transaction changed. -/
def hidden : MachineState := ((((base.m.setFb [(0, 1)]).setJunk [(0, 1)]).setLine 7).setBlinkCounter 9).setJoyMode .kempston

theorem witness_TransactionsObserveNoHiddenState :
    hidden ≠ base.m ∧ hidden.ram = base.m.ram ∧ hidden.rom = base.m.rom ∧ hidden.lastUlaOut = base.m.lastUlaOut ∧
    hidden.kbdDown = base.m.kbdDown ∧ hidden.kbdJoymask = base.m.kbdJoymask ∧ hidden.joyJoymask = base.m.joyJoymask ∧
    (∃ t, exec (busInstr .irdUla 0xFEFE 0) base = .next t) ∧
    ∃ u, exec (busInstr .irdUla 0xFEFE 0) (base.setMachine hidden) = .next u :=
  ⟨by decide, rfl, rfl, rfl, rfl, rfl, rfl, ⟨_, rfl⟩, _, rfl⟩

theorem witness_OutsideLineWritesNothing :
    base.created = true ∧ 31 < base.cfg.firstFbLine ∧ base.cfg.firstFbLine + fbHeight base.cfg ≤ 288 := by decide

theorem witness_BorderLineFillsItsRow :
    base.created = true ∧ 0 < fbHeight base.cfg ∧ 31 < base.cfg.topBorderLines ∧ base.cfg.topBorderLines + 192 ≤ 224 ∧
    255 < fbHeight base.cfg := by decide

theorem witness_BitmapLineDrawsItsRow : screen.created = true ∧ cfgOk screen.cfg = true ∧ 0 < 192 ∧ 191 < 192 := by decide

theorem witness_BlinkParity :
    cfgOk Cfg.default = true ∧ (0xC7 : Byte).getLsbD 7 = true ∧ 3 < 4 ∧ (0x47 : Byte).getLsbD 7 = false := by decide

/-- `screen` with a byte that bitmap row 0 does not fetch, and another framebuffer. -/
def screen2 : State := screen.setMachine ((screen.m.setRam [(0, 0xA5), (0x1F, 0xFF), (0x1800, 0xC7), (0x181F, 0x0E), (0x4000, 1)]).setFb [(9, 9)])

theorem witness_LineDependsOnlyOnWhatItFetches :
    screen.created = true ∧ screen2.created = true ∧ screen2.cfg = screen.cfg ∧ cfgOk screen.cfg = true ∧
    screen2.m.borderColor = screen.m.borderColor ∧
    screen2.m.blinkCounter.getLsbD screen.cfg.blinkBit = screen.m.blinkCounter.getLsbD screen.cfg.blinkBit ∧
    (∀ x < 32, vidRead screen.cfg screen2.m (voff (bitmapRow screen.cfg 64) x) =
      vidRead screen.cfg screen.m (voff (bitmapRow screen.cfg 64) x)) ∧
    ∀ x < 32, vidRead screen.cfg screen2.m (aoff (bitmapRow screen.cfg 64) x) =
      vidRead screen.cfg screen.m (aoff (bitmapRow screen.cfg 64) x) := by decide

/-- A state for the line clause in each class, and a pin word. -/
theorem witness_TickOrder :
    base.created = true ∧ decodeLine base.cfg 31 = .lineOutside 31 ∧ decodeLine base.cfg 32 = .lineBorder 32 ∧
    decodeLine base.cfg 64 = .lineBitmap 64 ∧ decodePin 0xA0500FE = .ok (.iwrUla 0x00FE 0x05) := by decide

/-- In the middle of a line, at a line end, and at the frame wrap. -/
theorem witness_TickCountsTheRaster :
    small.created = true ∧ (classify 0).isSome = true ∧ 1 ≤ small.m.scanlineCounter ∧
    (small.m.intLine = true ↔ 0 < small.m.intHold) ∧ 1 ≤ small.cfg.intHoldTicks ∧
    (small.m.setScanlineCounter 1).scanlineCounter = 1 ∧ small.cfg.totalScanlines ≤ (small.m.setLine 2).line + 1 ∧
    ¬ small.cfg.totalScanlines ≤ (small.m.setLine 1).line + 1 := by decide

/-- V51, and what the small machine of P3 makes of 4 microseconds. -/
theorem ticks_of_us :
    usToTicks base.cfg 0 = 0 ∧ usToTicks base.cfg 1 = 3 ∧ usToTicks base.cfg 2 = 7 ∧ usToTicks base.cfg 4 = 14 ∧
    usToTicks small.cfg 4 = 14 := by
  have h : ∀ us, usToTicks base.cfg us = us * 3500000 / 1000000 ∧ usToTicks small.cfg us = us * 3500000 / 1000000 :=
    fun _ => ⟨rfl, rfl⟩
  refine ⟨(h 0).1.trans ?_, (h 1).1.trans ?_, (h 2).1.trans ?_, (h 4).1.trans ?_, (h 4).2.trans ?_⟩ <;> norm_num

theorem witness_ExecPerformsItsTicks :
    base.created = true ∧ (∀ w ∈ [(0x5F30000 : Pin), 0], (classify w).isSome = true) ∧ usToTicks base.cfg 0 = 0 ∧
    usToTicks base.cfg 1 = 3 ∧ base.cfg.conversion = .reference :=
  ⟨rfl, by rintro w (_ | ⟨_, _ | ⟨_, ⟨⟩⟩⟩) <;> decide, ticks_of_us.1, ticks_of_us.2.1, rfl⟩

/-- 12 ticks (P = 4, N = 3) are one frame: at 3.5 MHz 4 microseconds give 14. -/
theorem witness_ExecRasterPosition :
    small.created = true ∧ cfgOk small.cfg = true ∧ (∀ w ∈ small.engineIn, (classify w).isSome = true) ∧
    small.m.scanlineCounter = small.cfg.scanlinePeriod ∧ small.m.line = 0 ∧ small.m.intHold = 0 ∧ small.m.intLine = false ∧
    usToTicks small.cfg 4 = 14 := ⟨rfl, by decide, nofun, rfl, rfl, rfl, rfl, ticks_of_us.2.2.2.2⟩

theorem witness_ExecCallBoundariesDoNotMatter :
    base.created = true ∧ (∀ w ∈ base.engineIn, (classify w).isSome = true) ∧
    usToTicks base.cfg 4 = usToTicks base.cfg 2 + usToTicks base.cfg 2 := by
  refine ⟨rfl, nofun, ?_⟩
  rw [ticks_of_us.2.2.2.1, ticks_of_us.2.2.1]

theorem witness_ExecEqualsItsBusItems :
    base.created = true ∧ (∀ w ∈ List.replicate 7 (0x5000000 : Pin), (classify w).isSome = true) ∧
    (List.replicate 7 (0x5000000 : Pin)).length = usToTicks base.cfg 2 :=
  ⟨rfl, fun w hw => by rw [List.eq_of_mem_replicate hw]; decide, by rw [List.length_replicate, ticks_of_us.2.2.1]⟩

/-- A record whose machine has another ROM and junk bank, and the state that holds it. -/
def holding : State :=
  base.setRecords [{ recordOf base with machine := { base.m with rom := [(0, 1)], line := 5 } }]

/-- Every field of the statement changes under one of its writers. -/
theorem witness_FieldsHaveOnlyTheirWriters :
    (ok (exec (.restore 0) holding) (fun t => t.m.rom ≠ holding.m.rom) &&
    ok (exec (.mwr 0x4000 1) base) (fun t => t.m.ram ≠ base.m.ram) &&
    ok (exec (.qload (ext0 ++ [2, 0, 9, 0xDD, 0xEE])) base) (fun t => t.m.junk ≠ base.m.junk) &&
    ok (exec (.lineBorder 32) screen) (fun t => t.m.fb ≠ screen.m.fb) &&
    ok (exec (.tick 0) base) (fun t => t.m.scanlineCounter ≠ base.m.scanlineCounter) &&
    ok (exec .reset (base.setMachine hidden)) (fun t => t.m.line ≠ hidden.line && t.m.blinkCounter ≠ hidden.blinkCounter) &&
    ok (exec (.tick 0) (small.setMachine ((small.m.setScanlineCounter 1).setLine 2)))
      (fun t => t.m.intHold ≠ small.m.intHold && t.m.intLine ≠ small.m.intLine) &&
    ok (exec (.iwrUla 0x00FE 0x15) base)
      (fun t => t.m.lastUlaOut ≠ base.m.lastUlaOut && t.m.borderColor ≠ base.m.borderColor && t.trace ≠ base.trace) &&
    ok (exec (.jmode .kempston) base) (fun t => t.m.joyMode ≠ base.m.joyMode) &&
    ok (exec (.keydn 0x0B) (inMode .kempston)) (fun t => t.m.kbdJoymask ≠ (inMode .kempston).m.kbdJoymask) &&
    ok (exec (.joy 1) base) (fun t => t.m.joyJoymask ≠ base.m.joyJoymask) &&
    ok (exec (.keydn 0x61) base) (fun t => t.m.kbdDown ≠ base.m.kbdDown) &&
    ok (exec (.qload (legacy 0)) base) (fun t => t.m.cpu ≠ base.m.cpu)) = true ∧
    ∃ t, exec (.init (List.replicate 16384 0) smallCfg) base = .next t ∧ t.cfg ≠ base.cfg := by
  refine ⟨by decide, startMachine smallCfg (List.replicate 16384 0) base, ?_, by decide⟩
  show execInit _ _ _ = _
  unfold execInit
  rw [if_pos (by decide), if_pos (by rw [List.length_replicate]; decide)]

theorem witness_KeyDownByMode :
    (inMode .none).created = true ∧ (inMode .none).m.joyMode = .none ∧ (inMode .kempston).m.joyMode = .kempston ∧
    (inMode .sinclair1).m.joyMode = .sinclair1 ∧ (inMode .sinclair2).m.joyMode = .sinclair2 ∧
    joyFn? 0x08 = some .left ∧ joyFn? 0x0B = some .up ∧ joyFn? 0x20 = some .fire ∧ joyFn? 0x07 = none ∧ joyFn? 0x0C = none := by
  decide

theorem witness_KeyUpByMode :
    (inMode .none).created = true ∧ (inMode .none).m.joyMode = .none ∧ (inMode .kempston).m.joyMode = .kempston ∧
    (inMode .sinclair1).m.joyMode = .sinclair1 ∧ (inMode .sinclair2).m.joyMode = .sinclair2 ∧
    joyFn? 0x09 = some .right ∧ joyFn? 0x0A = some .down ∧ joyFn? 0x1F = none := by decide

theorem witness_SetJoystickMode : base.created = true ∧ 4 ≤ (4 : Byte).toNat ∧ 4 ≤ (0xFF : Byte).toNat := by decide

theorem witness_JoystickByMode :
    32 ≤ (32 : Byte).toNat ∧ (inMode .none).created = true ∧ (inMode .none).m.joyMode = .none ∧
    (inMode .kempston).m.joyMode = .kempston ∧ (inMode .sinclair1).m.joyMode = .sinclair1 ∧
    (inMode .sinclair2).m.joyMode = .sinclair2 := by decide

theorem witness_InputAsymmetry :
    (inMode .kempston).created = true ∧ (inMode .kempston).m.joyMode = .kempston ∧ joyFn? 0x0B ≠ none ∧
    (∃ t, exec (.keydn 0x0B) (inMode .kempston) = .next t) ∧ (∃ t, exec (.joy 8) (inMode .kempston) = .next t) ∧
    (inMode .sinclair1).m.joyMode = .sinclair1 ∧ (∃ t, exec (.joy 8) (inMode .sinclair1) = .next t) ∧
    (inMode .sinclair2).m.joyMode = .sinclair2 ∧ (∃ t, exec (.keyup 0x20) (inMode .sinclair2) = .next t) ∧
    (inMode .none).m.joyMode = .none ∧ (∃ t, exec (.keydn 0x20) (inMode .none) = .next t) ∧
    ∃ t, exec (.joy 31) (inMode .none) = .next t :=
  ⟨rfl, rfl, by decide, ⟨_, rfl⟩, ⟨_, rfl⟩, rfl, ⟨_, rfl⟩, rfl, ⟨_, rfl⟩, rfl, ⟨_, rfl⟩, _, rfl⟩

theorem witness_RleTokens :
    (0x01 : Byte) ≠ 0xED ∧ (0x00 : Byte) ≠ 0xED ∧
    ¬ (true = true ∧ [(0x00 : Byte), 0xED, 0xED].take 4 = [0x00, 0xED, 0xED, 0x00]) := by decide

theorem witness_RleOutputIsBounded :
    rle [0xED, 0xED, 0x05, 0x7A] false = .ok [0x7A, 0x7A, 0x7A, 0x7A, 0x7A] ∧ rle [0xED, 0xED] false = .error .truncatedRun := by
  decide

theorem witness_StandAloneScanComputesRle :
    base.inbox = [] ∧ rle [0x41, 0x00, 0xED, 0xED, 0x00] true = .ok [0x41] ∧ rle [0xED, 0xED, 0x03] true = .error .truncatedRun := by
  decide

theorem witness_PcFieldSelectsTheLayout :
    30 ≤ hdrA.length ∧ u16le hdrA 6 ≠ 0 ∧ 30 ≤ ext0.length ∧ u16le ext0 6 = 0 := by decide

/-- A page for RAM bank 0 (number 8) with one literal byte. -/
def onePage : List (SnapPage × List Byte) := [({ number := 8, data := [0x42] }, [0x42])]

theorem ext0_start : ExtendedStart base.cfg ext0 := ⟨by decide, by decide, by decide, by decide⟩

theorem onePage_loads : ∀ p ∈ onePage, p.1.loads p.2 := by
  intro p hp
  have : p = ({ number := 8, data := [0x42] }, [0x42]) := List.mem_singleton.1 hp
  subst this
  exact ⟨by decide, by decide, by decide⟩

theorem witness_QuickloadIsAtomic :
    base.created = true ∧ (Instr.qload hdrA).wellFormed base.cfg = true ∧ (Instr.qloadExt ext0).wellFormed base.cfg = true ∧
    (Instr.qloadLegacy hdrA).wellFormed base.cfg = true ∧ (zeros 29).length < 30 ∧
    (35 ≤ (zeros 30 ++ [3, 0, 0, 0, 3]).length ∧ u16le (zeros 30 ++ [3, 0, 0, 0, 3]) 6 = 0 ∧
      byteAt (zeros 30 ++ [3, 0, 0, 0, 3]) 34 ∉ base.cfg.supportedHwModes) ∧
    ExtendedStart base.cfg ext0 ∧ (∀ p ∈ onePage, p.1.loads p.2) ∧
    (3 ≤ [(0xFF : Byte), 0xFF, 8].length ∧ u16le [0xFF, 0xFF, 8] 0 = 0xFFFF) ∧
    3 ≤ [(5 : Byte), 0, 4, 1].length ∧ [(5 : Byte), 0, 4, 1].length < 3 + u16le [5, 0, 4, 1] 0 :=
  ⟨by decide, by decide, by decide, by decide, by decide, by decide, ext0_start, onePage_loads, by decide, by decide, by decide⟩

theorem witness_MalformedSnapshotsFail :
    base.created = true ∧ (zeros 29).length < 30 ∧ ExtendedStart base.cfg ext0 ∧ (∀ p ∈ onePage, p.1.loads p.2) ∧
    [(0 : Byte)].length = 1 ∧ [(0 : Byte), 0].length = 2 ∧ u16le [0xFF, 0xFF, 8] 0 = 0xFFFF ∧ 3 ≤ [(5 : Byte), 0, 4, 1].length ∧
    u16le [5, 0, 4, 1] 0 ≠ 0xFFFF ∧ [(5 : Byte), 0, 4, 1].length < 3 + u16le [5, 0, 4, 1] 0 :=
  ⟨by decide, by decide, ext0_start, onePage_loads, by decide, by decide, by decide, by decide, by decide, by decide⟩

/-- `n` runs of 255 zeros. -/
def fullRuns : Nat → List Byte
  | 0 => []
  | n + 1 => 0xED :: 0xED :: 0xFF :: 0x00 :: fullRuns n

theorem fullRuns_length (n : Nat) : (fullRuns n).length = 4 * n := by
  induction n with
  | zero => rfl
  | succ n ih => simp only [fullRuns, List.length_cons, ih]; omega

theorem rle_fullRuns (n : Nat) (term : Bool) : rle (fullRuns n) term = .ok (List.replicate (255 * n) 0) := by
  induction n with
  | zero => exact rle_nil term
  | succ n ih =>
    have h255 : (0xFF : Byte).toNat = 255 := by decide
    rw [fullRuns, rle_run _ _ _ _ (tokenAt_run term _ _ _), List.drop_succ_cons, List.drop_succ_cons, List.drop_succ_cons,
      List.drop_succ_cons, List.drop_zero, ih, h255]
    simp only [Except.map, List.replicate_append_replicate]
    rw [Nat.mul_succ, Nat.add_comm]

theorem witness_BadPageDataFails :
    base.created = true ∧ ExtendedStart base.cfg ext0 ∧ (∀ p ∈ onePage, p.1.loads p.2) ∧
    ([0xED, 0xED] : List Byte).length < 0xFFFF ∧ rle [0xED, 0xED] false = .error .truncatedRun ∧
    (fullRuns 65).length < 0xFFFF ∧ rle (fullRuns 65) false = .ok (List.replicate (255 * 65) 0) ∧
    16384 < (List.replicate (255 * 65) (0 : Byte)).length :=
  ⟨by decide, ext0_start, onePage_loads, by decide, by decide, by rw [fullRuns_length]; decide, rle_fullRuns 65 false, by
    rw [List.length_replicate]; decide⟩

theorem witness_ExtensionHeaderChecks :
    base.created = true ∧ (30 ≤ (zeros 31).length ∧ u16le (zeros 31) 6 = 0 ∧ (zeros 31).length < 32) ∧
    (32 ≤ (zeros 32).length ∧ u16le (zeros 32) 6 = 0 ∧ u16le (zeros 32) 30 < 3) ∧
    (32 ≤ (zeros 30 ++ [3, 0, 0, 0]).length ∧ 3 ≤ u16le (zeros 30 ++ [3, 0, 0, 0]) 30 ∧
      (zeros 30 ++ [3, 0, 0, 0]).length < 32 + u16le (zeros 30 ++ [3, 0, 0, 0]) 30) ∧
    3 ≤ u16le (zeros 30 ++ [3, 0, 0, 0, 3]) 30 ∧
    32 + u16le (zeros 30 ++ [3, 0, 0, 0, 3]) 30 ≤ (zeros 30 ++ [3, 0, 0, 0, 3]).length ∧
    byteAt (zeros 30 ++ [3, 0, 0, 0, 3]) 34 ∉ base.cfg.supportedHwModes := by decide

theorem witness_LegacyLoad :
    base.cfg.imageRest = .atReset ∧ base.created = true ∧ 30 ≤ (hdrA ++ block71).length ∧ u16le (hdrA ++ block71) 6 ≠ 0 ∧
    rle ((hdrA ++ block71).drop 30) ((byteAt (hdrA ++ block71) 12).getLsbD 5) = .ok [0xAA, 0xBB, 0xCC, 0xCC, 0xCC, 0xCC, 0xED, 0x01] ∧
    rle ((legacy 0 ++ [0xED, 0xED]).drop 30) ((byteAt (legacy 0 ++ [0xED, 0xED]) 12).getLsbD 5) = .error .truncatedRun ∧
    u16le (legacy 0 ++ [0xED, 0xED]) 6 ≠ 0 ∧
    rle ((legacy 0 ++ fullRuns 193).drop 30) ((byteAt (legacy 0 ++ fullRuns 193) 12).getLsbD 5) =
      .ok (List.replicate (255 * 193) 0) ∧
    49152 < (List.replicate (255 * 193) (0 : Byte)).length :=
  ⟨rfl, by decide, by decide, by decide, by decide, by decide, by decide, rle_fullRuns 193 false, by rw [List.length_replicate]; decide⟩

theorem witness_ExtendedLoad :
    base.created = true ∧ ExtendedStart base.cfg ext0 ∧ ∀ p ∈ onePage, p.1.loads p.2 := ⟨by decide, ext0_start, onePage_loads⟩

/-- Below the offset, at both ends of the RAM banks, at the special case and past it, and with another offset. -/
theorem witness_PageDestinations :
    (2 : Byte).toNat < Cfg.default.pageOffset ∧ (3 : Byte).toNat = Cfg.default.pageOffset + 0 ∧
    (5 : Byte).toNat = Cfg.default.pageOffset + 2 ∧ (6 : Byte).toNat = Cfg.default.pageOffset + 3 ∧
    (8 : Byte).toNat = Cfg.default.pageOffset + 5 ∧ (0xFF : Byte).toNat = Cfg.default.pageOffset + 252 ∧
    (5 : Byte).toNat = ({ Cfg.default with pageOffset := 0 } : Cfg).pageOffset + 5 := by decide

theorem witness_RegisterImage : 0x8000 < 65536 ∧ u16le hdrA 6 = 0x8000 := by decide

theorem witness_SaveMakesACopy : (held [0x61]).created = true := by decide

theorem witness_RestoreAfterSaveIsTheSavedState :
    ((base.setRecords [recordOf (held [0x61])]).created = true ∧
      (base.setRecords [recordOf (held [0x61])]).records[0]? = some (recordOf (held [0x61])) ∧
      (recordOf (held [0x61])).version = base.cfg.snapshotVersion ∧ (recordOf (held [0x61])).savedUnder = base.cfg) ∧
    ∃ t, exec .save (held [0x61]) = .next t ∧ (held [0x61]).created = true ∧
      t.records = (held [0x61]).records ++ [recordOf (held [0x61])] ∧
      (t.setMachine hidden).created = true ∧ (t.setMachine hidden).cfg = (held [0x61]).cfg ∧
      (t.setMachine hidden).records[0]? = some (recordOf (held [0x61])) ∧
      ∃ v, exec .save (((t.setMachine hidden).setMachine (held [0x61]).m).setResult .restored) = .next v :=
  ⟨⟨rfl, rfl, rfl, rfl⟩, _, rfl, rfl, rfl, rfl, rfl, rfl, _, rfl⟩

theorem witness_RestoreRejects :
    base.created = true ∧
    ((base.setRecords [{ recordOf base with version := 2 }]).records[0]? = some { recordOf base with version := 2 } ∧
      (2 : BitVec 32) ≠ base.cfg.snapshotVersion) ∧
    ((base.setRecords [recordOf small]).records[0]? = some (recordOf small) ∧
      (recordOf small).version = base.cfg.snapshotVersion ∧ (recordOf small).savedUnder ≠ base.cfg) ∧
    base.records[0]? = none := by decide

theorem witness_InitMakesAFreshMachine :
    cfgOk { Cfg.default with romBanks := 0 } = false ∧ cfgOk Cfg.default = true ∧
    (List.replicate 16384 (0 : Byte)).length = Cfg.default.romBanks * 16384 :=
  ⟨by decide, by decide, by rw [List.length_replicate]; decide⟩

theorem witness_BadRomImageFails :
    cfgOk Cfg.default = true ∧ (List.replicate 16383 (0 : Byte)).length ≠ Cfg.default.romBanks * 16384 ∧
    (List.replicate 16385 (0 : Byte)).length ≠ Cfg.default.romBanks * 16384 ∧
    ([] : List Byte).length ≠ Cfg.default.romBanks * 16384 ∧ onMachine .reset = true ∧
    (List.replicate 16384 (0 : Byte)).length = Cfg.default.romBanks * 16384 :=
  ⟨by decide, by rw [List.length_replicate]; decide, by rw [List.length_replicate]; decide, by decide, by decide, by
    rw [List.length_replicate]; decide⟩

theorem witness_NoMachineNoOperation :
    (∃ s : State, s.created = false ∧ onMachine .reset = true) ∧
    ∃ t t', exec (.init (List.replicate 16384 0) Cfg.default) base = .next t ∧
      exec (.init (List.replicate 16384 0) Cfg.default) small = .next t' ∧ t.created = true := by
  have key : ∀ s : State, exec (.init (List.replicate 16384 0) Cfg.default) s =
      .next (startMachine Cfg.default (List.replicate 16384 0) s) := by
    intro s
    show execInit _ _ _ = _
    unfold execInit
    rw [if_pos (by decide), if_pos (by rw [List.length_replicate]; decide)]
  exact ⟨⟨{ base with created := false }, rfl, rfl⟩, _, _, key base, key small, rfl⟩

theorem witness_ResetClearsTransientState : (base.setMachine hidden).created = true := by decide

theorem witness_DisplayInfoAnswers : base.created = true := by decide

end Sys2Proof.Tests
end

section
/-! SUPPORT. Memory reads on the bus (20_memory.md R64, 40_bus_dispatcher.md R141): what MRD answers, and the byte of the
bank and offset an address maps to. -/

namespace Sys2Proof.Proofs

open Sys2Proof.Machine

/-- The last byte handed to the engine is the one it sees. -/
@[simp] theorem setBusData_setBusData (s : State) (v w : Option Byte) :
    (s.setBusData v).setBusData w = s.setBusData w := rfl

theorem exec_mrd {s : State} (a : Addr) (d : Byte) (hs : s.created = true) :
    exec (.mrd a d) s = .next (s.setBusData (some (memRead s.m a))) :=
  live_created _ hs

/-- `bankKey` in the spelling of `MemRead` (20_memory.md R62, R64). -/
theorem bankKey_offsetOf (b : Nat) (a : Addr) : bankKey b (offsetOf a) = 16384 * b + a.toNat % 16384 := by
  rw [offsetOf_eq, bankKey, bankSize, Nat.mul_comm]

theorem memRead_of_bankOf_rom (m : MachineState) {a : Addr} {b : Nat} (h : bankOf a = .rom b) :
    memRead m a = m.rom.read (16384 * b + a.toNat % 16384) := by
  simp only [memRead, h, bankKey_offsetOf]

theorem memRead_of_bankOf_ram (m : MachineState) {a : Addr} {b : Nat} (h : bankOf a = .ram b) :
    memRead m a = m.ram.read (16384 * b + a.toNat % 16384) := by
  simp only [memRead, h, bankKey_offsetOf]

/-- MRD on the state an MRD of the same address answers changes nothing: a read does not disturb memory. -/
theorem exec_mrd_again {s : State} (a : Addr) (d : Byte) (hs : s.created = true) :
    exec (.mrd a d) (s.setBusData (some (memRead s.m a))) = .next (s.setBusData (some (memRead s.m a))) := by
  rw [exec_mrd a d (by simpa using hs), setBusData_setBusData, State.setBusData_m]

/-- Settles O10: the byte is `memRead s.m a`; each edge address is an instance of the rule of its bank. -/
theorem memoryReadYieldsTheMappedByte : Obligations.MemoryReadYieldsTheMappedByte := by
  intro s a d hs
  refine ⟨memRead s.m a, exec_mrd a d hs, fun _ => memRead_of_bankOf_rom s.m, fun _ => memRead_of_bankOf_ram s.m,
    ?last_of_rom, ?first_of_ram, ?last_of_ram, exec_mrd_again a d hs⟩
  case last_of_rom => rintro rfl; exact memRead_of_bankOf_rom s.m (b := 0) (by decide)
  case first_of_ram => rintro rfl; exact memRead_of_bankOf_ram s.m (b := 0) (by decide)
  case last_of_ram => rintro rfl; exact memRead_of_bankOf_ram s.m (b := 2) (by decide)

end Sys2Proof.Proofs
end

section
/-! SUPPORT. Port writes on the bus (40_bus_dispatcher.md R145, R148): which operation an IO write decodes to, what IWR.ULA
and IWR.OPEN answer, and a tick whose transaction is known. -/

namespace Sys2Proof.Proofs

open Sys2Proof.Machine

/-! ## Which port an IO write reaches (30_encoding.md R93) -/

/-- The kind bits of an IO write leave A0 alone to choose the row. -/
theorem decodePin_ioWrite (a : Addr) (d : Byte) :
    decodePin (mkPin 10 d a) = .ok (if a.getLsbD 0 = false then .iwrUla a d else .iwrOpen a d) := by
  have hw : classify (mkPin 10 d a) = some (writePort a) := classify_mkPin 10 a d
  simp only [decodePin, hw, pinAddr_mkPin, pinData_mkPin, writePort]
  split <;> rfl

theorem decodePin_ioWrite_eq_iwrUla (a : Addr) (d : Byte) :
    decodePin (mkPin 10 d a) = .ok (.iwrUla a d) ↔ a.getLsbD 0 = false := by
  rw [decodePin_ioWrite]
  split <;> simp_all

theorem decodePin_ioWrite_eq_iwrOpen (a : Addr) (d : Byte) :
    decodePin (mkPin 10 d a) = .ok (.iwrOpen a d) ↔ a.getLsbD 0 = true := by
  rw [decodePin_ioWrite]
  split <;> simp_all

/-! ## What a port write answers -/

theorem exec_iwrUla {s : State} (a : Addr) (d : Byte) (hs : s.created = true) :
    exec (.iwrUla a d) s =
      .next (emitBeeper (s.setMachine ((s.m.setLastUlaOut d).setBorderColor (ulaBorder d))) (ulaBeep d)) :=
  live_created _ hs

theorem exec_iwrOpen {s : State} (a : Addr) (d : Byte) (hs : s.created = true) : exec (.iwrOpen a d) s = .next s :=
  live_created _ hs

/-! ## The transaction inside its tick (42_sequencer.md R181) -/

/-- What follows the transaction runs on the state the transaction answers. -/
theorem exec_tick_of_transaction {s u : State} {w : Pin} {i : Instr} (hs : s.created = true) (hw : decodePin w = .ok i)
    (hu : exec i (beginTick w s) = .next u) : exec (.tick w) s = .next (endTick u) := by
  calc exec (.tick w) s
    _ = tickWith w s := live_created _ hs
    _ = .next (endTick u) := by rw [tickWith, dispatch_eq_exec _ hw, hu, andThen_ok]

/-- Settles O14: the answer of `exec_iwrUla`, on any state and on the one in which the engine has stepped in a tick. -/
theorem ulaWriteSetsBorderAndBeeper : Obligations.UlaWriteSetsBorderAndBeeper := by
  refine ⟨?effects, decodePin_ioWrite_eq_iwrUla, ?beforeRaster⟩
  case effects =>
    intro s a d hs
    exact ⟨{ level := ulaBeep d, tick := s.ticks }, rfl, exec_iwrUla a d hs⟩
  case beforeRaster =>
    intro s w a d hs hw
    have hu := exec_iwrUla (s := beginTick w s) a d hs
    exact ⟨_, hu, exec_tick_of_transaction hs hw hu⟩

/-- Settles O17: A0 alone selects IWR.OPEN, so the joystick's address bits play no part in it. -/
theorem openPortWriteChangesNothing : Obligations.OpenPortWriteChangesNothing :=
  ⟨fun _ => exec_iwrOpen, decodePin_ioWrite_eq_iwrOpen⟩

end Sys2Proof.Proofs
end

section
/-! SUPPORT. Border lines of the video decoder (41_video_decoder.md R162): which lines they are, what LINE answers on one,
and the byte it writes. -/

namespace Sys2Proof.Proofs

open Sys2Proof.Machine

@[simp] theorem fbRow_firstFbLine_add (c : Cfg) (y : Nat) : fbRow c (c.firstFbLine + y) = y := Nat.add_sub_cancel_left ..

/-- A framebuffer row above or below the 192 bitmap rows belongs to a border line (30_encoding.md R102). -/
theorem lineClass_eq_border {c : Cfg} {y : Nat} (hfb : y < fbHeight c)
    (hy : y < c.topBorderLines ∨ c.topBorderLines + 192 ≤ y) : lineClass c (c.firstFbLine + y) = .border := by
  have hrow : ¬ (c.firstFbLine + y < c.firstFbLine ∨ fbHeight c ≤ y) := by omega
  rw [lineClass, fbRow_firstFbLine_add, if_neg hrow, if_pos hy]

theorem exec_lineBorder {s : State} {n : Nat} (hs : s.created = true) (hn : lineClass s.cfg n = .border) :
    exec (.lineBorder n) s = .next (s.setMachine (drawBorder s.cfg n s.m)) :=
  (live_created _ hs).trans (if_pos hn)

/-- The border colour in the high and in the low nibble, in the spelling of R162. -/
theorem borderByte_eq : ∀ c : BitVec 3, borderByte c = (c.setWidth 8 <<< 4) ||| c.setWidth 8 := by decide

/-- Settles O22: the answer of `exec_lineBorder`, whose framebuffer `drawBorder_read` gives byte by byte. -/
theorem borderLineFillsItsRow : Obligations.BorderLineFillsItsRow := by
  intro s y hs hfb hy
  refine ⟨(drawBorder s.cfg (s.cfg.firstFbLine + y) s.m).fb, exec_lineBorder hs (lineClass_eq_border hfb hy), ?_⟩
  intro k
  rw [drawBorder_read, fbRow_firstFbLine_add, borderByte_eq]

end Sys2Proof.Proofs
end

section
/-! SUPPORT. KEYUP by the joystick mode (43_input_mux.md R204, R205): what it answers, and which code it releases or which
bit it clears in each mode. -/

namespace Sys2Proof.Proofs

open Sys2Proof.Machine

theorem exec_keyup {s : State} (cc : Byte) (hs : s.created = true) :
    exec (.keyup cc) s = .next (s.setMachine (keyUp cc s.m)) :=
  live_created _ hs

/-- From `m` to `m'` the code `x` is released and the keyboard joystick mask stays. -/
def Releases (m m' : MachineState) (x : Byte) : Prop :=
  m'.kbdJoymask = m.kbdJoymask ∧ ∀ k, k ∈ m'.kbdDown ↔ k ≠ x ∧ k ∈ m.kbdDown

theorem kbdKeyUp_releases (m : MachineState) (x : Byte) : Releases m (kbdKeyUp m x) x :=
  ⟨rfl, mem_keyRelease m.kbdDown x⟩

theorem keyUp_none_releases {m : MachineState} (cc : Byte) (hm : m.joyMode = .none) : Releases m (keyUp cc m) cc := by
  simpa only [keyUp, hm] using kbdKeyUp_releases m cc

theorem keyUp_kempston_reserved {m : MachineState} {cc : Byte} {f : JoyFn} (hm : m.joyMode = .kempston)
    (hf : joyFn? cc = some f) : keyUp cc m = m.setKbdJoymask (m.kbdJoymask &&& ~~~ joyBit f) := by
  simp only [keyUp, hm, hf]

theorem keyUp_kempston_releases {m : MachineState} {cc : Byte} (hm : m.joyMode = .kempston) (hf : joyFn? cc = none) :
    Releases m (keyUp cc m) cc := by
  simpa only [keyUp, hm, hf] using kbdKeyUp_releases m cc

/-- Releasing a Sinclair code: the digit of a reserved code, an ordinary code itself. -/
theorem kbdKeyUp_sinclairCode_releases (m : MachineState) (digit : JoyFn → Byte) (cc : Byte) :
    (∀ f, joyFn? cc = some f → Releases m (kbdKeyUp m (sinclairCode digit cc)) (digit f)) ∧
    (joyFn? cc = none → Releases m (kbdKeyUp m (sinclairCode digit cc)) cc) := by
  constructor
  · intro f hf
    simpa only [sinclairCode, hf] using kbdKeyUp_releases m (digit f)
  · intro hf
    simpa only [sinclairCode, hf] using kbdKeyUp_releases m cc

theorem keyUp_sinclair1 {m : MachineState} (cc : Byte) (hm : m.joyMode = .sinclair1) :
    keyUp cc m = kbdKeyUp m (sinclairCode sinclair1Key cc) := by
  simp only [keyUp, hm]

theorem keyUp_sinclair2 {m : MachineState} (cc : Byte) (hm : m.joyMode = .sinclair2) :
    keyUp cc m = kbdKeyUp m (sinclairCode sinclair2Key cc) := by
  simp only [keyUp, hm]

/-- Settles O36: the keys and the mask are those of `keyUp`, which the lemmas above give in each mode. -/
theorem keyUpByMode : Obligations.KeyUpByMode := by
  intro s cc hs
  refine ⟨(keyUp cc s.m).kbdDown, (keyUp cc s.m).kbdJoymask, ?answer, keyUp_none_releases cc, ?kempston, ?sinclair1,
    ?sinclair2⟩
  case answer => rw [← keyUp_frame, exec_keyup cc hs]
  case kempston =>
    refine fun hm => ⟨fun f hf => ?_, keyUp_kempston_releases hm⟩
    rw [keyUp_kempston_reserved hm hf]
    exact ⟨rfl, rfl⟩
  case sinclair1 =>
    intro hm
    rw [keyUp_sinclair1 cc hm]
    exact kbdKeyUp_sinclairCode_releases s.m sinclair1Key cc
  case sinclair2 =>
    intro hm
    rw [keyUp_sinclair2 cc hm]
    exact kbdKeyUp_sinclairCode_releases s.m sinclair2Key cc

end Sys2Proof.Proofs
end

section
/-! SUPPORT. Quickloads (44_snapshot_codec.md R222-R234, R243): which layout an input has, what the three load operations
answer, and which inputs fail with which cause. -/

namespace Sys2Proof.Proofs

open Sys2Proof.Machine

/-! ## The layout of an input (30_encoding.md R108) -/

theorem isExtended_iff {b : List Byte} : isExtended b = true ↔ 30 ≤ b.length ∧ u16le b 6 = 0 := by
  rw [isExtended, Bool.and_eq_true, decide_eq_true_iff, decide_eq_true_iff, headerLength]

theorem isLegacy_iff {b : List Byte} : isLegacy b = true ↔ 30 ≤ b.length ∧ u16le b 6 ≠ 0 := by
  rw [isLegacy, Bool.and_eq_true, decide_eq_true_iff, decide_eq_true_iff, headerLength]

/-- What follows an extension header does not change the layout. -/
theorem isExtended_append_of_extendedStart {c : Cfg} {b0 : List Byte} (h : ExtendedStart c b0) (payload : List Byte) :
    isExtended (b0 ++ payload) = true := by
  obtain ⟨hwhole, -, hpc, -⟩ := h
  rw [isExtended_iff, List.length_append, u16le_append _ _ 6 (by omega)]
  exact ⟨by omega, hpc⟩

/-! ## What a quickload makes of an input -/

theorem quickload_short (c : Cfg) {b : List Byte} (m : MachineState) (h : b.length < 30) :
    quickload c b m = .error .truncatedHeader :=
  if_pos h

theorem quickload_of_isLegacy (c : Cfg) {b : List Byte} (m : MachineState) (h : isLegacy b = true) :
    quickload c b m = loadLegacy c b m := by
  obtain ⟨hlen, hpc⟩ := isLegacy_iff.1 h
  exact (if_neg (Nat.not_lt.2 hlen)).trans (if_pos hpc)

theorem quickload_of_isExtended (c : Cfg) {b : List Byte} (m : MachineState) (h : isExtended b = true) :
    quickload c b m = loadExtended c b m := by
  obtain ⟨hlen, hpc⟩ := isExtended_iff.1 h
  exact (if_neg (Nat.not_lt.2 hlen)).trans (if_neg (not_not_intro hpc))

/-- The extension header is refused at its mode byte, if no earlier check refuses it (R226, R230). -/
theorem parseExtended_unsupportedMode {c : Cfg} {b : List Byte} (st : Stage) (h : byteAt b 34 ∉ c.supportedHwModes) :
    ∃ e, parseExtended c b st = .error e := by
  rw [parseExtended, if_pos h]
  split
  · exact ⟨_, rfl⟩
  split
  · exact ⟨_, rfl⟩
  split <;> exact ⟨_, rfl⟩

theorem quickload_unsupportedMode {c : Cfg} {b : List Byte} (m : MachineState) (hb : isExtended b = true)
    (h : byteAt b 34 ∉ c.supportedHwModes) : ∃ e, quickload c b m = .error e := by
  obtain ⟨e, he⟩ := parseExtended_unsupportedMode (stageOf m) h
  exact ⟨e, by rw [quickload_of_isExtended c m hb, loadExtended, he]⟩

/-- An input of pages that load is loaded. -/
theorem quickload_pages {c : Cfg} {b0 : List Byte} {pages : List (SnapPage × List Byte)} (m : MachineState)
    (h : ExtendedStart c b0) (hp : ∀ p ∈ pages, p.1.loads p.2) :
    quickload c (b0 ++ pagesBytes pages) m =
      .ok (commit c b0 (u16le b0 32) (stagePages c pages (stageOf m)) m) := by
  rw [quickload_of_isExtended c m (isExtended_append_of_extendedStart h _), loadExtended_pages c b0 pages m h hp]

/-! ## The head of a page (R232-R234) -/

theorem parsePage_truncatedHeader (c : Cfg) {bytes : List Byte} (st : Stage) (h : bytes.length < 3) :
    parsePage c bytes st = .error .truncatedPageHeader :=
  if_pos h

theorem parsePage_uncompressed (c : Cfg) {bytes : List Byte} (st : Stage) (hlen : 3 ≤ bytes.length)
    (h : u16le bytes 0 = 0xFFFF) : parsePage c bytes st = .error .uncompressedPage :=
  (if_neg (Nat.not_lt.2 hlen)).trans (if_pos h)

theorem parsePage_overrun (c : Cfg) {bytes : List Byte} (st : Stage) (hlen : 3 ≤ bytes.length)
    (hmark : u16le bytes 0 ≠ 0xFFFF) (h : bytes.length < 3 + u16le bytes 0) :
    parsePage c bytes st = .error .pageOverrun := by
  have hdata : (bytes.drop 3).length < u16le bytes 0 := by rw [List.length_drop]; omega
  rw [parsePage, if_neg (Nat.not_lt.2 hlen), if_neg hmark, if_pos hdata]

/-- A page whose length is the marker or goes past the input fails. -/
theorem parsePage_badLength (c : Cfg) {bytes : List Byte} (hlen : 3 ≤ bytes.length)
    (h : u16le bytes 0 = 0xFFFF ∨ bytes.length < 3 + u16le bytes 0) : ∃ e, ∀ st, parsePage c bytes st = .error e := by
  by_cases hmark : u16le bytes 0 = 0xFFFF
  · exact ⟨_, fun st => parsePage_uncompressed c st hlen hmark⟩
  · exact ⟨_, fun st => parsePage_overrun c st hlen hmark (h.resolve_left hmark)⟩

/-- A page of no bytes expands to none (R234). -/
theorem emptyPage_loads (n : Byte) : SnapPage.loads { number := n, data := [] } [] :=
  ⟨Nat.zero_lt_succ _, rle_nil false, Nat.zero_le _⟩

/-- No output, nothing written. -/
theorem stagePage_nil (st : Stage) (dest : PageDest) (k : Nat) :
    (stagePage st dest []).ram.read k = st.ram.read k ∧ (stagePage st dest []).junk.read k = st.junk.read k := by
  cases dest with
  | ram bank =>
    refine ⟨?_, rfl⟩
    rw [stagePage_ram, List.length_nil, if_neg (by omega)]
  | junk =>
    refine ⟨rfl, ?_⟩
    rw [stagePage_junk, List.length_nil, if_neg (by omega)]

/-! ## What the load operations answer -/

theorem exec_qload (s : State) (b : List Byte) :
    exec (.qload b) s = live s (finishLoad s (quickload s.cfg b s.m)) := rfl

theorem exec_qloadExt (s : State) {b : List Byte} (hb : isExtended b = true) :
    exec (.qloadExt b) s = live s (finishLoad s (loadExtended s.cfg b s.m)) :=
  congrArg (live s) (if_pos hb)

theorem exec_qloadLegacy (s : State) {b : List Byte} (hb : isLegacy b = true) :
    exec (.qloadLegacy b) s = live s (finishLoad s (loadLegacy s.cfg b s.m)) :=
  congrArg (live s) (if_pos hb)

theorem exec_qload_ok {s : State} {b : List Byte} {n : MachineState} (hs : s.created = true)
    (h : quickload s.cfg b s.m = .ok n) : exec (.qload b) s = .next ((s.setMachine n).setResult .loaded) := by
  rw [exec_qload, live_created _ hs, h, finishLoad]

theorem exec_qload_error {s : State} {b : List Byte} {e : LoadCause} (hs : s.created = true)
    (h : quickload s.cfg b s.m = .error e) : exec (.qload b) s = .next (s.setResult (.failed (.load e))) := by
  rw [exec_qload, live_created _ hs, h, finishLoad, failWith]

/-- After any pages that load, the load fails as the page at the head of what is left fails. -/
theorem exec_qload_badTail {s : State} {b0 tail : List Byte} {pages : List (SnapPage × List Byte)} {e : LoadCause}
    (hs : s.created = true) (hstart : ExtendedStart s.cfg b0) (hp : ∀ p ∈ pages, p.1.loads p.2) (hne : tail ≠ [])
    (he : ∀ st, parsePage s.cfg tail st = .error e) :
    exec (.qload (b0 ++ pagesBytes pages ++ tail)) s = .next (s.setResult (.failed (.load e))) := by
  apply exec_qload_error hs
  rw [List.append_assoc]
  apply quickload_start_error _ _ _ _ _ hstart
  calc pageLoop s.cfg (pagesBytes pages ++ tail).length (pagesBytes pages ++ tail) (stageOf s.m)
    _ = pageLoop s.cfg tail.length tail (stagePages s.cfg pages (stageOf s.m)) :=
      pageLoop_pages s.cfg pages tail _ _ hp (Nat.le_refl _)
    _ = .error e := pageLoop_error _ _ _ _ (he _) hne

/-- Every well-formed load on a machine ends in `finishLoad` (R243). -/
theorem exec_load_eq_finishLoad {s : State} {i : Instr} (hs : s.created = true) (hwf : i.wellFormed s.cfg = true)
    (hi : ∃ b, i = .qload b ∨ i = .qloadExt b ∨ i = .qloadLegacy b) : ∃ r, exec i s = finishLoad s r := by
  obtain ⟨b, rfl | rfl | rfl⟩ := hi
  · exact ⟨_, (exec_qload s b).trans (live_created _ hs)⟩
  · exact ⟨_, (exec_qloadExt s hwf).trans (live_created _ hs)⟩
  · exact ⟨_, (exec_qloadLegacy s hwf).trans (live_created _ hs)⟩

/-- Settles O45: every load ends in `finishLoad`, which commits or fails as a whole; each listed input fails by the lemma
of its check. -/
theorem quickloadIsAtomic : Obligations.QuickloadIsAtomic := by
  refine ⟨?atomic, ?listed⟩
  case atomic =>
    intro s i hs hwf hi
    obtain ⟨r, hr⟩ := exec_load_eq_finishLoad hs hwf hi
    rw [hr]
    exact (finishLoad_cases s r).imp (fun ⟨n, _, hn⟩ => ⟨n, hn⟩) (fun ⟨e, _, he⟩ => ⟨e, he⟩)
  case listed =>
    rintro s b b0 pages tail hs (hshort | ⟨hlen, hpc, hmode⟩ | ⟨rfl, hstart, hp, hlen, hbad⟩)
    · exact ⟨_, exec_qload_error hs (quickload_short s.cfg s.m hshort)⟩
    · have hext : isExtended b = true := isExtended_iff.2 ⟨by omega, hpc⟩
      obtain ⟨e, he⟩ := quickload_unsupportedMode s.m hext hmode
      exact ⟨e, exec_qload_error hs he⟩
    · have hne : tail ≠ [] := List.ne_nil_of_length_pos (by omega)
      obtain ⟨e, he⟩ := parsePage_badLength s.cfg hlen hbad
      exact ⟨e, exec_qload_badTail hs hstart hp hne he⟩

/-- Settles O46: after the pages that load, the outcome is that of the page loop on what is left, by its length. -/
theorem malformedSnapshotsFail : Obligations.MalformedSnapshotsFail := by
  refine ⟨?shortHeader, fun n => ⟨emptyPage_loads n, stagePage_nil⟩, ?afterPages⟩
  case shortHeader => exact fun s b hs hshort => exec_qload_error hs (quickload_short s.cfg s.m hshort)
  case afterPages =>
    intro s b0 pages tail hs hstart hp
    have hne (h : 0 < tail.length) : tail ≠ [] := List.ne_nil_of_length_pos h
    refine ⟨?whole, ?truncated, ?uncompressed, ?overrun⟩
    case whole =>
      rintro rfl
      rw [List.append_nil]
      exact ⟨_, exec_qload_ok hs (quickload_pages s.m hstart hp)⟩
    case truncated =>
      intro hlen
      exact exec_qload_badTail hs hstart hp (hne (by omega)) fun st => parsePage_truncatedHeader s.cfg st (by omega)
    case uncompressed =>
      intro hlen hmark
      exact exec_qload_badTail hs hstart hp (hne (by omega)) fun st => parsePage_uncompressed s.cfg st hlen hmark
    case overrun =>
      intro hlen hmark hover
      exact exec_qload_badTail hs hstart hp (hne (by omega)) fun st => parsePage_overrun s.cfg st hlen hmark hover

/-- Settles O44: the PC field decides `isLegacy` and `isExtended`, and `quickload` takes the path of each. -/
theorem pcFieldSelectsTheLayout : Obligations.PcFieldSelectsTheLayout := by
  intro s b hlen
  constructor
  · intro hpc
    have hb : isLegacy b = true := isLegacy_iff.2 ⟨hlen, hpc⟩
    rw [exec_qload, exec_qloadLegacy s hb, quickload_of_isLegacy s.cfg s.m hb]
  · intro hpc
    have hb : isExtended b = true := isExtended_iff.2 ⟨hlen, hpc⟩
    rw [exec_qload, exec_qloadExt s hb, quickload_of_isExtended s.cfg s.m hb]

end Sys2Proof.Proofs
end

section
/-! SUPPORT. Where no machine exists, and what INIT makes (70_reset_and_hazards.md R300, R301, R306): every operation on a
machine stands behind `live`, and INIT's outcomes by the size of its ROM image. -/

namespace Sys2Proof.Proofs

open Sys2Proof.Machine

theorem live_not_created {s : State} (o : Out) (h : s.created = false) : live s o = .refused .noMachine := by
  simp [live, h]

/-- The meaning of every operation on a machine stands behind `live`. -/
theorem exec_eq_live {i : Instr} (s : State) (hi : onMachine i = true) : ∃ o, exec i s = live s o := by
  cases i with
  | init | rleEnd | rleRun | rleBadRun | rleLitEd | rleLit => cases hi
  | _ => exact ⟨_, rfl⟩

theorem exec_noMachine {s : State} {i : Instr} (hs : s.created = false) (hi : onMachine i = true) :
    exec i s = .refused .noMachine := by
  obtain ⟨o, ho⟩ := exec_eq_live s hi
  exact ho.trans (live_not_created o hs)

theorem exec_init_ok (s : State) {c : Cfg} {rom : List Byte} (hc : cfgOk c = true)
    (hlen : rom.length = c.romBanks * bankSize) : exec (.init rom c) s = .next (startMachine c rom s) :=
  (if_pos hc).trans (if_pos hlen)

theorem exec_init_badRom (s : State) {c : Cfg} {rom : List Byte} (hc : cfgOk c = true)
    (hlen : rom.length ≠ c.romBanks * bankSize) :
    exec (.init rom c) s = failWith { s with created := false } .badRom :=
  (if_pos hc).trans (if_neg hlen)

theorem exec_init_badCfg (s : State) {c : Cfg} (rom : List Byte) (hc : ¬ cfgOk c = true) :
    exec (.init rom c) s = .refused .badCfg :=
  if_neg hc

/-- INIT leaves a machine only where its two checks, which read its operands alone, pass. -/
theorem exec_init_created {s t : State} {c : Cfg} {rom : List Byte} (h : exec (.init rom c) s = .next t)
    (ht : t.created = true) : cfgOk c = true ∧ rom.length = c.romBanks * bankSize := by
  by_cases hc : cfgOk c = true
  · refine ⟨hc, ?_⟩
    by_contra hlen
    rw [exec_init_badRom s hc hlen] at h
    cases h
    cases ht
  · rw [exec_init_badCfg s rom hc] at h
    cases h

/-- Settles O58: `live` refuses where there is no machine, and the fields `startMachine` sets read INIT's operands alone. -/
theorem noMachineNoOperation : Obligations.NoMachineNoOperation := by
  refine ⟨fun s i hs hi => exec_noMachine hs hi, ?fresh⟩
  case fresh =>
    intro s s' t t' rom c h h' ht
    obtain ⟨hc, hlen⟩ := exec_init_created h ht
    rw [exec_init_ok s hc hlen] at h
    rw [exec_init_ok s' hc hlen] at h'
    cases h
    cases h'
    exact ⟨rfl, rfl, rfl, rfl, rfl⟩

end Sys2Proof.Proofs
end

section
/-! SUPPORT. Packets and pin words (30_encoding.md R91-R94, R107, R108, R114): each form of packet read back, the row of a
pin word by mask and match, and what a malformed word stops. -/

namespace Sys2Proof.Proofs

open Sys2Proof.Machine

/-! ## Packets read back -/

theorem decode_busPacket (c : Cfg) {k : BusClass} {a : Addr} {d : Byte}
    (h : classify (mkPin (kindBits k) d a) = some k) : decode c (busPacket k a d) = .ok (busInstr k a d) :=
  (decodeBus_pinBytes _).trans (decodePin_mkPin k a d h)

theorem decode_linePacket (c : Cfg) (n : Nat) :
    decode c (hostPacket 0x11 (bytesOfNat n)) = .ok (decodeLine c n) := by
  show Except.ok (decodeLine c (natOfBytes (bytesOfNat n))) = _
  rw [natOfBytes_bytesOfNat]

theorem decode_tickPacket (c : Cfg) {w : Pin} (h : (classify w).isSome = true) :
    decode c (hostPacket 0x10 (pinBytes w)) = .ok (.tick w) :=
  (decodeTick_pinBytes w).trans (if_pos h)

/-- A snapshot handed over as such is of the layout its header selects (R108). -/
theorem decodeSnapshot_extended {b : List Byte} (h : isExtended b = true) : decodeSnapshot b = .ok (.qloadExt b) := by
  obtain ⟨hlen, hpc⟩ := isExtended_iff.1 h
  exact (if_neg (Nat.not_lt.2 hlen)).trans (if_pos hpc)

theorem decodeSnapshot_legacy {b : List Byte} (h : isLegacy b = true) : decodeSnapshot b = .ok (.qloadLegacy b) := by
  obtain ⟨hlen, hpc⟩ := isLegacy_iff.1 h
  exact (if_neg (Nat.not_lt.2 hlen)).trans (if_neg hpc)

theorem decodeToken_of_tokenAt {term : Bool} {bytes : List Byte} {t : Token} (h : tokenAt term bytes = some t) :
    decodeToken term bytes = .ok (tokenInstr t) := by
  rw [decodeToken, h]

/-- The operation of a line is its class's row (R102). -/
theorem decodeLine_outside {c : Cfg} {n : Nat} (h : lineClass c n = .outside) : decodeLine c n = .lineOutside n := by
  rw [decodeLine, h]

theorem decodeLine_border {c : Cfg} {n : Nat} (h : lineClass c n = .border) : decodeLine c n = .lineBorder n := by
  rw [decodeLine, h]

theorem decodeLine_bitmap {c : Cfg} {n : Nat} (h : lineClass c n = .bitmap) : decodeLine c n = .lineBitmap n := by
  rw [decodeLine, h]

/-- The kind bits of an IO read or write leave the port to the address (R93). -/
theorem classify_ioRead (a : Addr) (d : Byte) : classify (mkPin 6 d a) = some (readPort a) := classify_mkPin 6 a d

theorem classify_ioWrite (a : Addr) (d : Byte) : classify (mkPin 10 d a) = some (writePort a) := classify_mkPin 10 a d

/-- Settles O4: case by case over the 32 rows, each by the lemma of its form of packet. -/
theorem decodeOfEncodeIsTheOperation : Obligations.DecodeOfEncodeIsTheOperation := by
  intro c i hwf
  have hio {k : BusClass} {a : Addr} {d : Byte} {port : BusClass} (h : classify (mkPin (kindBits k) d a) = some port)
      (hport : (port == k) = true) : decode c (busPacket k a d) = .ok (busInstr k a d) :=
    decode_busPacket c (h.trans (congrArg some (eq_of_beq hport)))
  cases i with
  | mrd a d => exact decode_busPacket c (classify_mkPin 5 a d)
  | mwr a d => exact decode_busPacket c (classify_mkPin 9 a d)
  | irdUla a d => exact hio (k := .irdUla) (classify_ioRead a d) hwf
  | iwrUla a d => exact hio (k := .iwrUla) (classify_ioWrite a d) hwf
  | irdJoy a d => exact hio (k := .irdJoy) (classify_ioRead a d) hwf
  | irdOpen a d => exact hio (k := .irdOpen) (classify_ioRead a d) hwf
  | iwrOpen a d => exact hio (k := .iwrOpen) (classify_ioWrite a d) hwf
  | idle a d => exact decode_busPacket c (classify_mkPin 0 a d)
  | noaccM a d => exact decode_busPacket c (classify_mkPin 1 a d)
  | noaccIo a d => exact decode_busPacket c (classify_mkPin 2 a d)
  | execUs us => exact congrArg (Except.ok ∘ Instr.execUs) (natOfBytes_bytesOfNat us)
  | restore k => exact congrArg (Except.ok ∘ Instr.restore) (natOfBytes_bytesOfNat k)
  | jmode m => cases m <;> rfl
  | joy mm => exact decodeMask_encoded mm
  | tick w => exact decode_tickPacket c hwf
  | lineOutside n => exact (decode_linePacket c n).trans (congrArg _ (decodeLine_outside (eq_of_beq hwf)))
  | lineBorder n => exact (decode_linePacket c n).trans (congrArg _ (decodeLine_border (eq_of_beq hwf)))
  | lineBitmap n => exact (decode_linePacket c n).trans (congrArg _ (decodeLine_bitmap (eq_of_beq hwf)))
  | qloadExt b => exact decodeSnapshot_extended hwf
  | qloadLegacy b => exact decodeSnapshot_legacy hwf
  | rleEnd => exact decodeToken_of_tokenAt (tokenAt_stop [])
  | rleRun cc vv => exact decodeToken_of_tokenAt (tokenAt_run false cc vv [])
  | rleBadRun cc => cases cc <;> rfl
  | rleLitEd => rfl
  | rleLit b =>
    have hb : b ≠ 0xED := bne_iff_ne.1 hwf
    exact decodeToken_of_tokenAt (tokenAt_lit false b [] hb fun ⟨hterm, _⟩ => nomatch hterm)
  | init | reset | keydn | keyup | qload | save | dinfo => rfl

/-- Settles O1: each word is a closed term, which the decoder evaluates. -/
theorem tableWordsDecode : Obligations.TableWordsDecode := by
  unfold Obligations.TableWordsDecode
  decide

/-! ## The row of a pin word by mask and match (R92, R93) -/

/-- A pin word's class is read from its kind bits and its address alone. -/
theorem classify_fields (w : Pin) (d : Byte) : classify (mkPin (pinKind w) d (pinAddr w)) = classify w := by
  simp only [classify, pinKind_mkPin, pinAddr_mkPin]

theorem classify_eq_some_iff (w : Pin) (k : BusClass) :
    classify w = some k ↔ pinKind w = kindBits k ∧ classify (mkPin (kindBits k) 0 (pinAddr w)) = some k := by
  constructor
  · intro h
    have hk := kindBits_of_classify w k h
    exact ⟨hk, by rw [← hk, classify_fields, h]⟩
  · rintro ⟨hk, h⟩
    rwa [← hk, classify_fields] at h

/-- A mask over the kind bits and some address bits, field by field. -/
theorem and_mask_eq_iff (w : Pin) (k : BitVec 4) (m v : Addr) :
    w &&& mkPin 0xF 0 m = mkPin k 0 v ↔ pinKind w = k ∧ pinAddr w &&& m = v := by
  have hkind : pinKind w &&& 0xF = pinKind w := BitVec.and_allOnes
  have hdata : pinData w &&& 0 = 0 := BitVec.and_zero
  rw [← mkPin_fields w, mkPin_and, mkPin_inj, mkPin_fields, hkind, hdata]
  tauto

/-- The class of a pin word, once its row's address bits are known. -/
theorem classify_iff_mask {w : Pin} {k : BusClass} {m v : Addr}
    (h : classify (mkPin (kindBits k) 0 (pinAddr w)) = some k ↔ pinAddr w &&& m = v) :
    classify w = some k ↔ w &&& mkPin 0xF 0 m = mkPin (kindBits k) 0 v := by
  rw [classify_eq_some_iff, and_mask_eq_iff, h]

/-- A row that looks at no address bit. -/
theorem classify_iff_kind {w : Pin} {k : BusClass} (h : classify (mkPin (kindBits k) 0 (pinAddr w)) = some k) :
    classify w = some k ↔ w &&& mkPin 0xF 0 0 = mkPin (kindBits k) 0 0 :=
  classify_iff_mask (iff_of_true h BitVec.and_zero)

theorem and_one_eq_zero_iff (a : Addr) : a &&& 1 = 0 ↔ a.getLsbD 0 = false := by
  rw [Laws.addr_and_one]
  cases a.getLsbD 0 <;> decide

theorem and_one_eq_one_iff (a : Addr) : a &&& 1 = 1 ↔ a.getLsbD 0 = true := by
  rw [Laws.addr_and_one]
  cases a.getLsbD 0 <;> decide

/-- The joystick's mask over the low address byte: A0 set and A7:5 clear (decision D6). -/
theorem and_joy_eq_one_iff (a : Addr) : a &&& 0xE1 = 1 ↔ a.getLsbD 0 = true ∧ a.extractLsb' 5 3 = 0 := by
  refine ⟨fun h => ?_, fun ⟨h0, h5⟩ => Laws.addr_and_joy a h0 h5⟩
  have bit (k : Nat) : (a.getLsbD k && (0xE1 : Addr).getLsbD k) = (1 : Addr).getLsbD k := by
    rw [← BitVec.getLsbD_and, h]
  refine ⟨by simpa using bit 0, BitVec.eq_of_getLsbD_eq fun i hi => ?_⟩
  rw [BitVec.getLsbD_extractLsb', decide_eq_true hi, Bool.true_and]
  match i, hi with
  | 0, _ => simpa using bit 5
  | 1, _ => simpa using bit 6
  | 2, _ => simpa using bit 7

/-- Which port an address selects, by its low bits (R93). -/
theorem readPort_eq_irdUla_iff (a : Addr) : readPort a = .irdUla ↔ a.getLsbD 0 = false := by
  unfold readPort
  split
  · simp_all
  · split <;> simp_all

theorem readPort_eq_irdJoy_iff (a : Addr) : readPort a = .irdJoy ↔ a.getLsbD 0 = true ∧ a.extractLsb' 5 3 = 0 := by
  unfold readPort
  split
  · simp_all
  · split <;> simp_all

theorem readPort_eq_irdOpen_iff (a : Addr) : readPort a = .irdOpen ↔ a.getLsbD 0 = true ∧ a.extractLsb' 5 3 ≠ 0 := by
  unfold readPort
  split
  · simp_all
  · split <;> simp_all

theorem writePort_eq_iwrUla_iff (a : Addr) : writePort a = .iwrUla ↔ a.getLsbD 0 = false := by
  unfold writePort
  split <;> simp_all

theorem writePort_eq_iwrOpen_iff (a : Addr) : writePort a = .iwrOpen ↔ a.getLsbD 0 = true := by
  unfold writePort
  split <;> simp_all

/-- An IO read's row, from the port its address selects. -/
theorem classify_ioRead_iff (a : Addr) (k : BusClass) : classify (mkPin 6 0 a) = some k ↔ readPort a = k := by
  rw [classify_ioRead, Option.some_inj]

theorem classify_ioWrite_iff (a : Addr) (k : BusClass) : classify (mkPin 10 0 a) = some k ↔ writePort a = k := by
  rw [classify_ioWrite, Option.some_inj]

/-- Settles O3: mask and match, field by field; IRD.OPEN is what IRD.JOY leaves of the odd addresses. -/
theorem busRowsAreMaskAndMatch : Obligations.BusRowsAreMaskAndMatch := by
  intro w
  refine ⟨classify_iff_kind (k := .mrd) (classify_mkPin 5 _ 0), classify_iff_kind (k := .mwr) (classify_mkPin 9 _ 0),
    classify_iff_mask (k := .irdUla) (m := 1) (v := 0) ?ulaRead,
    classify_iff_mask (k := .iwrUla) (m := 1) (v := 0) ?ulaWrite,
    classify_iff_mask (k := .irdJoy) (m := 0xE1) (v := 1) ?joyRead, ?openRead,
    classify_iff_mask (k := .iwrOpen) (m := 1) (v := 1) ?openWrite,
    classify_iff_kind (k := .idle) (classify_mkPin 0 _ 0), classify_iff_kind (k := .noaccM) (classify_mkPin 1 _ 0),
    classify_iff_kind (k := .noaccIo) (classify_mkPin 2 _ 0)⟩
  case ulaRead => rw [kindBits, classify_ioRead_iff, readPort_eq_irdUla_iff, and_one_eq_zero_iff]
  case ulaWrite => rw [kindBits, classify_ioWrite_iff, writePort_eq_iwrUla_iff, and_one_eq_zero_iff]
  case joyRead => rw [kindBits, classify_ioRead_iff, readPort_eq_irdJoy_iff, and_joy_eq_one_iff]
  case openWrite => rw [kindBits, classify_ioWrite_iff, writePort_eq_iwrOpen_iff, and_one_eq_one_iff]
  case openRead =>
    have hodd : w &&& 0x0F000001 = 0x06000001 ↔ pinKind w = 6 ∧ pinAddr w &&& 1 = 1 := and_mask_eq_iff w 6 1 1
    have hjoy : w &&& 0x0F0000E1 = 0x06000001 ↔ pinKind w = 6 ∧ pinAddr w &&& 0xE1 = 1 := and_mask_eq_iff w 6 0xE1 1
    rw [classify_eq_some_iff, hodd, hjoy, kindBits, classify_ioRead_iff, readPort_eq_irdOpen_iff, and_one_eq_one_iff,
      and_joy_eq_one_iff]
    tauto

/-! ## Malformed words (R94, R150) -/

theorem tickWith_malformed {w : Pin} (s : State) (h : classify w = none) :
    tickWith w s = .refused .malformedTransaction := by
  simp only [tickWith, dispatch, h, andThen]

/-- A run of ticks stops at the first malformed answer, if it gets as far. -/
theorem runTicks_malformed {w : Pin} {ws : List Pin} (hw : classify w = none) (pre : List Pin) (n : Nat) (s : State)
    (hs : s.created = true) (hin : s.engineIn = pre ++ w :: ws) (hpre : ∀ x ∈ pre, (classify x).isSome = true)
    (hn : pre.length < n) : runTicks n s = .refused .malformedTransaction := by
  induction pre generalizing n s with
  | nil =>
    obtain ⟨n, rfl⟩ := Nat.exists_eq_succ_of_ne_zero (Nat.ne_zero_of_lt hn)
    have hanswer : engineAnswer s = w := by simp [engineAnswer, hin]
    rw [runTicks_succ, hanswer, tickWith_malformed _ hw, andThen]
  | cons x pre ih =>
    obtain ⟨n, rfl⟩ := Nat.exists_eq_succ_of_ne_zero (Nat.ne_zero_of_lt hn)
    have hanswer : engineAnswer s = x := by simp [engineAnswer, hin]
    obtain ⟨u, hu⟩ := tickWith_completes (s := takeAnswer s) (hpre x List.mem_cons_self) hs
    obtain ⟨hcreated, -, hengine, -⟩ := tickWith_frame hu
    rw [runTicks_succ, hanswer, hu, andThen_ok]
    refine ih n u (hcreated.trans hs) ?_ (fun y hy => hpre y (List.mem_cons_of_mem _ hy)) (Nat.lt_of_succ_lt_succ hn)
    rw [hengine]
    simp [takeAnswer, hin]

theorem step_malformed {s : State} {w : Pin} {rest : List Packet} (hw : classify w = none)
    (hi : s.inbox = { fmt := .bus28, bytes := pinBytes w, cfg := none } :: rest) :
    step s = .refused (.undecodable .malformedTransaction) := by
  simp only [step, fetch, hi, decode, decodeBus_pinBytes, decodePin, hw]

/-- Settles O2: the kind bits of R94, and each of the three places a malformed word can stand. -/
theorem malformedPinWordsAreRefused : Obligations.MalformedPinWordsAreRefused := by
  refine ⟨classify_eq_none, ?_, nofun⟩
  intro w s hw hs
  refine ⟨(live_created _ hs).trans (tickWith_malformed s hw), ?exec, fun rest => step_malformed hw rfl⟩
  case exec =>
    intro us pre ws hin hpre hlen
    refine (live_created _ hs).trans ?_
    rw [runTicks_malformed hw pre _ s hs hin hpre hlen, andThen]

end Sys2Proof.Proofs
end

section
/-! SUPPORT. Steps and the invariants of 10_state.md R47: what a step runs, and that every operation, alone or inside a tick,
keeps the invariants on the machine and on every record. -/

namespace Sys2Proof.Proofs

open Sys2Proof.Machine

/-! ## What a step runs -/

/-- A host call or snapshot runs alone, its packet taken. -/
theorem aroundItem_of_ne_bus28 {p : Packet} (run : State → Out) (s : State) (h : p.fmt ≠ .bus28) :
    aroundItem p run s = run (takePacket s) := by
  unfold aroundItem
  split
  · contradiction
  all_goals rfl

theorem step_of_decode {s : State} {p : Packet} {rest : List Packet} {i : Instr} (hi : s.inbox = p :: rest)
    (hd : decode s.cfg p = .ok i) : step s = aroundItem p (exec i) s := by
  simp only [step, fetch, hi, hd]

/-- Settles O5: `aroundItem` of a packet that is no bus item is the operation alone. -/
theorem stepRunsTheDecodedHostItem : Obligations.StepRunsTheDecodedHostItem := by
  intro s p rest i hi hp hd
  rw [step_of_decode hi hd, aroundItem_of_ne_bus28 _ _ hp, takePacket, hi, List.tail_cons]

/-- A pin word with an operation is well formed, and its operation is that of its class. -/
theorem decodePin_ok {w : Pin} {i : Instr} (h : decodePin w = .ok i) :
    ∃ k, classify w = some k ∧ i = busInstr k (pinAddr w) (pinData w) := by
  unfold decodePin at h
  split at h
  · next k hk => exact ⟨k, hk, (Except.ok.inj h).symm⟩
  · cases h

theorem classify_isSome_of_decodePin {w : Pin} {i : Instr} (h : decodePin w = .ok i) : (classify w).isSome = true := by
  obtain ⟨k, hk, -⟩ := decodePin_ok h
  rw [hk, Option.isSome_some]

/-- The transaction a pin word decodes to completes on a machine. -/
theorem exec_completes_of_decodePin {w : Pin} {i : Instr} {s : State} (h : decodePin w = .ok i) (hs : s.created = true) :
    ∃ u, exec i s = .next u := by
  obtain ⟨k, -, rfl⟩ := decodePin_ok h
  exact busInstr_completes k _ _ s hs

/-- Settles O6: a bus item is `tickWith` of its word, which is TICK. -/
theorem stepRunsABusItemAsOneTick : Obligations.StepRunsABusItemAsOneTick := by
  intro s w rest i hs hi hd
  have hw : decodePin w = .ok i := (decodeBus_pinBytes w).symm.trans hd
  have hstep : step s = exec (.tick w) (s.setInbox rest) :=
    (step_busItem s w rest (classify_isSome_of_decodePin hw) hi).trans (live_created _ hs).symm
  obtain ⟨u, hu⟩ := exec_completes_of_decodePin (s := beginTick w (s.setInbox rest)) hw hs
  exact ⟨hstep, u, hu, hstep.trans (exec_tick_of_transaction hs hw hu)⟩

/-- Settles O7. -/
theorem stepWithNothingCalled : Obligations.StepWithNothingCalled :=
  fun s hi => ⟨fun t hs ht => step_token s t hi hs ht, step_idle s hi⟩

/-! ## The invariants after reset -/

/-- Zeros are not listed. -/
theorem cellsFrom_replicate_zero (base n : Nat) : cellsFrom base (List.replicate n 0) = [] := by
  induction n generalizing base with
  | zero => rfl
  | succ n ih => exact ih (base + 1)

theorem cfgOk_default : cfgOk Cfg.default = true := by decide

/-- The reset machine is INIT's, from a ROM image of zeros (log entry 3). -/
theorem reset_machine_eq (n : Nat) : State.reset.m = initMachine Cfg.default (List.replicate n 0) := by
  rw [initMachine, installRom, cellsFrom_replicate_zero]
  rfl

/-- An image of 16384 bytes is one bank, the size the default configuration asks for. -/
theorem zeros_length : (List.replicate 16384 (0 : Byte)).length = Cfg.default.romBanks * bankSize := by
  rw [List.length_replicate]
  rfl

theorem reset_inv : State.reset.Inv where
  cfg_ok := cfgOk_default
  machine := by
    have h := initMachine_inv Cfg.default _ cfgOk_default zeros_length
    rwa [← reset_machine_eq] at h
  records := fun _ hr => absurd hr List.not_mem_nil

/-- Settles O8: the reset machine is the one INIT makes, and INIT's machine has the invariants. -/
theorem resetMeetsTheInvariants : Obligations.ResetMeetsTheInvariants :=
  ⟨reset_inv, fun s => ⟨_, exec_init_ok s cfgOk_default zeros_length, (reset_machine_eq 16384).symm, rfl, rfl, rfl, rfl⟩⟩

/-! ## Every operation keeps the invariants -/

/-- Where configuration and records stay, the machine alone decides. -/
theorem inv_of_machine {s t : State} (h : s.Inv) (hcfg : t.cfg = s.cfg) (hrecords : t.records = s.records)
    (hm : t.m.Inv s.cfg) : t.Inv where
  cfg_ok := by rw [hcfg]; exact h.cfg_ok
  machine := by rw [hcfg]; exact hm
  records := by rw [hrecords]; exact h.records

theorem recordOf_inv {s : State} (h : s.Inv) : (recordOf s).machine.Inv (recordOf s).savedUnder := h.machine

theorem exec_init_inv {s t : State} {rom : List Byte} {c : Cfg} (h : s.Inv) (ht : exec (.init rom c) s = .next t) :
    t.Inv := by
  by_cases hc : cfgOk c = true
  · by_cases hlen : rom.length = c.romBanks * bankSize
    · rw [exec_init_ok s hc hlen] at ht
      cases ht
      exact ⟨hc, initMachine_inv c rom hc hlen, h.records⟩
    · rw [exec_init_badRom s hc hlen] at ht
      cases ht
      exact ⟨h.cfg_ok, h.machine, h.records⟩
  · rw [exec_init_badCfg s rom hc] at ht
    cases ht

theorem exec_tick_next {s t : State} {w : Pin} (h : exec (.tick w) s = .next t) : tickWith w s = .next t :=
  (live_next h).2

/-- EXEC is its ticks, then its result. -/
theorem exec_execUs_next {s t : State} {us : Nat} (h : exec (.execUs us) s = .next t) :
    ∃ u, runTicks (usToTicks s.cfg us) s = .next u ∧ t = u.setResult (.ticks (usToTicks s.cfg us)) := by
  obtain ⟨u, hu, ht⟩ := andThen_next (live_next h).2
  cases ht
  exact ⟨u, hu, rfl⟩

theorem exec_execUs_inv {s t : State} {us : Nat} (h : s.Inv) (ht : exec (.execUs us) s = .next t) : t.Inv := by
  obtain ⟨u, hu, rfl⟩ := exec_execUs_next ht
  obtain ⟨-, hcfg, -, -, hrecords, -⟩ := runTicks_frame hu
  have hm := runTicks_inv h.cfg_ok h.machine hu
  exact inv_of_machine h hcfg hrecords hm

theorem loaded_refl (m : MachineState) : Loaded m m := ⟨rfl, fun hram hjunk => ⟨hram, hjunk⟩⟩

/-- A load's end, failed or not, is within what a load can do to the machine; beside it the result alone changes. -/
theorem finishLoad_loaded {s t : State} {r : Except LoadCause MachineState} (hr : ∀ n, r = .ok n → Loaded s.m n)
    (ht : finishLoad s r = .next t) :
    Loaded s.m t.m ∧ t.cfg = s.cfg ∧ t.records = s.records ∧ t.trace = s.trace := by
  obtain ⟨n, hn, hfin⟩ | ⟨e, -, hfin⟩ := finishLoad_cases s r
  · rw [hfin] at ht
    cases ht
    exact ⟨hr n hn, rfl, rfl, rfl⟩
  · rw [hfin] at ht
    cases ht
    exact ⟨loaded_refl s.m, rfl, rfl, rfl⟩

/-- What the three load operations can do. -/
theorem exec_load_loaded {s t : State} {i : Instr} (hi : ∃ b, i = .qload b ∨ i = .qloadExt b ∨ i = .qloadLegacy b)
    (ht : exec i s = .next t) : Loaded s.m t.m ∧ t.cfg = s.cfg ∧ t.records = s.records ∧ t.trace = s.trace := by
  obtain ⟨b, rfl | rfl | rfl⟩ := hi
  · exact finishLoad_loaded (fun n => quickload_loaded s.cfg b s.m n) (live_next ht).2
  · have ht := (live_next ht).2
    split at ht
    · exact finishLoad_loaded (fun n => loadExtended_loaded s.cfg b s.m n) ht
    · cases ht
  · have ht := (live_next ht).2
    split at ht
    · exact finishLoad_loaded (fun n => loadLegacy_loaded s.cfg b s.m n) ht
    · cases ht

theorem exec_load_inv {s t : State} {i : Instr} (hi : ∃ b, i = .qload b ∨ i = .qloadExt b ∨ i = .qloadLegacy b)
    (h : s.Inv) (ht : exec i s = .next t) : t.Inv := by
  obtain ⟨hloaded, hcfg, hrecords, -⟩ := exec_load_loaded hi ht
  exact inv_of_machine h hcfg hrecords (loaded_inv s.cfg hloaded h.machine)

/-- What RESTORE answers: a version failure, or the record's machine where record and machine have one configuration. -/
theorem exec_restore_next {s t : State} {k : Nat} (h : exec (.restore k) s = .next t) :
    ∃ r, s.records[k]? = some r ∧
      (t = s.setResult (.failed .versionMismatch) ∨
        r.savedUnder = s.cfg ∧ t = (s.setMachine r.machine).setResult .restored) := by
  have h := (live_next h).2
  split at h
  · next r hr =>
    refine ⟨r, hr, ?_⟩
    unfold restoreRecord at h
    split at h
    · cases h
      exact .inl rfl
    · split at h
      · cases h
      · next hcfg =>
        cases h
        exact .inr ⟨not_not.1 hcfg, rfl⟩
  · cases h

theorem exec_restore_inv {s t : State} {k : Nat} (h : s.Inv) (ht : exec (.restore k) s = .next t) : t.Inv := by
  obtain ⟨r, hr, rfl | ⟨hcfg, rfl⟩⟩ := exec_restore_next ht
  · exact inv_of_machine h rfl rfl h.machine
  · have hm := h.records r (List.mem_of_getElem? hr)
    rw [hcfg] at hm
    exact inv_of_machine h rfl rfl hm

theorem exec_save_inv {s t : State} (h : s.Inv) (ht : exec .save s = .next t) : t.Inv := by
  obtain ⟨-, ⟨⟩⟩ := live_next (o := .next _) ht
  refine ⟨h.cfg_ok, h.machine, fun r hr => ?_⟩
  obtain hr | hr := List.mem_append.1 hr
  · exact h.records r hr
  · rw [List.mem_singleton.1 hr]
    exact recordOf_inv h

/-- LINE in its own class is the line decode. -/
theorem exec_line_next {s t : State} {n : Nat} {i : Instr}
    (hi : i = .lineOutside n ∨ i = .lineBorder n ∨ i = .lineBitmap n) (h : exec i s = .next t) :
    t = s.setMachine (drawLine s.cfg n s.m) := by
  have hrow : s.created = true ∧ i = decodeLine s.cfg n := by
    obtain rfl | rfl | rfl := hi <;> obtain ⟨hs, h⟩ := live_next h <;> split at h
    · next hclass => exact ⟨hs, (decodeLine_outside hclass).symm⟩
    · cases h
    · next hclass => exact ⟨hs, (decodeLine_border hclass).symm⟩
    · cases h
    · next hclass => exact ⟨hs, (decodeLine_bitmap hclass).symm⟩
    · cases h
  obtain ⟨hs, hi⟩ := hrow
  rw [hi, exec_decodeLine n s hs] at h
  cases h
  rfl

/-- A bus row stays within its frame, which keeps the invariants. -/
theorem exec_bus_inv {s t : State} (k : BusClass) (a : Addr) (d : Byte) (h : s.Inv)
    (ht : exec (busInstr k a d) s = .next t) : t.Inv :=
  have hf := busInstr_frame k a d s t ht
  inv_of_machine h hf.cfg hf.records (busFrame_inv s.cfg hf h.machine)

theorem exec_line_inv {s t : State} {n : Nat} {i : Instr}
    (hi : i = .lineOutside n ∨ i = .lineBorder n ∨ i = .lineBitmap n) (h : s.Inv) (ht : exec i s = .next t) : t.Inv := by
  obtain rfl := exec_line_next hi ht
  exact inv_of_machine h rfl rfl (drawLine_inv s.cfg n s.m h.cfg_ok h.machine)

/-- Every operation keeps the invariants, from every state that has them. -/
theorem exec_keeps_inv {i : Instr} {s t : State} (h : s.Inv) (ht : exec i s = .next t) : t.Inv := by
  have hm := h.machine
  cases i with
  | mrd a d => exact exec_bus_inv .mrd a d h ht
  | mwr a d => exact exec_bus_inv .mwr a d h ht
  | irdUla a d => exact exec_bus_inv .irdUla a d h ht
  | iwrUla a d => exact exec_bus_inv .iwrUla a d h ht
  | irdJoy a d => exact exec_bus_inv .irdJoy a d h ht
  | irdOpen a d => exact exec_bus_inv .irdOpen a d h ht
  | iwrOpen a d => exact exec_bus_inv .iwrOpen a d h ht
  | idle a d => exact exec_bus_inv .idle a d h ht
  | noaccM a d => exact exec_bus_inv .noaccM a d h ht
  | noaccIo a d => exact exec_bus_inv .noaccIo a d h ht
  | init rom c => exact exec_init_inv h ht
  | reset =>
    obtain ⟨-, ⟨⟩⟩ := live_next (o := .next _) ht
    exact inv_of_machine h rfl rfl (resetMachine_inv s.cfg s.m h.cfg_ok hm)
  | execUs us => exact exec_execUs_inv h ht
  | keydn cc =>
    obtain ⟨-, ⟨⟩⟩ := live_next (o := .next _) ht
    exact inv_of_machine h rfl rfl (keyDown_inv s.cfg s.m cc hm)
  | keyup cc =>
    obtain ⟨-, ⟨⟩⟩ := live_next (o := .next _) ht
    exact inv_of_machine h rfl rfl (keyUp_inv s.cfg s.m cc hm)
  | jmode mode =>
    obtain ⟨-, ⟨⟩⟩ := live_next (o := .next _) ht
    exact inv_of_machine h rfl rfl ⟨hm.counter_pos, hm.counter_le, hm.line_lt, hm.hold_le, hm.line_iff_hold, hm.ram_wf,
      hm.rom_wf, hm.junk_wf, hm.fb_wf, hm.keys_sorted⟩
  | joy mm =>
    obtain ⟨-, ⟨⟩⟩ := live_next (o := .next _) ht
    exact inv_of_machine h rfl rfl (joystick_inv s.cfg s.m mm hm)
  | qload b => exact exec_load_inv ⟨b, .inl rfl⟩ h ht
  | save => exact exec_save_inv h ht
  | restore k => exact exec_restore_inv h ht
  | dinfo =>
    obtain ⟨-, ⟨⟩⟩ := live_next (o := .next _) ht
    exact inv_of_machine h rfl rfl hm
  | tick w =>
    have ht := exec_tick_next ht
    obtain ⟨-, hcfg, -, -, -, hrecords, -⟩ := tickWith_frame ht
    exact inv_of_machine h hcfg hrecords (tickWith_inv h.cfg_ok hm ht)
  | lineOutside n => exact exec_line_inv (.inl rfl) h ht
  | lineBorder n => exact exec_line_inv (.inr (.inl rfl)) h ht
  | lineBitmap n => exact exec_line_inv (.inr (.inr rfl)) h ht
  | qloadExt b => exact exec_load_inv ⟨b, .inr (.inl rfl)⟩ h ht
  | qloadLegacy b => exact exec_load_inv ⟨b, .inr (.inr rfl)⟩ h ht
  | rleEnd | rleRun cc vv | rleBadRun cc | rleLitEd | rleLit b =>
    cases ht
    exact inv_of_machine h rfl rfl hm

/-! ## Every step keeps them -/

theorem beginTick_inv (w : Pin) {s : State} (h : s.Inv) : (beginTick w s).Inv :=
  inv_of_machine h rfl rfl (setCpu_inv s.cfg s.m _ h.machine)

theorem endTick_inv {s : State} (h : s.Inv) : (endTick s).Inv :=
  inv_of_machine h rfl rfl (rasterStep_inv s.cfg s.m h.cfg_ok h.machine)

/-- Settles O9: what a step runs is one operation, alone or between the two halves of a tick, and each part keeps the
invariants. -/
theorem stepKeepsTheInvariants : Obligations.StepKeepsTheInvariants := by
  intro s t h ht
  have htake : (takePacket s).Inv := inv_of_machine h rfl rfl h.machine
  obtain ⟨-, rfl⟩ | ⟨p, i, -, -, hrun⟩ := step_cases ht
  · exact h
  · obtain ⟨-, hexec⟩ | ⟨-, u, hexec, rfl⟩ := aroundItem_next hrun
    · exact exec_keeps_inv htake hexec
    · exact endTick_inv (exec_keeps_inv (beginTick_inv _ htake) hexec)

end Sys2Proof.Proofs
end

section
/-! SUPPORT. Bus transactions (20_memory.md, 40_bus_dispatcher.md, 60_exceptions.md R283): the bank map, the state each of the
ten bus rows answers, the bits of a port read, and the frame of a transaction on both sides: what it changes and what it
sees. -/

namespace Sys2Proof.Proofs

open Sys2Proof.Machine

/-! ## The bank map (20_memory.md R60-R62) -/

/-- Bank and offset determine the address: together they are its two halves. -/
theorem addr_eq_of_bankOf {a b : Addr} (hbank : bankOf a = bankOf b) (hoff : offsetOf a = offsetOf b) : a = b := by
  rw [offsetOf_eq, offsetOf_eq] at hoff
  rw [bankOf_eq, bankOf_eq] at hbank
  have ha := a.isLt
  have hb := b.isLt
  apply BitVec.eq_of_toNat_eq
  split at hbank <;> split at hbank
  · omega
  · cases hbank
  · cases hbank
  · have hslot := Bank.ram.inj hbank
    omega

theorem bankOf_rom_iff {a : Addr} : (∃ b, bankOf a = .rom b) ↔ a.toNat < 0x4000 := by
  rw [bankOf_eq]
  split <;> simp_all

theorem bankOf_ram_iff {a : Addr} {b : Nat} : bankOf a = .ram b ↔ 0x4000 ≤ a.toNat ∧ a.toNat / 16384 = b + 1 := by
  rw [bankOf_eq]
  split
  · simp only [reduceCtorEq, false_iff]
    omega
  · simp only [Bank.ram.injEq]
    omega

/-- Settles O11: `bankOf_eq` on each quarter of the address space. -/
theorem everyAddressHasOneBankAndOffset : Obligations.EveryAddressHasOneBankAndOffset := by
  intro a
  have hlt := a.isLt
  refine ⟨?offset, ?rom, fun h1 h2 => bankOf_ram_iff.2 ⟨h1, by omega⟩, fun h1 h2 => bankOf_ram_iff.2 ⟨by omega, by omega⟩,
    fun h => bankOf_ram_iff.2 ⟨by omega, by omega⟩, fun _ => addr_eq_of_bankOf⟩
  case offset => rw [offsetOf_eq]; omega
  case rom => intro h; rw [bankOf_eq, if_pos h]

/-- The key of an address in a RAM bank (decision D3). -/
theorem bankKey_of_ram {a : Addr} {b : Nat} (h : bankOf a = .ram b) : bankKey b (offsetOf a) = a.toNat - 0x4000 := by
  have := bankOf_ram_iff.1 h
  rw [bankKey_offsetOf]
  omega

/-! ## The answer of each bus row -/

/-- The state a bus row answers on a machine. -/
def busAnswer (k : BusClass) (a : Addr) (d : Byte) (s : State) : State :=
  match k with
  | .mrd => s.setBusData (some (memRead s.m a))
  | .mwr => s.setMachine (s.m.setRam (memWrite s.m a d).ram)
  | .irdUla => s.setBusData (some (ulaReadByte s.cfg s.m a))
  | .iwrUla => emitBeeper (s.setMachine ((s.m.setLastUlaOut d).setBorderColor (ulaBorder d))) (ulaBeep d)
  | .irdJoy => s.setBusData (some (joyReadByte s.m))
  | .irdOpen => drawBusByte s
  | .iwrOpen => s
  | .idle => s
  | .noaccM => drawBusByte s
  | .noaccIo => drawBusByte s

theorem exec_busInstr (k : BusClass) (a : Addr) (d : Byte) {s : State} (hs : s.created = true) :
    exec (busInstr k a d) s = .next (busAnswer k a d s) := by
  cases k with
  | mwr =>
    rw [busAnswer, ← memWrite_frame]
    exact live_created _ hs
  | _ => exact live_created _ hs

theorem exec_busInstr_next {k : BusClass} {a : Addr} {d : Byte} {s t : State} (h : exec (busInstr k a d) s = .next t) :
    t = busAnswer k a d s := by
  have hs : s.created = true := by cases k <;> exact (live_next h).1
  rw [exec_busInstr k a d hs] at h
  cases h
  rfl

/-! ## Memory writes (R65, R142) -/

/-- RAM after a bus write, byte by byte. -/
theorem read_memWrite_ram (m : MachineState) (a : Addr) (d : Byte) (k : Nat) :
    (memWrite m a d).ram.read k = if 0x4000 ≤ a.toNat ∧ k = a.toNat - 0x4000 then d else m.ram.read k := by
  rw [memWrite_eq]
  by_cases h : a.toNat < 0x4000
  · rw [if_pos h, if_neg (by omega)]
  · rw [if_neg h, MachineState.setRam_ram, read_writeByte]
    simp only [Nat.not_lt.1 h, true_and]

theorem memWrite_rom (m : MachineState) {a : Addr} (d : Byte) (h : a.toNat < 0x4000) : memWrite m a d = m := by
  rw [memWrite_eq, if_pos h]

/-- Settles O12: MWR answers `memWrite`, which touches RAM alone. -/
theorem memoryWriteStoresOneRamByteOrNothing : Obligations.MemoryWriteStoresOneRamByteOrNothing := by
  intro s a d hs
  refine ⟨(memWrite s.m a d).ram, exec_busInstr .mwr a d hs, read_memWrite_ram s.m a d, fun h => ?_, fun x => ?_⟩
  · rw [memWrite_rom _ d h]
  · rw [← memWrite_frame]
    exact memRead_memWrite s.m a x d

/-! ## Port reads (R144, R146, R147) -/

/-- A half-row is selected where its address bit is 0 (30_encoding.md R97). -/
theorem halfRowSelect_getLsbD (a : Addr) (r : Fin 8) : (halfRowSelect a).getLsbD r = !a.getLsbD (8 + r) := by
  rw [halfRowSelect, BitVec.getLsbD_not, BitVec.getLsbD_extractLsb', decide_eq_true r.isLt, Bool.true_and, Bool.true_and]

theorem tapeBit_eq (m : MachineState) : tapeBit m = (m.lastUlaOut.getLsbD 4 || m.lastUlaOut.getLsbD 3) := by
  have key : ∀ d : Byte, (d &&& 0x18 != 0) = (d.getLsbD 4 || d.getLsbD 3) := by decide +kernel
  exact key m.lastUlaOut

/-- The bits of 1 TAPE 1 KEYS (30_encoding.md R96). -/
theorem ulaByte_bits : ∀ (tape : Bool) (lines : BitVec 5),
    let v : Byte := (1 : BitVec 1) ++ BitVec.ofBool tape ++ (1 : BitVec 1) ++ ~~~ lines
    v.getLsbD 7 = true ∧ v.getLsbD 5 = true ∧ v.getLsbD 6 = tape ∧ ∀ k < 5, v.getLsbD k = !lines.getLsbD k := by
  decide

/-- Settles O13: the byte is `ulaReadByte`, whose lines `selectedLines_getLsbD` gives key by key. -/
theorem ulaReadIsWiredOr : Obligations.UlaReadIsWiredOr := by
  intro s a d hs
  obtain ⟨h7, h5, h6, hkeys⟩ := ulaByte_bits (tapeBit s.m) (selectedLines s.cfg s.m.kbdDown (halfRowSelect a))
  refine ⟨ulaReadByte s.cfg s.m a, exec_busInstr .irdUla a d hs, h7, h5, h6.trans (tapeBit_eq s.m), fun k hk => ?_⟩
  rw [ulaReadByte, hkeys k hk, Bool.not_eq_false', selectedLines_getLsbD _ _ _ _ hk]
  refine exists_congr fun e => and_congr_right fun _ => ?_
  rw [halfRowSelect_getLsbD, Bool.not_eq_true']
  tauto

theorem joyReadByte_getLsbD (m : MachineState) (k : Nat) :
    (joyReadByte m).getLsbD k = (decide (k < 5) && (m.kbdJoymask.getLsbD k || m.joyJoymask.getLsbD k)) := by
  rw [joyReadByte, BitVec.getLsbD_append]
  split <;> simp_all

/-- Settles O15. -/
theorem joystickReadIsTheOrOfTheMasks : Obligations.JoystickReadIsTheOrOfTheMasks :=
  fun s a d hs => ⟨joyReadByte s.m, exec_busInstr .irdJoy a d hs, joyReadByte_getLsbD s.m⟩

/-- An IO read is the operation of the port its address selects (30_encoding.md R93). -/
theorem decodePin_ioRead (a : Addr) (d : Byte) : decodePin (mkPin 6 d a) = .ok (busInstr (readPort a) a d) := by
  simp only [decodePin, classify_ioRead, pinAddr_mkPin, pinData_mkPin]

theorem busInstr_eq_irdOpen_iff (k : BusClass) (a : Addr) (d : Byte) : busInstr k a d = .irdOpen a d ↔ k = .irdOpen := by
  cases k <;> simp [busInstr]

/-- Settles O16: the row is chosen by `readPort`, and its byte is drawn by the counter. -/
theorem openPortReadDrawsAFreeByte : Obligations.OpenPortReadDrawsAFreeByte := by
  refine ⟨fun s a d hs => exec_busInstr .irdOpen a d hs, fun a d => ?_⟩
  rw [decodePin_ioRead, Except.ok.injEq, busInstr_eq_irdOpen_iff, readPort_eq_irdOpen_iff]

/-- Settles O18. -/
theorem noAccessChangesNothing : Obligations.NoAccessChangesNothing :=
  fun _ a d hs => ⟨exec_busInstr .idle a d hs, exec_busInstr .noaccM a d hs, exec_busInstr .noaccIo a d hs⟩

/-! ## What a transaction changes (60_exceptions.md R283) -/

/-- The fields a transaction may reach. -/
theorem busAnswer_frame (k : BusClass) (a : Addr) (d : Byte) (s : State) :
    busAnswer k a d s =
      ((((s.setMachine (((s.m.setRam (busAnswer k a d s).m.ram).setLastUlaOut
        (busAnswer k a d s).m.lastUlaOut).setBorderColor (busAnswer k a d s).m.borderColor)).setBusData
          (busAnswer k a d s).busData).setDraws (busAnswer k a d s).draws).setTrace (busAnswer k a d s).trace) := by
  obtain ⟨created, cfg, m⟩ := s
  cases m
  cases k <;> rfl

theorem busAnswer_ram {k : BusClass} (a : Addr) (d : Byte) (s : State) (hk : k ≠ .mwr) :
    (busAnswer k a d s).m.ram = s.m.ram ∧ (busAnswer k a d s).m.rom = s.m.rom := by
  cases k with
  | mwr => contradiction
  | _ => exact ⟨rfl, rfl⟩

theorem busAnswer_ula {k : BusClass} (a : Addr) (d : Byte) (s : State) (hk : k ≠ .iwrUla) :
    (busAnswer k a d s).m.lastUlaOut = s.m.lastUlaOut ∧ (busAnswer k a d s).m.borderColor = s.m.borderColor ∧
      (busAnswer k a d s).trace = s.trace := by
  cases k with
  | iwrUla => contradiction
  | _ => exact ⟨rfl, rfl, rfl⟩

/-- A row that reads nothing hands over no byte. -/
theorem busAnswer_noRead {k : BusClass} (a : Addr) (d : Byte) (s : State)
    (hk : k = .mwr ∨ k = .iwrUla ∨ k = .iwrOpen ∨ k = .idle) :
    (busAnswer k a d s).busData = s.busData ∧ (busAnswer k a d s).draws = s.draws := by
  obtain rfl | rfl | rfl | rfl := hk <;> exact ⟨rfl, rfl⟩

theorem memRead_congr {m n : MachineState} (a : Addr) (hram : m.ram = n.ram) (hrom : m.rom = n.rom) :
    memRead m a = memRead n a := by
  rw [memRead_eq, memRead_eq, hram, hrom]

/-- An address reads as before under every row but a write to it in RAM. -/
theorem memRead_busAnswer {k : BusClass} {a : Addr} (d : Byte) (s : State) (x : Addr)
    (h : k ≠ .mwr ∨ x ≠ a ∨ ∃ b, bankOf a = .rom b) : memRead (busAnswer k a d s).m x = memRead s.m x := by
  by_cases hk : k = .mwr
  · subst hk
    have hx : ¬ (x = a ∧ 0x4000 ≤ a.toNat) := by
      rw [bankOf_rom_iff] at h
      rintro ⟨rfl, hx⟩
      obtain h | h | h := h
      · contradiction
      · contradiction
      · omega
    have hread := memRead_memWrite s.m a x d
    rw [memWrite_frame, if_neg hx] at hread
    exact hread
  · obtain ⟨hram, hrom⟩ := busAnswer_ram a d s hk
    exact memRead_congr x hram hrom

/-- Settles O19: each clause is a fact about `busAnswer`. -/
theorem transactionsReachOnlyThreeFields : Obligations.TransactionsReachOnlyThreeFields := by
  intro k a d s t h
  rw [exec_busInstr_next h]
  refine ⟨busAnswer_frame k a d s, fun hk => (busAnswer_ram a d s hk).1, fun b => bankKey_of_ram, ?others, ?written,
    memRead_busAnswer d s, busAnswer_ula a d s, ?event, busAnswer_noRead a d s⟩
  case others =>
    rintro rfl j hj
    refine (read_memWrite_ram s.m a d j).trans (if_neg ?_)
    rintro ⟨hram, hkey⟩
    have hb : bankOf a = .ram (a.toNat / 16384 - 1) := bankOf_ram_iff.2 ⟨hram, by omega⟩
    exact hj _ hb (hkey.trans (bankKey_of_ram hb).symm)
  case written =>
    rintro rfl b hb
    rw [bankKey_of_ram hb]
    exact (read_memWrite_ram s.m a d _).trans (if_pos ⟨(bankOf_ram_iff.1 hb).1, rfl⟩)
  case event =>
    rintro rfl
    exact ⟨{ level := ulaBeep d, tick := s.ticks }, rfl, rfl⟩

/-! ## What a transaction sees (60_exceptions.md R283) -/

theorem memWrite_ram_congr {m n : MachineState} (a : Addr) (d : Byte) (h : m.ram = n.ram) :
    (memWrite m a d).ram = (memWrite n a d).ram := by
  rw [memWrite_eq, memWrite_eq]
  split
  · exact h
  · rw [MachineState.setRam_ram, MachineState.setRam_ram, h]

theorem ulaReadByte_congr (c : Cfg) {m n : MachineState} (a : Addr) (hula : m.lastUlaOut = n.lastUlaOut)
    (hkeys : m.kbdDown = n.kbdDown) : ulaReadByte c m a = ulaReadByte c n a := by
  rw [ulaReadByte, ulaReadByte, tapeBit, tapeBit, hula, hkeys]

theorem joyReadByte_congr {m n : MachineState} (hkbd : m.kbdJoymask = n.kbdJoymask) (hjoy : m.joyJoymask = n.joyJoymask) :
    joyReadByte m = joyReadByte n := by
  rw [joyReadByte, joyReadByte, hkbd, hjoy]

/-- Settles O20: every row's answer reads the listed fields alone. -/
theorem transactionsObserveNoHiddenState : Obligations.TransactionsObserveNoHiddenState := by
  intro k a d s m t u hram hrom hula hkeys hkbd hjoy ht hu
  rw [exec_busInstr_next ht, exec_busInstr_next hu]
  cases k with
  | mrd => exact ⟨congrArg some (memRead_congr a hram hrom), rfl, hram, hula⟩
  | irdUla => exact ⟨congrArg some (ulaReadByte_congr s.cfg a hula hkeys), rfl, hram, hula⟩
  | irdJoy => exact ⟨congrArg some (joyReadByte_congr hkbd hjoy), rfl, hram, hula⟩
  | mwr => exact ⟨rfl, rfl, memWrite_ram_congr a d hram, hula⟩
  | iwrUla => exact ⟨rfl, rfl, hram, rfl⟩
  | irdOpen | iwrOpen | idle | noaccM | noaccIo => exact ⟨rfl, rfl, hram, hula⟩

end Sys2Proof.Proofs
end

section
/-! SUPPORT. Line decodes (41_video_decoder.md): outside and bitmap lines, the bytes of a cell in the spec's spelling, the
blink phase, the video offsets, and what a line depends on. -/

namespace Sys2Proof.Proofs

open Sys2Proof.Machine

/-! ## The class of a line (30_encoding.md R102) -/

theorem lineClass_eq_outside {c : Cfg} {n : Nat} (h : n < c.firstFbLine ∨ c.firstFbLine + fbHeight c ≤ n) :
    lineClass c n = .outside := by
  rw [lineClass, fbRow, if_pos (by omega)]

theorem lineClass_eq_bitmap (c : Cfg) {yy : Nat} (hy : yy < 192) :
    lineClass c (c.firstFbLine + (c.topBorderLines + yy)) = .bitmap := by
  have hrow : ¬ (c.firstFbLine + (c.topBorderLines + yy) < c.firstFbLine ∨ fbHeight c ≤ c.topBorderLines + yy) := by
    rw [fbHeight]
    omega
  rw [lineClass, fbRow_firstFbLine_add, if_neg hrow, if_neg (by omega)]

@[simp] theorem bitmapRow_firstFbLine_add (c : Cfg) (yy : Nat) :
    bitmapRow c (c.firstFbLine + (c.topBorderLines + yy)) = yy := by
  rw [bitmapRow, fbRow_firstFbLine_add, Nat.add_sub_cancel_left]

theorem drawLine_outside {c : Cfg} {n : Nat} (m : MachineState) (h : lineClass c n = .outside) : drawLine c n m = m := by
  rw [drawLine, h]

/-- Settles O21: outside the framebuffer the line decode is the identity. -/
theorem outsideLineWritesNothing : Obligations.OutsideLineWritesNothing := by
  intro s n hs hn
  have hclass := lineClass_eq_outside hn
  have hline : exec (decodeLine s.cfg n) s = .next s := by
    rw [exec_decodeLine n s hs, drawLine_outside s.m hclass]
    rfl
  exact ⟨by rwa [decodeLine_outside hclass] at hline, hline⟩

/-! ## Bitmap lines (R163-R168) -/

theorem exec_lineBitmap {s : State} {n : Nat} (hs : s.created = true) (hn : lineClass s.cfg n = .bitmap) :
    exec (.lineBitmap n) s = .next (s.setMachine (drawBitmap s.cfg n s.m)) :=
  (live_created _ hs).trans (if_pos hn)

theorem vidRead_eq (c : Cfg) (m : MachineState) (off : Nat) : vidRead c m off = m.ram.read (16384 * c.videoBank + off) := by
  rw [vidRead, bankKey, bankSize, Nat.mul_comm]

/-- A pixel pair as two nibbles (30_encoding.md R101). -/
theorem pixelPair_eq : ∀ l r : Colour, pixelPair l r = (l.setWidth 8 <<< 4) ||| r.setWidth 8 := by decide +kernel

/-- The bright bit above the colour (30_encoding.md R101). -/
theorem colourIndex_setWidth : ∀ (bright : Bool) (colour : BitVec 3),
    (colourIndex bright colour).setWidth 8 = colour.setWidth 8 ||| if bright then (8 : Byte) else 0 := by decide

theorem colourIndex_ite_setWidth (bright swap : Bool) (x y : BitVec 3) :
    (colourIndex bright (if swap then x else y)).setWidth 8 =
      (if swap then x.setWidth 8 else y.setWidth 8) ||| if bright then (8 : Byte) else 0 := by
  cases swap <;> exact colourIndex_setWidth ..

theorem pixelColour_setWidth (pix : Byte) (fgbg : Colour × Colour) (k : Nat) :
    (pixelColour pix fgbg k).setWidth 8 =
      if pix.getLsbD (7 - k) then fgbg.1.setWidth 8 else fgbg.2.setWidth 8 := by
  rw [pixelColour]
  split <;> rfl

/-- A cell byte: two pixels, the bits of the pixel byte taken from the most significant on (R168). -/
theorem cellByte_eq (pix : Byte) (fgbg : Colour × Colour) (j : Nat) :
    cellByte pix fgbg j =
      ((if pix.getLsbD (7 - 2 * j) then fgbg.1.setWidth 8 else fgbg.2.setWidth 8) <<< 4) |||
        (if pix.getLsbD (7 - 2 * j - 1) then fgbg.1.setWidth 8 else fgbg.2.setWidth 8) := by
  rw [cellByte, pixelPair_eq, pixelColour_setWidth, pixelColour_setWidth, Nat.sub_sub]

/-- Foreground and background (R166), swapped where FLASH is set and the phase is on. -/
theorem colours_setWidth (attr : Byte) (phase : Bool) :
    (colours attr phase).1.setWidth 8 =
        (if attr.getLsbD 7 && phase then (attr.extractLsb' 3 3).setWidth 8 else (attr.extractLsb' 0 3).setWidth 8) |||
          (if attr.getLsbD 6 then (8 : Byte) else 0) ∧
      (colours attr phase).2.setWidth 8 =
        (if attr.getLsbD 7 && phase then (attr.extractLsb' 0 3).setWidth 8 else (attr.extractLsb' 3 3).setWidth 8) |||
          (if attr.getLsbD 6 then (8 : Byte) else 0) :=
  ⟨colourIndex_ite_setWidth .., colourIndex_ite_setWidth ..⟩

theorem cellBytes_getD (c : Cfg) (m : MachineState) (yy x : Nat) {j : Nat} (hj : j < 4) :
    (cellBytes c m yy x).getD j 0 =
      cellByte (vidRead c m (voff yy x)) (colours (vidRead c m (aoff yy x)) (blinkPhase c m)) j := by
  match j, hj with
  | 0, _ => rfl
  | 1, _ => rfl
  | 2, _ => rfl
  | 3, _ => rfl

/-- The framebuffer after a bitmap line, inside its row and elsewhere. -/
theorem drawBitmap_read_row {c : Cfg} (m : MachineState) (yy : Nat) {k : Nat} (hl : c.leftBorderPx % 2 = 0)
    (hr : c.rightBorderPx % 2 = 0) (hk : k < fbStride c) :
    (drawBitmap c (c.firstFbLine + (c.topBorderLines + yy)) m).fb.read ((c.topBorderLines + yy) * fbStride c + k) =
      (bitmapRowBytes c m yy).getD k 0 := by
  rw [drawBitmap_read c _ m _ hl hr, fbRow_firstFbLine_add, bitmapRow_firstFbLine_add,
    if_pos ⟨Nat.le_add_right .., Nat.add_lt_add_left hk _⟩, Nat.add_sub_cancel_left]

theorem drawBitmap_read_other {c : Cfg} (m : MachineState) (yy : Nat) {k : Nat} (hl : c.leftBorderPx % 2 = 0)
    (hr : c.rightBorderPx % 2 = 0)
    (hk : ¬ ((c.topBorderLines + yy) * fbStride c ≤ k ∧ k < (c.topBorderLines + yy) * fbStride c + fbStride c)) :
    (drawBitmap c (c.firstFbLine + (c.topBorderLines + yy)) m).fb.read k = m.fb.read k := by
  rw [drawBitmap_read c _ m _ hl hr, fbRow_firstFbLine_add, if_neg hk]

/-- Settles O23: the row is `bitmapRowBytes`, read at its left border, its cells and its right border. -/
theorem bitmapLineDrawsItsRow : Obligations.BitmapLineDrawsItsRow := by
  intro s yy hs hcfg hyy y base left border
  obtain ⟨-, -, -, hl, hr, -⟩ := cfgOk_parts hcfg
  have hstride := fbStride_eq hl hr
  have hborder : borderByte s.m.borderColor = border := borderByte_eq s.m.borderColor
  refine ⟨(drawBitmap s.cfg (s.cfg.firstFbLine + y) s.m).fb, exec_lineBitmap hs (lineClass_eq_bitmap s.cfg hyy),
    fun k => drawBitmap_read_other s.m yy hl hr, fun k hk => ?left, fun k hk => ?right, fun x hx j hj => ?cell⟩
  case left => rw [drawBitmap_read_row s.m yy hl hr (by omega), bitmapRowBytes_left s.cfg s.m yy k hk, hborder]
  case right =>
    have hpos : left + (128 + k) < fbStride s.cfg := by omega
    rw [Nat.add_assoc, Nat.add_assoc, drawBitmap_read_row s.m yy hl hr hpos, ← Nat.add_assoc,
      bitmapRowBytes_right s.cfg s.m yy k hk, hborder]
  case cell =>
    have hpos : left + (4 * x + j) < fbStride s.cfg := by omega
    obtain ⟨hfg, hbg⟩ := colours_setWidth (vidRead s.cfg s.m (aoff yy x)) (blinkPhase s.cfg s.m)
    rw [Nat.add_assoc, Nat.add_assoc, drawBitmap_read_row s.m yy hl hr hpos, ← Nat.add_assoc,
      bitmapRowBytes_cell s.cfg s.m yy x j hx hj, cellBytes_getD _ _ _ _ hj, cellByte_eq, hfg, hbg, vidRead_eq, vidRead_eq,
      blinkPhase]

/-! ## The blink phase (R166, R170) -/

theorem add_ofNat_eq_ofNat {w : Nat} (x : BitVec w) (n : Nat) : x + BitVec.ofNat w n = BitVec.ofNat w (n + x.toNat) := by
  apply BitVec.eq_of_toNat_eq
  rw [BitVec.toNat_add, BitVec.toNat_ofNat, BitVec.toNat_ofNat, Nat.add_mod_mod, Nat.add_comm]

/-- A full cycle of the blink bit later the phase is the same. -/
theorem blinkPhase_fullCycle {c : Cfg} (m : MachineState) (hb : c.blinkBit < 32) :
    blinkPhase c (m.setBlinkCounter (m.blinkCounter + BitVec.ofNat 32 (2 ^ (c.blinkBit + 1)))) = blinkPhase c m := by
  simp only [blinkPhase, MachineState.setBlinkCounter_blinkCounter]
  rw [add_ofNat_eq_ofNat, BitVec.getLsbD_ofNat, decide_eq_true hb, Bool.true_and,
    Nat.testBit_two_pow_add_gt (Nat.lt_succ_self _), BitVec.testBit_toNat]

/-- Half a cycle later it is the opposite one. -/
theorem blinkPhase_halfCycle {c : Cfg} (m : MachineState) (hb : c.blinkBit < 32) :
    blinkPhase c (m.setBlinkCounter (m.blinkCounter + BitVec.ofNat 32 (2 ^ c.blinkBit))) = !blinkPhase c m := by
  simp only [blinkPhase, MachineState.setBlinkCounter_blinkCounter]
  rw [add_ofNat_eq_ofNat, BitVec.getLsbD_ofNat, decide_eq_true hb, Bool.true_and, Nat.testBit_two_pow_add_eq,
    BitVec.testBit_toNat]

/-- The opposite phase swaps the colours of a cell with FLASH. -/
theorem colours_not_of_flash {attr : Byte} (h : attr.getLsbD 7 = true) (phase : Bool) :
    colours attr (!phase) = (colours attr phase).swap := by
  simp only [colours, attrFlash, h]
  cases phase <;> rfl

theorem colours_of_not_flash {attr : Byte} (h : attr.getLsbD 7 = false) (phase phase' : Bool) :
    colours attr phase = colours attr phase' := by
  simp only [colours, attrFlash, h, Bool.false_and]

/-- Swapped colours draw the complement of the pixels. -/
theorem pixelColour_swap (pix : Byte) (fgbg : Colour × Colour) (k : Nat) :
    pixelColour pix fgbg.swap k = pixelColour (~~~ pix) fgbg k := by
  have hbit : (~~~ pix).getLsbD (7 - k) = !pix.getLsbD (7 - k) := by
    rw [BitVec.getLsbD_not, decide_eq_true (by omega), Bool.true_and]
  rw [pixelColour, pixelColour, hbit]
  cases pix.getLsbD (7 - k) <;> rfl

theorem cellByte_swap (pix : Byte) (fgbg : Colour × Colour) (j : Nat) :
    cellByte pix fgbg.swap j = cellByte (~~~ pix) fgbg j := by
  rw [cellByte, cellByte, pixelColour_swap, pixelColour_swap]

/-- Settles O24: the phase after a full and after half a cycle, and what the phase does to a cell. -/
theorem blinkParity : Obligations.BlinkParity := by
  intro c m yy hcfg
  obtain ⟨-, -, -, -, -, hb, -⟩ := cfgOk_parts hcfg
  refine ⟨?full, fun attr pix j => ⟨fun hflash _ => ?swapped, fun hflash => ?alike⟩⟩
  case full => exact bitmapRowBytes_congr c m _ yy rfl (blinkPhase_fullCycle m hb) (fun _ _ => rfl) (fun _ _ => rfl)
  case swapped => rw [blinkPhase_halfCycle m hb, colours_not_of_flash hflash, cellByte_swap]
  case alike => rw [colours_of_not_flash hflash]

/-! ## The video offsets (30_encoding.md R99, R100) -/

theorem aoff_range {yy x : Nat} (hy : yy < 192) (hx : x < 32) : 0x1800 ≤ aoff yy x ∧ aoff yy x < 0x1B00 := by
  rw [aoff, Nat.shiftRight_eq_div_pow]
  omega

theorem voff_lt {yy x : Nat} (hy : yy < 192) (hx : x < 32) : voff yy x < 0x1800 := by
  rw [voff_eq yy x (by omega) hx]
  omega

/-- The row and column of an offset are its digits. -/
theorem voff_inj {yy x zz w : Nat} (hy : yy < 192) (hx : x < 32) (hz : zz < 192) (hw : w < 32)
    (h : voff yy x = voff zz w) : yy = zz ∧ x = w := by
  rw [voff_eq yy x (by omega) hx, voff_eq zz w (by omega) hw] at h
  omega

/-- The offset of a row given by its three groups of bits. -/
theorem voff_groups {third band row x : Nat} (ht : third < 3) (hb : band < 8) (hr : row < 8) (hx : x < 32) :
    voff (third * 64 + band * 8 + row) x = third * 2048 + row * 256 + band * 32 + x := by
  rw [voff_eq _ _ (by omega) hx]
  omega

theorem voff_surj {o : Nat} (h : o < 0x1800) : ∃ yy < 192, ∃ x < 32, voff yy x = o := by
  refine ⟨o / 2048 * 64 + o / 32 % 8 * 8 + o / 256 % 8, by omega, o % 32, by omega, ?_⟩
  rw [voff_groups (by omega) (by omega) (by omega) (by omega)]
  omega

/-- Settles O25: the bits of `voff` by `voff_testBit`, the rest by its digits. -/
theorem videoOffsets : Obligations.VideoOffsets := by
  refine ⟨fun yy hy x hx => ⟨voff_lt hy hx, aoff_eq yy x hy hx, aoff_range hy hx⟩, fun yy _ x hx => ?bits,
    fun yy hy x hx zz hz w hw => voff_inj hy hx hz hw, fun o => voff_surj⟩
  case bits =>
    have bit := voff_testBit yy x hx
    refine ⟨fun k hk => ?_, fun k hk => ?_, fun k hk => ?_, fun k hk => ?_⟩
    · rw [bit, if_pos hk]
    · rw [bit, if_neg (by omega), if_pos (by omega)]
      congr 1
      omega
    · rw [bit, if_neg (by omega), if_neg (by omega), if_pos (by omega), Nat.add_sub_cancel_left]
    · rw [bit, if_neg (by omega), if_neg (by omega), if_neg (by omega), if_pos (by omega)]
      congr 1
      omega

/-! ## What a line depends on (R169) -/

/-- Settles O26: inside its row a line writes `drawLine_read`'s bytes, which read the listed values alone. -/
theorem lineDependsOnlyOnWhatItFetches : Obligations.LineDependsOnlyOnWhatItFetches := by
  intro s u n hs hu hcfg hok hborder hphase hpixels hattrs
  have answer {v : State} (hv : v.created = true) :
      exec (decodeLine v.cfg n) v = .next (v.setMachine (v.m.setFb (drawLine v.cfg n v.m).fb)) := by
    rw [← drawLine_frame]
    exact exec_decodeLine n v hv
  have answerU := answer hu
  rw [hcfg] at answerU
  refine ⟨_, _, answer hs, answerU, fun k => ?_⟩
  rw [drawLine_read s.cfg n s.m hok, drawLine_read s.cfg n u.m hok, hborder,
    bitmapRowBytes_congr s.cfg s.m u.m _ hborder hphase hpixels hattrs]
  by_cases hk : lineClass s.cfg n ≠ .outside ∧ fbRow s.cfg n * fbStride s.cfg ≤ k ∧
      k < fbRow s.cfg n * fbStride s.cfg + fbStride s.cfg
  · rw [if_pos hk, if_pos hk]
    exact .inr ⟨rfl, hk.2⟩
  · rw [if_neg hk, if_neg hk]
    exact .inl ⟨rfl, rfl⟩

end Sys2Proof.Proofs
end

section
/-! SUPPORT. The sequencer (42_sequencer.md): the order of a tick, what it makes of the raster's numbers, runs of ticks, the
raster position after a run, and EXEC against its calls and its bus items. -/

namespace Sys2Proof.Proofs

open Sys2Proof.Machine

/-! ## The order of one tick (R181) -/

/-- The hold step counts first, then looks at what is left (60_exceptions.md R277). -/
theorem holdStep_ordered (m : MachineState) :
    holdStep m =
      if m.intLine = true then
        if (m.setIntHold (m.intHold - 1)).intHold = 0 then (m.setIntHold (m.intHold - 1)).setIntLine false
        else m.setIntHold (m.intHold - 1)
      else m := by
  rw [holdStep, MachineState.setIntHold_intHold]
  by_cases h : m.intHold - 1 = 0
  · rw [if_pos h, if_pos h, h]
  · rw [if_neg h, if_neg h]

theorem drawLine_line (c : Cfg) (n : Nat) (m : MachineState) : (drawLine c n m).line = m.line := by
  rw [drawLine_frame, MachineState.setFb_line]

theorem lineEnd_eq_frameWrap {c : Cfg} {m : MachineState} (h : c.totalScanlines ≤ m.line + 1) :
    lineEnd c m = frameWrap c (drawLine c m.line (m.setScanlineCounter c.scanlinePeriod)) :=
  if_pos h

theorem lineEnd_eq_holdStep {c : Cfg} {m : MachineState} (h : ¬ c.totalScanlines ≤ m.line + 1) :
    lineEnd c m = holdStep ((drawLine c m.line (m.setScanlineCounter c.scanlinePeriod)).setLine (m.line + 1)) :=
  if_neg h

/-- The end of a line with the line index advanced before the wrap is looked for (R182-R184). -/
theorem lineEnd_ordered (c : Cfg) (m : MachineState) :
    lineEnd c m =
      let drawn := drawLine c m.line (m.setScanlineCounter c.scanlinePeriod)
      let moved := drawn.setLine (drawn.line + 1)
      if c.totalScanlines ≤ moved.line then
        (((moved.setLine 0).setBlinkCounter (moved.blinkCounter + 1)).setIntLine true).setIntHold c.intHoldTicks
      else holdStep moved := by
  extract_lets drawn moved
  have hmoved : moved = drawn.setLine (m.line + 1) := congrArg (fun n => drawn.setLine (n + 1)) (drawLine_line ..)
  have hline : moved.line = m.line + 1 := congrArg MachineState.line hmoved
  rw [hline]
  by_cases h : c.totalScanlines ≤ m.line + 1
  · rw [if_pos h, lineEnd_eq_frameWrap h]
    rfl
  · rw [if_neg h, lineEnd_eq_holdStep h, hmoved]

/-- Settles O27: a tick is `beginTick`, its operation, `endTick`; the raster step of `endTick` in the order of R181. -/
theorem tickOrder : Obligations.TickOrder := by
  refine ⟨fun s n hs => exec_decodeLine n s hs, fun s w i hs hw => ⟨dataIn s, s.draws + 1, fun b hb => ?data, ?order⟩⟩
  case data => rw [dataIn, hb, Option.getD_some]
  case order =>
    intro stepped hold
    obtain ⟨u, hu⟩ := exec_completes_of_decodePin (s := beginTick w s) hw hs
    have hcfg : u.cfg = s.cfg := by
      obtain ⟨k, -, rfl⟩ := decodePin_ok hw
      exact (busInstr_frame k _ _ _ u hu).cfg
    have hhold : holdStep = hold := funext holdStep_ordered
    refine ⟨u, hu, (exec_tick_of_transaction hs hw hu).trans ?_⟩
    rw [endTick, rasterStep, hcfg, lineEnd_ordered, hhold]
    rfl

/-! ## The numbers of one tick (R182-R184, 60_exceptions.md R276, R277) -/

/-- What one tick makes of the raster position, the blink counter and the interrupt, whatever its transaction. -/
theorem tickWith_numbers {w : Pin} {s t : State} (ht : tickWith w s = .next t) (hcounter : 1 ≤ s.m.scanlineCounter)
    (hup : s.m.intLine = true ↔ 0 < s.m.intHold) (hticks : 1 ≤ s.cfg.intHoldTicks) :
    t.m.scanlineCounter = (if s.m.scanlineCounter = 1 then s.cfg.scanlinePeriod else s.m.scanlineCounter - 1) ∧
      (t.m.intLine = true ↔ 0 < t.m.intHold) ∧
      (if s.m.scanlineCounter = 1 ∧ s.cfg.totalScanlines ≤ s.m.line + 1 then
        t.m.line = 0 ∧ t.m.blinkCounter = s.m.blinkCounter + 1 ∧ t.m.intHold = s.cfg.intHoldTicks
      else
        t.m.line = (if s.m.scanlineCounter = 1 then s.m.line + 1 else s.m.line) ∧
          t.m.blinkCounter = s.m.blinkCounter ∧ t.m.intHold = s.m.intHold - 1) := by
  obtain ⟨-, -, -, -, -, -, -, -, m, hm, -, hsame⟩ := tickWith_frame ht
  have h1 : m.scanlineCounter = s.m.scanlineCounter := by rw [hsame]
  have h2 : m.line = s.m.line := by rw [hsame]
  have h3 : m.blinkCounter = s.m.blinkCounter := by rw [hsame]
  have h4 : m.intHold = s.m.intHold := by rw [hsame]
  have h5 : m.intLine = s.m.intLine := by rw [hsame]
  have key := rasterStep_numbers s.cfg m (by rwa [h1]) (by rwa [h4, h5]) hticks
  rwa [← hm, h1, h2, h3, h4] at key

/-- Settles O28. -/
theorem tickCountsTheRaster : Obligations.TickCountsTheRaster := by
  intro s w hs hw hcounter hup hticks
  obtain ⟨t, ht⟩ := tickWith_completes hw hs
  obtain ⟨-, -, -, hcount, -⟩ := tickWith_frame ht
  exact ⟨t, (live_created _ hs).trans ht, hcount, tickWith_numbers ht hcounter hup hticks⟩

/-! ## EXEC (R187) -/

theorem exec_execUs_of_runTicks {s u : State} {us : Nat} (hs : s.created = true)
    (hu : runTicks (usToTicks s.cfg us) s = .next u) :
    exec (.execUs us) s = .next (u.setResult (.ticks (usToTicks s.cfg us))) := by
  refine (live_created _ hs).trans ?_
  rw [hu, andThen_ok]

/-- Settles O29: EXEC is `runTicks`, which completes and counts, and `runTicks` is TICK after TICK. -/
theorem execPerformsItsTicks : Obligations.ExecPerformsItsTicks := by
  refine ⟨fun s us hs hin => ?ticks, fun s => rfl, fun n s hs => ?succ,
    fun c => ⟨usToTicks_zero c, usToTicks_reference⟩⟩
  case ticks =>
    obtain ⟨u, hu⟩ := runTicks_completes (usToTicks s.cfg us) s hs hin
    obtain ⟨-, -, hcount, -⟩ := runTicks_frame hu
    refine ⟨u, hu, hcount, exec_execUs_of_runTicks hs hu, fun hzero => ?_⟩
    rw [hzero] at hu
    exact (Host.Outcome.next.inj hu).symm
  case succ =>
    have htick : exec (.tick (engineAnswer s)) (takeAnswer s) = tickWith (engineAnswer s) (takeAnswer s) :=
      live_created _ hs
    rw [htick, runTicks_succ]

/-! ## The raster position after a run of ticks (R189) -/

/-- The machine stands `col` ticks into line `row`, `frames` frames after a frame start with blink counter `b` and the
interrupt down. -/
structure AtPosition (c : Cfg) (b : BitVec 32) (frames row col : Nat) (m : MachineState) : Prop where
  counter : m.scanlineCounter = c.scanlinePeriod - col
  line : m.line = row
  blink : m.blinkCounter = b + BitVec.ofNat 32 frames
  hold : m.intHold = if frames = 0 then 0 else c.intHoldTicks - (col + c.scanlinePeriod * row)
  up : m.intLine = true ↔ 0 < m.intHold

/-- The next number's digit and carry in base `p`. -/
theorem succ_mod_div {p : Nat} (hp : 1 ≤ p) (n : Nat) :
    (n % p + 1 < p ∧ (n + 1) % p = n % p + 1 ∧ (n + 1) / p = n / p) ∨
      (n % p + 1 = p ∧ (n + 1) % p = 0 ∧ (n + 1) / p = n / p + 1) := by
  have hn := Nat.div_add_mod n p
  have hlt := Nat.mod_lt n hp
  by_cases h : n % p + 1 < p
  · have key := (Nat.div_mod_unique (a := n + 1) (d := n / p) (c := n % p + 1) hp).2 ⟨by omega, h⟩
    exact .inl ⟨h, key.2, key.1⟩
  · have key := (Nat.div_mod_unique (a := n + 1) (d := n / p + 1) (c := 0) hp).2 ⟨by rw [Nat.mul_add]; omega, hp⟩
    exact .inr ⟨by omega, key.2, key.1⟩

/-- One tick moves the position on by one, carrying into the line and the frame. -/
theorem tickWith_position {w : Pin} {s t : State} {b : BitVec 32} {n : Nat} (hc : cfgOk s.cfg = true)
    (ht : tickWith w s = .next t)
    (h : AtPosition s.cfg b (n / s.cfg.scanlinePeriod / s.cfg.totalScanlines)
      (n / s.cfg.scanlinePeriod % s.cfg.totalScanlines) (n % s.cfg.scanlinePeriod) s.m) :
    AtPosition s.cfg b ((n + 1) / s.cfg.scanlinePeriod / s.cfg.totalScanlines)
      ((n + 1) / s.cfg.scanlinePeriod % s.cfg.totalScanlines) ((n + 1) % s.cfg.scanlinePeriod) t.m := by
  obtain ⟨hP, hN, hH, -⟩ := cfgOk_parts hc
  obtain ⟨hcounter, hline, hblink, hhold, hup⟩ := h
  have hcol := Nat.mod_lt n hP
  obtain ⟨tcounter, tup, trest⟩ := tickWith_numbers ht (by omega) hup hH
  obtain ⟨hr, er, eq⟩ | ⟨hr, er, eq⟩ := succ_mod_div hP n
  · -- inside a line
    have hne : s.m.scanlineCounter ≠ 1 := by omega
    rw [if_neg hne] at tcounter
    rw [if_neg (fun hx => hne hx.1), if_neg hne] at trest
    obtain ⟨tline, tblink, thold⟩ := trest
    rw [er, eq]
    refine ⟨by omega, tline.trans hline, tblink.trans hblink, ?_, tup⟩
    rw [thold, hhold]
    split <;> omega
  · -- the end of a line
    have he : s.m.scanlineCounter = 1 := by omega
    rw [if_pos he] at tcounter
    rw [er, eq]
    obtain ⟨hl, el, ef⟩ | ⟨hl, el, ef⟩ := succ_mod_div hN (n / s.cfg.scanlinePeriod)
    · rw [if_neg (by omega), if_pos he] at trest
      obtain ⟨tline, tblink, thold⟩ := trest
      rw [el, ef]
      refine ⟨tcounter, by omega, tblink.trans hblink, ?_, tup⟩
      rw [thold, hhold, Nat.mul_add]
      split <;> omega
    · rw [if_pos ⟨he, by omega⟩] at trest
      obtain ⟨tline, tblink, thold⟩ := trest
      rw [el, ef]
      refine ⟨tcounter, tline, ?_, by simpa using thold, tup⟩
      rw [tblink, hblink, BitVec.ofNat_add, BitVec.add_assoc]
      rfl

/-- From a frame start with the interrupt down, `n` ticks lead to position `n`. -/
theorem runTicks_position {n : Nat} {s t : State} (hc : cfgOk s.cfg = true)
    (hstart : AtPosition s.cfg s.m.blinkCounter 0 0 0 s.m) (ht : runTicks n s = .next t) :
    AtPosition s.cfg s.m.blinkCounter (n / s.cfg.scanlinePeriod / s.cfg.totalScanlines)
      (n / s.cfg.scanlinePeriod % s.cfg.totalScanlines) (n % s.cfg.scanlinePeriod) t.m := by
  induction n generalizing t with
  | zero =>
    cases ht
    simpa using hstart
  | succ n ih =>
    rw [runTicks_add n 1] at ht
    obtain ⟨u, hu, ht⟩ := andThen_next ht
    rw [runTicks_succ] at ht
    obtain ⟨v, hv, ht⟩ := andThen_next ht
    cases ht
    obtain ⟨-, hcfg, -⟩ := runTicks_frame hu
    have hpos := ih hu
    rw [← hcfg] at hc hpos ⊢
    exact tickWith_position (s := takeAnswer u) hc hv hpos

/-- The hold of a position by the number of ticks: the line of a frame and the column in it are one remainder. -/
theorem AtPosition.hold_eq {c : Cfg} {b : BitVec 32} {n : Nat} {m : MachineState} (hc : cfgOk c = true)
    (h : AtPosition c b (n / c.scanlinePeriod / c.totalScanlines) (n / c.scanlinePeriod % c.totalScanlines)
      (n % c.scanlinePeriod) m) :
    m.intHold = if n < c.scanlinePeriod * c.totalScanlines then 0
      else c.intHoldTicks - n % (c.scanlinePeriod * c.totalScanlines) := by
  obtain ⟨hP, hN, -⟩ := cfgOk_parts hc
  have hframe : c.scanlinePeriod * c.totalScanlines ≠ 0 := Nat.mul_ne_zero (by omega) (by omega)
  rw [h.hold, Nat.div_div_eq_div_mul, Nat.mod_mul]
  simp only [Nat.div_eq_zero_iff, hframe, false_or]

/-- Settles O30: `runTicks_position`, with position `n` spelled as in R189. -/
theorem execRasterPosition : Obligations.ExecRasterPosition := by
  intro s us hs hc hin hcounter hline hhold hdown n p frame
  obtain ⟨u, hu⟩ := runTicks_completes n s hs hin
  have hstart : AtPosition s.cfg s.m.blinkCounter 0 0 0 s.m :=
    ⟨hcounter, hline, by simp, by simpa using hhold, by simp [hhold, hdown]⟩
  have hpos := runTicks_position hc hstart hu
  have hholdn : u.m.intHold = if n < frame then 0 else s.cfg.intHoldTicks - n % frame := hpos.hold_eq hc
  refine ⟨_, exec_execUs_of_runTicks hs hu, rfl, hpos.counter, hpos.line, ?blink, hholdn, ?up⟩
  case blink =>
    rw [← Nat.div_div_eq_div_mul]
    exact hpos.blink
  case up =>
    refine hpos.up.trans ?_
    rw [hholdn]
    split <;> omega

/-! ## EXEC in two calls, and as bus items (R118, R187) -/

/-- Settles O31: a run of ticks may be cut anywhere, and never looks at the count the first call returned. -/
theorem execCallBoundariesDoNotMatter : Obligations.ExecCallBoundariesDoNotMatter := by
  intro s us us' both hs hin hboth
  obtain ⟨v, hv⟩ := runTicks_completes (usToTicks s.cfg both) s hs hin
  have hcut := hv
  rw [hboth, runTicks_add] at hcut
  obtain ⟨u, hu, hrest⟩ := andThen_next hcut
  obtain ⟨hcreated, hcfg, -⟩ := runTicks_frame hu
  have hsecond : runTicks (usToTicks (u.setResult (.ticks (usToTicks s.cfg us))).cfg us')
      (u.setResult (.ticks (usToTicks s.cfg us))) = .next (v.setResult (.ticks (usToTicks s.cfg us))) := by
    rw [State.setResult_cfg, hcfg, runTicks_setResult, hrest, andThen_ok]
  have hone := exec_execUs_of_runTicks hs hv
  exact ⟨_, _, exec_execUs_of_runTicks hs hu, exec_execUs_of_runTicks (hcreated.trans hs) hsecond, hone⟩

/-- The bus item of a pin word. -/
def busItem (w : Pin) : Packet := { fmt := .bus28, bytes := pinBytes w, cfg := none }

/-- A tick looks neither at the answers to come nor at the calls that wait. -/
theorem tickWith_inputs {w : Pin} {s t : State} (h : tickWith w s = .next t) (answers : List Pin) (calls : List Packet) :
    tickWith w ((s.setEngineIn answers).setInbox calls) = .next ((t.setEngineIn answers).setInbox calls) := by
  rw [tickWith_setInbox, tickWith_setEngineIn, h]
  rfl

/-- Stepping through bus items is the run of ticks with those answers. -/
theorem run_busItems (ws : List Pin) (s : State) (hs : s.created = true) (hw : ∀ w ∈ ws, (classify w).isSome = true) :
    Host.Core.run Sys2Proof.core ws.length ((s.setEngineIn []).setInbox (ws.map busItem)) =
      runTicks ws.length ((s.setEngineIn ws).setInbox []) := by
  induction ws generalizing s with
  | nil => rfl
  | cons w ws ih =>
    have hword := hw w List.mem_cons_self
    obtain ⟨t, ht⟩ := tickWith_completes hword hs
    obtain ⟨hcreated, -⟩ := tickWith_frame ht
    have hstep : step ((s.setEngineIn []).setInbox ((w :: ws).map busItem)) =
        .next ((t.setEngineIn []).setInbox (ws.map busItem)) :=
      (step_busItem _ w (ws.map busItem) hword rfl).trans (tickWith_inputs ht [] _)
    have htick : tickWith (engineAnswer ((s.setEngineIn (w :: ws)).setInbox []))
        (takeAnswer ((s.setEngineIn (w :: ws)).setInbox [])) = .next ((t.setEngineIn ws).setInbox []) :=
      tickWith_inputs ht ws []
    have hrun : Host.Core.run Sys2Proof.core (w :: ws).length ((s.setEngineIn []).setInbox ((w :: ws).map busItem)) =
        Host.Core.run Sys2Proof.core ws.length ((t.setEngineIn []).setInbox (ws.map busItem)) :=
      (core_run_succ ..).trans (congrArg (andThen · _) hstep)
    have hticks : runTicks (w :: ws).length ((s.setEngineIn (w :: ws)).setInbox []) =
        runTicks ws.length ((t.setEngineIn ws).setInbox []) :=
      (runTicks_succ ..).trans (congrArg (andThen · _) htick)
    have hrest := ih t (hcreated.trans hs) fun x hx => hw x (List.mem_cons_of_mem _ hx)
    exact hrun.trans (hrest.trans hticks.symm)

/-- Settles O32: both sides are `runTicks` of the answers. -/
theorem execEqualsItsBusItems : Obligations.ExecEqualsItsBusItems := by
  intro s us ws hs hw hlen
  obtain ⟨u, hu⟩ := runTicks_completes ws.length ((s.setEngineIn ws).setInbox []) hs hw
  refine ⟨u, (run_busItems ws s hs hw).trans hu, ?_⟩
  rw [hlen] at hu ⊢
  exact exec_execUs_of_runTicks (s := (s.setEngineIn ws).setInbox []) hs hu

end Sys2Proof.Proofs
end

section
/-! SUPPORT. Which operations may write which part of the state (10_state.md R21-R44, 60_exceptions.md R275): a part that
changed names a writer, operation by operation. -/

namespace Sys2Proof.Proofs

open Sys2Proof.Machine

/-- The parts of the state whose rules name their writers: the sixteen fields of `S`, the configuration, the trace. -/
inductive Part where
  | rom | ram | junk | fb | scanlineCounter | line | blinkCounter | intHold | intLine | lastUlaOut | borderColor | joyMode
  | kbdJoymask | joyJoymask | kbdDown | cpu | cfg | trace

/-- The part is the same in both states. -/
def Part.same (s t : State) : Part → Prop
  | .rom => t.m.rom = s.m.rom
  | .ram => t.m.ram = s.m.ram
  | .junk => t.m.junk = s.m.junk
  | .fb => t.m.fb = s.m.fb
  | .scanlineCounter => t.m.scanlineCounter = s.m.scanlineCounter
  | .line => t.m.line = s.m.line
  | .blinkCounter => t.m.blinkCounter = s.m.blinkCounter
  | .intHold => t.m.intHold = s.m.intHold
  | .intLine => t.m.intLine = s.m.intLine
  | .lastUlaOut => t.m.lastUlaOut = s.m.lastUlaOut
  | .borderColor => t.m.borderColor = s.m.borderColor
  | .joyMode => t.m.joyMode = s.m.joyMode
  | .kbdJoymask => t.m.kbdJoymask = s.m.kbdJoymask
  | .joyJoymask => t.m.joyJoymask = s.m.joyJoymask
  | .kbdDown => t.m.kbdDown = s.m.kbdDown
  | .cpu => t.m.cpu = s.m.cpu
  | .cfg => t.cfg = s.cfg
  | .trace => t.trace = s.trace

/-- The operations the spec names for a part: R22, R21, R23, R24, R25-R27, R33, R34, R28-R32, R38, R40, R44, R41. -/
def Part.writer (i : Instr) : Part → Prop :=
  let init := ∃ rom c, i = .init rom c
  let reset := i = .reset
  let restore := ∃ k, i = .restore k
  let ticks := (∃ w, i = .tick w) ∨ ∃ us, i = .execUs us
  let load := ∃ b, i = .qload b ∨ i = .qloadExt b ∨ i = .qloadLegacy b
  let ulaWrite := ∃ a d, i = .iwrUla a d
  fun
  | .rom => init ∨ restore
  | .ram => init ∨ restore ∨ ticks ∨ load ∨ ∃ a d, i = .mwr a d
  | .junk => init ∨ restore ∨ load
  | .fb => init ∨ restore ∨ ticks ∨ ∃ n, i = .lineBorder n ∨ i = .lineBitmap n
  | .scanlineCounter => init ∨ reset ∨ restore ∨ ticks
  | .line => init ∨ reset ∨ restore ∨ ticks
  | .blinkCounter => init ∨ reset ∨ restore ∨ ticks
  | .intHold => init ∨ reset ∨ restore ∨ ticks
  | .intLine => init ∨ reset ∨ restore ∨ ticks
  | .lastUlaOut => init ∨ reset ∨ restore ∨ ticks ∨ ulaWrite
  | .borderColor => init ∨ reset ∨ restore ∨ ticks ∨ load ∨ ulaWrite
  | .joyMode => init ∨ restore ∨ ∃ m, i = .jmode m
  | .kbdJoymask => init ∨ reset ∨ restore ∨ ∃ cc, i = .keydn cc ∨ i = .keyup cc
  | .joyJoymask => init ∨ reset ∨ restore ∨ ∃ mm, i = .joy mm
  | .kbdDown => init ∨ reset ∨ restore ∨ (∃ cc, i = .keydn cc ∨ i = .keyup cc) ∨ ∃ mm, i = .joy mm
  | .cpu => init ∨ reset ∨ restore ∨ ticks ∨ load
  | .cfg => init
  | .trace => init ∨ ticks ∨ ulaWrite

/-- An operation that leaves machine, configuration and trace leaves every part. -/
theorem same_of_machine {s t : State} (hm : t.m = s.m) (hcfg : t.cfg = s.cfg) (htrace : t.trace = s.trace) (p : Part) :
    p.same s t := by
  cases p with
  | cfg => exact hcfg
  | trace => exact htrace
  | _ => simp only [Part.same, hm]

/-! ## The rows of the bus -/

theorem busInstr_writer {k : BusClass} {a : Addr} {d : Byte} {s t : State} (h : exec (busInstr k a d) s = .next t)
    (p : Part) (hp : ¬ p.same s t) : p.writer (busInstr k a d) := by
  rw [exec_busInstr_next h] at hp
  cases k with
  | mwr =>
    cases p with
    | ram => exact .inr (.inr (.inr (.inr ⟨a, d, rfl⟩)))
    | _ => exact absurd rfl hp
  | iwrUla =>
    cases p with
    | lastUlaOut => exact .inr (.inr (.inr (.inr ⟨a, d, rfl⟩)))
    | borderColor => exact .inr (.inr (.inr (.inr (.inr ⟨a, d, rfl⟩))))
    | trace => exact .inr (.inr ⟨a, d, rfl⟩)
    | _ => exact absurd rfl hp
  | _ => exact absurd (same_of_machine rfl rfl rfl p) hp

/-! ## Ticks -/

/-- What no tick reaches: ROM, junk bank, input, configuration. -/
structure TickFrame (s t : State) : Prop where
  rom : t.m.rom = s.m.rom
  junk : t.m.junk = s.m.junk
  joyMode : t.m.joyMode = s.m.joyMode
  kbdJoymask : t.m.kbdJoymask = s.m.kbdJoymask
  joyJoymask : t.m.joyJoymask = s.m.joyJoymask
  kbdDown : t.m.kbdDown = s.m.kbdDown
  cfg : t.cfg = s.cfg

theorem TickFrame.trans {s t u : State} (h : TickFrame s t) (h' : TickFrame t u) : TickFrame s u :=
  ⟨h'.rom.trans h.rom, h'.junk.trans h.junk, h'.joyMode.trans h.joyMode, h'.kbdJoymask.trans h.kbdJoymask,
    h'.joyJoymask.trans h.joyJoymask, h'.kbdDown.trans h.kbdDown, h'.cfg.trans h.cfg⟩

theorem tickFrame_of_machine {s t : State} (hm : t.m = s.m) (hcfg : t.cfg = s.cfg) : TickFrame s t := by
  refine ⟨?_, ?_, ?_, ?_, ?_, ?_, hcfg⟩ <;> rw [hm]

theorem tickWith_tickFrame {w : Pin} {s t : State} (h : tickWith w s = .next t) : TickFrame s t := by
  obtain ⟨-, hcfg, -, -, -, -, -, -, m, ht, -, hm⟩ := tickWith_frame h
  have hraster := (rasterStep_frame s.cfg m).rest
  rw [← ht] at hraster
  refine ⟨?_, ?_, ?_, ?_, ?_, ?_, hcfg⟩ <;> rw [hraster, hm]

theorem runTicks_tickFrame {n : Nat} {s t : State} (h : runTicks n s = .next t) : TickFrame s t := by
  induction n generalizing s with
  | zero =>
    cases h
    exact tickFrame_of_machine rfl rfl
  | succ n ih =>
    rw [runTicks_succ] at h
    obtain ⟨u, hu, hrest⟩ := andThen_next h
    have hanswer : TickFrame s (takeAnswer s) := tickFrame_of_machine rfl rfl
    exact (hanswer.trans (tickWith_tickFrame hu)).trans (ih hrest)

theorem ticks_writer {i : Instr} {s t : State} (hi : (∃ w, i = .tick w) ∨ ∃ us, i = .execUs us) (h : TickFrame s t)
    (p : Part) (hp : ¬ p.same s t) : p.writer i := by
  cases p with
  | rom => exact absurd h.rom hp
  | junk => exact absurd h.junk hp
  | joyMode => exact absurd h.joyMode hp
  | kbdJoymask => exact absurd h.kbdJoymask hp
  | joyJoymask => exact absurd h.joyJoymask hp
  | kbdDown => exact absurd h.kbdDown hp
  | cfg => exact absurd h.cfg hp
  | trace => exact .inr (.inl hi)
  | ram | fb => exact .inr (.inr (.inl hi))
  | scanlineCounter | line | blinkCounter | intHold | intLine => exact .inr (.inr (.inr hi))
  | lastUlaOut | borderColor | cpu => exact .inr (.inr (.inr (.inl hi)))

/-! ## Host operations -/

/-- INIT may write every part. -/
theorem init_writer (rom : List Byte) (c : Cfg) (p : Part) : p.writer (.init rom c) := by
  cases p with
  | cfg => exact ⟨rom, c, rfl⟩
  | _ => exact .inl ⟨rom, c, rfl⟩

theorem reset_writer {s : State} (p : Part) (hp : ¬ p.same s (s.setMachine (resetMachine s.cfg s.m))) :
    p.writer .reset := by
  cases p with
  | rom | ram | junk | fb | joyMode | cfg | trace => exact absurd rfl hp
  | _ => exact .inr (.inl rfl)

theorem load_writer {i : Instr} {s t : State} (hi : ∃ b, i = .qload b ∨ i = .qloadExt b ∨ i = .qloadLegacy b)
    (h : exec i s = .next t) (p : Part) (hp : ¬ p.same s t) : p.writer i := by
  obtain ⟨⟨hframe, -⟩, hcfg, -, htrace⟩ := exec_load_loaded hi h
  cases p with
  | ram => exact .inr (.inr (.inr (.inl hi)))
  | junk => exact .inr (.inr hi)
  | borderColor => exact .inr (.inr (.inr (.inr (.inl hi))))
  | cpu => exact .inr (.inr (.inr (.inr hi)))
  | cfg => exact absurd hcfg hp
  | trace => exact absurd htrace hp
  | _ =>
    refine absurd ?_ hp
    rw [Part.same, hframe]
    rfl

/-- RESTORE may write every field of `S`, and nothing else. -/
theorem restore_writer {k : Nat} {s t : State} (h : exec (.restore k) s = .next t) (p : Part) (hp : ¬ p.same s t) :
    p.writer (.restore k) := by
  have hstay : t.cfg = s.cfg ∧ t.trace = s.trace := by
    obtain ⟨r, -, rfl | ⟨-, rfl⟩⟩ := exec_restore_next h <;> exact ⟨rfl, rfl⟩
  cases p with
  | cfg => exact absurd hstay.1 hp
  | trace => exact absurd hstay.2 hp
  | rom => exact .inr ⟨k, rfl⟩
  | ram | junk | fb | joyMode => exact .inr (.inl ⟨k, rfl⟩)
  | scanlineCounter | line | blinkCounter | intHold | intLine => exact .inr (.inr (.inl ⟨k, rfl⟩))
  | lastUlaOut | borderColor | kbdJoymask | joyJoymask | kbdDown | cpu => exact .inr (.inr (.inl ⟨k, rfl⟩))

theorem key_writer {i : Instr} {s : State} {down : List Byte} {mask : BitVec 5} (hi : ∃ cc, i = .keydn cc ∨ i = .keyup cc)
    (p : Part) (hp : ¬ p.same s (s.setMachine ((s.m.setKbdDown down).setKbdJoymask mask))) : p.writer i := by
  cases p with
  | kbdJoymask => exact .inr (.inr (.inr hi))
  | kbdDown => exact .inr (.inr (.inr (.inl hi)))
  | _ => exact absurd rfl hp

theorem joy_writer {s : State} {mm : BitVec 5} {down : List Byte} {mask : BitVec 5} (p : Part)
    (hp : ¬ p.same s (s.setMachine ((s.m.setKbdDown down).setJoyJoymask mask))) : p.writer (.joy mm) := by
  cases p with
  | joyJoymask => exact .inr (.inr (.inr ⟨mm, rfl⟩))
  | kbdDown => exact .inr (.inr (.inr (.inr ⟨mm, rfl⟩)))
  | _ => exact absurd rfl hp

theorem jmode_writer {s : State} {mode : JoyMode} (p : Part) (hp : ¬ p.same s (s.setMachine (s.m.setJoyMode mode))) :
    p.writer (.jmode mode) := by
  cases p with
  | joyMode => exact .inr (.inr ⟨mode, rfl⟩)
  | _ => exact absurd rfl hp

theorem line_writer {i : Instr} {s : State} {fb : Memory} (hi : ∃ n, i = .lineBorder n ∨ i = .lineBitmap n) (p : Part)
    (hp : ¬ p.same s (s.setMachine (s.m.setFb fb))) : p.writer i := by
  cases p with
  | fb => exact .inr (.inr (.inr hi))
  | _ => exact absurd rfl hp

/-! ## Every operation -/

/-- A part that an operation changed names the operation among its writers. -/
theorem exec_writer {i : Instr} {s t : State} (h : exec i s = .next t) (p : Part) (hp : ¬ p.same s t) : p.writer i := by
  cases i with
  | mrd a d => exact busInstr_writer (k := .mrd) h p hp
  | mwr a d => exact busInstr_writer (k := .mwr) h p hp
  | irdUla a d => exact busInstr_writer (k := .irdUla) h p hp
  | iwrUla a d => exact busInstr_writer (k := .iwrUla) h p hp
  | irdJoy a d => exact busInstr_writer (k := .irdJoy) h p hp
  | irdOpen a d => exact busInstr_writer (k := .irdOpen) h p hp
  | iwrOpen a d => exact busInstr_writer (k := .iwrOpen) h p hp
  | idle a d => exact busInstr_writer (k := .idle) h p hp
  | noaccM a d => exact busInstr_writer (k := .noaccM) h p hp
  | noaccIo a d => exact busInstr_writer (k := .noaccIo) h p hp
  | init rom c => exact init_writer rom c p
  | reset =>
    obtain ⟨-, ⟨⟩⟩ := live_next (o := .next _) h
    exact reset_writer p hp
  | execUs us =>
    obtain ⟨u, hu, rfl⟩ := exec_execUs_next h
    have hresult : TickFrame u (u.setResult (.ticks (usToTicks s.cfg us))) := tickFrame_of_machine rfl rfl
    exact ticks_writer (.inr ⟨us, rfl⟩) ((runTicks_tickFrame hu).trans hresult) p hp
  | tick w => exact ticks_writer (.inl ⟨w, rfl⟩) (tickWith_tickFrame (exec_tick_next h)) p hp
  | keydn cc =>
    obtain ⟨-, ⟨⟩⟩ := live_next (o := .next _) h
    rw [keyDown_frame] at hp
    exact key_writer ⟨cc, .inl rfl⟩ p hp
  | keyup cc =>
    obtain ⟨-, ⟨⟩⟩ := live_next (o := .next _) h
    rw [keyUp_frame] at hp
    exact key_writer ⟨cc, .inr rfl⟩ p hp
  | jmode mode =>
    obtain ⟨-, ⟨⟩⟩ := live_next (o := .next _) h
    exact jmode_writer p hp
  | joy mm =>
    obtain ⟨-, ⟨⟩⟩ := live_next (o := .next _) h
    rw [joystick_frame] at hp
    exact joy_writer p hp
  | qload b => exact load_writer ⟨b, .inl rfl⟩ h p hp
  | qloadExt b => exact load_writer ⟨b, .inr (.inl rfl)⟩ h p hp
  | qloadLegacy b => exact load_writer ⟨b, .inr (.inr rfl)⟩ h p hp
  | restore k => exact restore_writer h p hp
  | lineOutside n =>
    have h := (live_next h).2
    split at h
    · cases h
      exact absurd (same_of_machine rfl rfl rfl p) hp
    · cases h
  | lineBorder n =>
    obtain rfl := exec_line_next (.inr (.inl rfl)) h
    rw [drawLine_frame] at hp
    exact line_writer ⟨n, .inl rfl⟩ p hp
  | lineBitmap n =>
    obtain rfl := exec_line_next (.inr (.inr rfl)) h
    rw [drawLine_frame] at hp
    exact line_writer ⟨n, .inr rfl⟩ p hp
  | save | dinfo =>
    obtain ⟨-, ⟨⟩⟩ := live_next (o := .next _) h
    exact absurd (same_of_machine rfl rfl rfl p) hp
  | rleEnd | rleRun cc vv | rleBadRun cc | rleLitEd | rleLit b =>
    cases h
    exact absurd (same_of_machine rfl rfl rfl p) hp

/-- Settles O33: `exec_writer`, part by part. -/
theorem fieldsHaveOnlyTheirWriters : Obligations.FieldsHaveOnlyTheirWriters := by
  intro i s t h
  have writer := exec_writer h
  exact ⟨writer .rom, writer .ram, writer .junk, writer .fb, writer .scanlineCounter, writer .line, writer .blinkCounter,
    writer .intHold, writer .intLine, writer .lastUlaOut, writer .borderColor, writer .joyMode, writer .kbdJoymask,
    writer .joyJoymask, writer .kbdDown, writer .cpu, writer .cfg, writer .trace⟩

end Sys2Proof.Proofs
end

section
/-! SUPPORT. Keys and joysticks (43_input_mux.md R202-R208): the code tables, KEYDN and JOY by the mode, the operands the
decoder rejects, and which reads input can reach. -/

namespace Sys2Proof.Proofs

open Sys2Proof.Machine

/-! ## The tables (30_encoding.md R103-R106) -/

theorem joyFn?_eq : ∀ cc : Byte, joyFn? cc =
    if cc = 0x08 then some .left else if cc = 0x09 then some .right else if cc = 0x0A then some .down
    else if cc = 0x0B then some .up else if cc = 0x20 then some .fire else none := by
  decide +kernel

theorem modeOf_eq_some_iff (n : Byte) (m : JoyMode) : modeOf n = some m ↔ n = modeNumber m := by
  constructor
  · have key : ∀ n : Byte, ∀ m ∈ modeOf n, n = modeNumber m := by decide +kernel
    exact key n m
  · rintro rfl
    exact modeOf_modeNumber m

/-- Settles O34: the table of codes by `joyFn?_eq`, the numbers by evaluation. -/
theorem inputTables : Obligations.InputTables :=
  ⟨joyFn?_eq, by decide, by decide, by decide, modeOf_eq_some_iff, by decide⟩

/-! ## KEYDN (R202, R203) -/

theorem exec_keydn {s : State} (cc : Byte) (hs : s.created = true) :
    exec (.keydn cc) s = .next (s.setMachine (keyDown cc s.m)) :=
  live_created _ hs

/-- From `m` to `m'` the code `x` is pressed and the keyboard joystick mask stays. -/
def Presses (m m' : MachineState) (x : Byte) : Prop :=
  m'.kbdJoymask = m.kbdJoymask ∧ ∀ k, k ∈ m'.kbdDown ↔ k = x ∨ k ∈ m.kbdDown

theorem kbdKeyDown_presses (m : MachineState) (x : Byte) : Presses m (kbdKeyDown m x) x :=
  ⟨rfl, mem_keyPress m.kbdDown x⟩

theorem keyDown_none {m : MachineState} (cc : Byte) (hm : m.joyMode = .none) : keyDown cc m = kbdKeyDown m cc := by
  simp only [keyDown, hm]

theorem keyDown_kempston_reserved {m : MachineState} {cc : Byte} {f : JoyFn} (hm : m.joyMode = .kempston)
    (hf : joyFn? cc = some f) : keyDown cc m = m.setKbdJoymask (m.kbdJoymask ||| joyBit f) := by
  simp only [keyDown, hm, hf]

theorem keyDown_kempston_other {m : MachineState} {cc : Byte} (hm : m.joyMode = .kempston) (hf : joyFn? cc = none) :
    keyDown cc m = kbdKeyDown m cc := by
  simp only [keyDown, hm, hf]

theorem keyDown_sinclair1 {m : MachineState} (cc : Byte) (hm : m.joyMode = .sinclair1) :
    keyDown cc m = kbdKeyDown m (sinclairCode sinclair1Key cc) := by
  simp only [keyDown, hm]

theorem keyDown_sinclair2 {m : MachineState} (cc : Byte) (hm : m.joyMode = .sinclair2) :
    keyDown cc m = kbdKeyDown m (sinclairCode sinclair2Key cc) := by
  simp only [keyDown, hm]

/-- Pressing a Sinclair code: the digit of a reserved code, an ordinary code itself. -/
theorem kbdKeyDown_sinclairCode_presses (m : MachineState) (digit : JoyFn → Byte) (cc : Byte) :
    (∀ f, joyFn? cc = some f → Presses m (kbdKeyDown m (sinclairCode digit cc)) (digit f)) ∧
    (joyFn? cc = none → Presses m (kbdKeyDown m (sinclairCode digit cc)) cc) := by
  constructor
  · intro f hf
    simpa only [sinclairCode, hf] using kbdKeyDown_presses m (digit f)
  · intro hf
    simpa only [sinclairCode, hf] using kbdKeyDown_presses m cc

/-- In Sinclair1 the release of up (0BH) and of the "4" key (34H) are one and the same. -/
theorem keyup_releases_four {s : State} {up : Byte} (hs : s.created = true) (hm : s.m.joyMode = .sinclair1)
    (hup : up = 0x0B ∨ up = 0x34) : ∃ t, exec (.keyup up) s = .next t ∧ 0x34 ∉ t.m.kbdDown := by
  have hcode : sinclairCode sinclair1Key up = 0x34 := by obtain rfl | rfl := hup <;> rfl
  refine ⟨_, exec_keyup up hs, ?_⟩
  rw [State.setMachine_m, keyUp_sinclair1 up hm, hcode, (kbdKeyUp_releases s.m 0x34).2]
  exact fun h => h.1 rfl

/-- Settles O35: the keys and the mask are those of `keyDown`, which the lemmas above give in each mode. -/
theorem keyDownByMode : Obligations.KeyDownByMode := by
  intro s cc hs
  refine ⟨(keyDown cc s.m).kbdDown, (keyDown cc s.m).kbdJoymask, ?answer, ?none, ?kempston, ?sinclair1, ?sinclair2⟩
  case answer => rw [← keyDown_frame, exec_keydn cc hs]
  case none =>
    intro hm
    rw [keyDown_none cc hm]
    exact kbdKeyDown_presses s.m cc
  case kempston =>
    intro hm
    have reserved {f : JoyFn} (hf : joyFn? cc = some f) :
        (keyDown cc s.m).kbdJoymask = s.m.kbdJoymask ||| joyBit f ∧ (keyDown cc s.m).kbdDown = s.m.kbdDown := by
      rw [keyDown_kempston_reserved hm hf]
      exact ⟨rfl, rfl⟩
    refine ⟨fun f hf => reserved hf, fun hf => ?_, ?_⟩
    · rw [keyDown_kempston_other hm hf]
      exact kbdKeyDown_presses s.m cc
    · rintro rfl
      exact reserved (f := .fire) rfl
  case sinclair1 =>
    intro hm
    rw [← keyDown_frame]
    have hmode : (keyDown cc s.m).joyMode = .sinclair1 := by rw [keyDown_frame]; exact hm
    rw [keyDown_sinclair1 cc hm] at hmode ⊢
    obtain ⟨hreserved, hother⟩ := kbdKeyDown_sinclairCode_presses s.m sinclair1Key cc
    refine ⟨hreserved, hother, ?_⟩
    rintro rfl
    exact ⟨hreserved .up rfl, fun up hup => keyup_releases_four hs hmode hup⟩
  case sinclair2 =>
    intro hm
    rw [keyDown_sinclair2 cc hm]
    exact kbdKeyDown_sinclairCode_presses s.m sinclair2Key cc

/-! ## JMODE (R206) -/

theorem decodeMode_outOfRange {n : Byte} (h : 4 ≤ n.toNat) : decodeMode n = .error .modeOutOfRange := by
  have hnone : modeOf n = none := by
    rw [Option.eq_none_iff_forall_ne_some]
    intro m hm
    rw [(modeOf_eq_some_iff n m).1 hm] at h
    cases m <;> exact absurd h (by decide)
  rw [decodeMode, hnone]

/-- Settles O37. -/
theorem setJoystickMode : Obligations.SetJoystickMode :=
  ⟨fun _ _ hs => live_created _ hs, fun _ _ hn => decodeMode_outOfRange hn⟩

/-! ## JOY (R207) -/

theorem exec_joy {s : State} (mm : BitVec 5) (hs : s.created = true) :
    exec (.joy mm) s = .next (s.setMachine (joystick mm s.m)) :=
  live_created _ hs

theorem decodeMask_outOfRange {n : Byte} (h : 32 ≤ n.toNat) : decodeMask n = .error .maskOutOfRange := by
  have hhigh : n.extractLsb' 5 3 ≠ 0 := by
    intro h0
    have hnat : n.toNat / 2 ^ 5 % 2 ^ 3 = 0 := by
      rw [← Nat.shiftRight_eq_div_pow, ← BitVec.extractLsb'_toNat, h0]
      rfl
    have hlt := n.isLt
    omega
  exact if_neg hhigh

theorem joystick_setMask {mm : BitVec 5} {m : MachineState} (hm : m.joyMode = .none ∨ m.joyMode = .kempston) :
    joystick mm m = m.setJoyJoymask mm := by
  obtain hm | hm := hm <;> simp only [joystick, hm]

theorem joystick_sinclair1 (mm : BitVec 5) {m : MachineState} (hm : m.joyMode = .sinclair1) :
    joystick mm m = joyFns.foldl (joyDigit sinclair1Key mm) m := by
  simp only [joystick, hm]

theorem joystick_sinclair2 (mm : BitVec 5) {m : MachineState} (hm : m.joyMode = .sinclair2) :
    joystick mm m = joyFns.foldl (joyDigit sinclair2Key mm) m := by
  simp only [joystick, hm]

/-- Which keys are held after a JOY call has visited the functions `fs`: their digits by the mask, the others as before. -/
theorem mem_joyDigits {key : JoyFn → Byte} (hkey : Function.Injective key) (mm : BitVec 5) {fs : List JoyFn}
    (hfs : fs.Nodup) (m : MachineState) (k : Byte) :
    k ∈ (fs.foldl (joyDigit key mm) m).kbdDown ↔
      (∃ f ∈ fs, k = key f ∧ mm &&& joyBit f ≠ 0) ∨ ((∀ f ∈ fs, k ≠ key f) ∧ k ∈ m.kbdDown) := by
  induction fs generalizing m with
  | nil => simp
  | cons f fs ih =>
    obtain ⟨hf, hfs⟩ := List.nodup_cons.1 hfs
    rw [List.foldl_cons, ih hfs, mem_joyDigit, List.exists_mem_cons_iff, List.forall_mem_cons]
    by_cases hk : k = key f
    · have hdistinct : ∀ g ∈ fs, k ≠ key g := fun g hg he => hf (hkey (hk.symm.trans he) ▸ hg)
      have hlater : ¬ ∃ g ∈ fs, k = key g ∧ mm &&& joyBit g ≠ 0 := fun ⟨g, hg, he, _⟩ => hdistinct g hg he
      tauto
    · simp only [hk, ne_eq, not_false_eq_true, false_and, false_or, true_and]

theorem joyFns_nodup : joyFns.Nodup := by decide

theorem mem_joyFns (f : JoyFn) : f ∈ joyFns := by cases f <;> decide

theorem sinclair1Key_injective : Function.Injective sinclair1Key := by
  intro f g
  cases f <;> cases g <;> decide

theorem sinclair2Key_injective : Function.Injective sinclair2Key := by
  intro f g
  cases f <;> cases g <;> decide

/-- A Sinclair JOY call holds exactly the digit keys of the mask, and leaves the other keys and the explicit mask. -/
theorem joyDigits_digits {key : JoyFn → Byte} (hkey : Function.Injective key) (mm : BitVec 5) (m : MachineState) :
    (joyFns.foldl (joyDigit key mm) m).joyJoymask = m.joyJoymask ∧
      (∀ f, key f ∈ (joyFns.foldl (joyDigit key mm) m).kbdDown ↔ mm &&& joyBit f ≠ 0) ∧
      ∀ k, (∀ f, k ≠ key f) → (k ∈ (joyFns.foldl (joyDigit key mm) m).kbdDown ↔ k ∈ m.kbdDown) := by
  refine ⟨by rw [joyDigits_frame, MachineState.setKbdDown_joyJoymask], fun f => ?_, fun k hk => ?_⟩
  · rw [mem_joyDigits hkey mm joyFns_nodup]
    constructor
    · rintro (⟨g, -, hg, hbit⟩ | ⟨hno, -⟩)
      · rwa [hkey hg]
      · exact absurd rfl (hno f (mem_joyFns f))
    · exact fun hbit => .inl ⟨f, mem_joyFns f, rfl, hbit⟩
  · rw [mem_joyDigits hkey mm joyFns_nodup]
    constructor
    · rintro (⟨g, -, hg, -⟩ | ⟨-, hdown⟩)
      · exact absurd hg (hk g)
      · exact hdown
    · exact fun hdown => .inr ⟨fun f _ => hk f, hdown⟩

/-- Settles O38: the masks by `joystick_setMask`, the digit keys by `joyDigits_digits`. -/
theorem joystickByMode : Obligations.JoystickByMode := by
  refine ⟨fun _ _ hn => decodeMask_outOfRange hn, fun s mm hs =>
    ⟨(joystick mm s.m).kbdDown, (joystick mm s.m).joyJoymask, ?answer, ?masks, ?sinclair1, ?sinclair2⟩⟩
  case answer => rw [← joystick_frame, exec_joy mm hs]
  case masks =>
    intro hm
    rw [joystick_setMask hm]
    exact ⟨rfl, rfl⟩
  case sinclair1 =>
    intro hm
    rw [joystick_sinclair1 mm hm]
    exact joyDigits_digits sinclair1Key_injective mm s.m
  case sinclair2 =>
    intro hm
    rw [joystick_sinclair2 mm hm]
    exact joyDigits_digits sinclair2Key_injective mm s.m

/-! ## Which reads input reaches (R208) -/

/-- Outside Kempston mode a key event moves a key of the matrix alone. -/
theorem keyDown_matrix {m : MachineState} (cc : Byte) (hm : m.joyMode ≠ .kempston) :
    keyDown cc m = m.setKbdDown (keyDown cc m).kbdDown := by
  unfold keyDown
  split
  · rfl
  · contradiction
  · rfl
  · rfl

theorem keyUp_matrix {m : MachineState} (cc : Byte) (hm : m.joyMode ≠ .kempston) :
    keyUp cc m = m.setKbdDown (keyUp cc m).kbdDown := by
  unfold keyUp
  split
  · rfl
  · contradiction
  · rfl
  · rfl

/-- In the Sinclair modes JOY moves keys of the matrix alone. -/
theorem joystick_matrix {m : MachineState} (mm : BitVec 5) (hm : m.joyMode = .sinclair1 ∨ m.joyMode = .sinclair2) :
    joystick mm m = m.setKbdDown (joystick mm m).kbdDown := by
  obtain hm | hm := hm
  · rw [joystick_sinclair1 mm hm]
    exact joyDigits_frame ..
  · rw [joystick_sinclair2 mm hm]
    exact joyDigits_frame ..

theorem exec_key_next {s t : State} {cc : Byte} (h : exec (.keydn cc) s = .next t ∨ exec (.keyup cc) s = .next t) :
    t = s.setMachine (keyDown cc s.m) ∨ t = s.setMachine (keyUp cc s.m) := by
  obtain h | h := h
  · obtain ⟨-, ⟨⟩⟩ := live_next (o := .next _) h
    exact .inl rfl
  · obtain ⟨-, ⟨⟩⟩ := live_next (o := .next _) h
    exact .inr rfl

theorem exec_joy_next {s t : State} {mm : BitVec 5} (h : exec (.joy mm) s = .next t) :
    t = s.setMachine (joystick mm s.m) := by
  obtain ⟨-, ⟨⟩⟩ := live_next (o := .next _) h
  rfl

/-- Outside Kempston mode key events leave both masks. -/
theorem exec_key_masks {s t : State} {cc : Byte} (hm : s.m.joyMode ≠ .kempston)
    (h : exec (.keydn cc) s = .next t ∨ exec (.keyup cc) s = .next t) : joyReadByte t.m = joyReadByte s.m := by
  obtain rfl | rfl := exec_key_next h
  · rw [State.setMachine_m, keyDown_matrix cc hm]
    rfl
  · rw [State.setMachine_m, keyUp_matrix cc hm]
    rfl

/-- In Kempston mode a reserved key leaves the matrix. -/
theorem exec_key_reserved {s t : State} {cc : Byte} (hm : s.m.joyMode = .kempston) (hf : joyFn? cc ≠ none)
    (h : exec (.keydn cc) s = .next t ∨ exec (.keyup cc) s = .next t) :
    t.m.lastUlaOut = s.m.lastUlaOut ∧ t.m.kbdDown = s.m.kbdDown := by
  obtain ⟨f, hf⟩ := Option.ne_none_iff_exists'.1 hf
  obtain rfl | rfl := exec_key_next h
  · rw [State.setMachine_m, keyDown_kempston_reserved hm hf]
    exact ⟨rfl, rfl⟩
  · rw [State.setMachine_m, keyUp_kempston_reserved hm hf]
    exact ⟨rfl, rfl⟩

/-- Where JOY sets the explicit mask it leaves the matrix. -/
theorem exec_joy_setMask {s t : State} {mm : BitVec 5} (hm : s.m.joyMode = .none ∨ s.m.joyMode = .kempston)
    (h : exec (.joy mm) s = .next t) : t.m.lastUlaOut = s.m.lastUlaOut ∧ t.m.kbdDown = s.m.kbdDown := by
  rw [exec_joy_next h, State.setMachine_m, joystick_setMask hm]
  exact ⟨rfl, rfl⟩

theorem exec_joy_masks {s t : State} {mm : BitVec 5} (hm : s.m.joyMode = .sinclair1 ∨ s.m.joyMode = .sinclair2)
    (h : exec (.joy mm) s = .next t) : joyReadByte t.m = joyReadByte s.m := by
  rw [exec_joy_next h, State.setMachine_m, joystick_matrix mm hm]
  rfl

/-- Input events replace the machine alone. -/
theorem exec_input_machine {s t : State} {cc : Byte} {mm : BitVec 5}
    (h : (exec (.keydn cc) s = .next t ∨ exec (.keyup cc) s = .next t) ∨ exec (.joy mm) s = .next t) :
    ∃ m, t = s.setMachine m := by
  obtain h | h := h
  · obtain h | h := exec_key_next h <;> exact ⟨_, h⟩
  · exact ⟨_, exec_joy_next h⟩

/-- Settles O39: a ULA read sees the matrix and a joystick read the masks, and each event above leaves one of them. -/
theorem inputAsymmetry : Obligations.InputAsymmetry := by
  intro s t cc mm a hs ula joy key stick
  have hula {v : State} (hv : v.created = true) : ula v = some (ulaReadByte v.cfg v.m a) := by
    have hread : exec (.irdUla a 0) v = _ := exec_busInstr .irdUla a 0 hv
    simp only [ula, hread]
    rfl
  have hjoy {v : State} (hv : v.created = true) : joy v = some (joyReadByte v.m) := by
    have hread : exec (.irdJoy a 0) v = _ := exec_busInstr .irdJoy a 0 hv
    simp only [joy, hread]
    rfl
  have sameUla (h : key ∨ stick) (hm : t.m.lastUlaOut = s.m.lastUlaOut ∧ t.m.kbdDown = s.m.kbdDown) : ula t = ula s := by
    obtain ⟨m, rfl⟩ := exec_input_machine h
    have hbyte := congrArg some (ulaReadByte_congr s.cfg a hm.1 hm.2)
    exact (hula (v := s.setMachine m) hs).trans (hbyte.trans (hula hs).symm)
  have sameJoy (h : key ∨ stick) (hm : joyReadByte t.m = joyReadByte s.m) : joy t = joy s := by
    obtain ⟨m, rfl⟩ := exec_input_machine h
    exact (hjoy (v := s.setMachine m) hs).trans ((congrArg some hm).trans (hjoy hs).symm)
  refine ⟨?kempston, ?sinclair, ?none⟩
  case kempston =>
    rintro hm (⟨hkey, hf⟩ | hstick)
    · exact sameUla (.inl hkey) (exec_key_reserved hm hf hkey)
    · exact sameUla (.inr hstick) (exec_joy_setMask (.inr hm) hstick)
  case sinclair =>
    rintro hm (hkey | hstick)
    · have hne : s.m.joyMode ≠ .kempston := by obtain hm | hm := hm <;> rw [hm] <;> decide
      exact sameJoy (.inl hkey) (exec_key_masks hne hkey)
    · exact sameJoy (.inr hstick) (exec_joy_masks hm hstick)
  case none =>
    intro hm
    have hne : s.m.joyMode ≠ .kempston := by rw [hm]; decide
    exact ⟨fun hkey => sameJoy (.inl hkey) (exec_key_masks hne hkey),
      fun hstick => sameUla (.inr hstick) (exec_joy_setMask (.inl hm) hstick)⟩

end Sys2Proof.Proofs
end

section
/-! SUPPORT. The run-length decoder (44_snapshot_codec.md R240, R241): its equations token by token, the bound of its output,
and the stand-alone scan as its step-by-step form. -/

namespace Sys2Proof.Proofs

open Sys2Proof.Machine

/-! ## The token at the head (30_encoding.md R114) -/

theorem tokenAt_badRun_none (term : Bool) : tokenAt term [0xED, 0xED] = some (.badRun none) := by
  simp [tokenAt]

theorem tokenAt_badRun_some (term : Bool) (cc : Byte) : tokenAt term [0xED, 0xED, cc] = some (.badRun (some cc)) := by
  simp [tokenAt]

theorem tokenAt_lone_ed (term : Bool) : tokenAt term [0xED] = some .litEd := by
  simp [tokenAt]

/-- Settles O40: each equation is the lemma of its token. -/
theorem rleTokens : Obligations.RleTokens := by
  refine ⟨rle_nil, fun rest => rle_stop _ _ (tokenAt_stop rest), fun cc vv rest term => rle_run _ _ _ _ (tokenAt_run ..),
    fun cc term => ⟨rle_badRun _ _ _ (tokenAt_badRun_none term), rle_badRun _ _ _ (tokenAt_badRun_some term cc)⟩,
    fun term => ?loneEd, fun b rest term hb => rle_litEd _ _ (tokenAt_litEd term b rest hb),
    fun b rest term hb hstop => rle_lit _ _ _ (tokenAt_lit term b rest hb hstop)⟩
  case loneEd =>
    rw [rle_litEd _ _ (tokenAt_lone_ed term), List.drop_one, List.tail_cons, rle_nil]
    rfl

/-! ## The bound (R241) -/

theorem except_map_eq_ok {ε α β : Type} {f : α → β} {r : Except ε α} {y : β} (h : r.map f = .ok y) :
    ∃ x, r = .ok x ∧ f x = y := by
  cases r with
  | error e => cases h
  | ok x => exact ⟨x, rfl, Except.ok.inj h⟩

/-- A run takes four bytes and gives at most 255, every other byte gives at most one: `n` bytes give the most as runs and
then literals. -/
theorem rle_length_le (n : Nat) (src : List Byte) (term : Bool) (hn : src.length = n) (out : List Byte)
    (h : rle src term = .ok out) : out.length ≤ n / 4 * 255 + n % 4 := by
  induction n using Nat.strong_induction_on generalizing src out with
  | _ n ih =>
    by_cases hsrc : src = []
    · subst hsrc
      cases (rle_nil term).symm.trans h
      exact Nat.zero_le _
    · have hpos := List.length_pos_iff.2 hsrc
      obtain ⟨t, -, ⟨-, hr⟩ | ⟨cc, -, hr⟩ | ⟨cc, vv, -, hlen, hr⟩ | ⟨b, -, hr⟩⟩ := rle_cases src term hsrc
      · cases hr.symm.trans h
        exact Nat.zero_le _
      · cases hr.symm.trans h
      · obtain ⟨rest, hrest, rfl⟩ := except_map_eq_ok (hr.symm.trans h)
        have hbound := ih (n - 4) (by omega) (src.drop 4) (by rw [List.length_drop, hn]) rest hrest
        have hcc := cc.isLt
        rw [List.length_append, List.length_replicate]
        omega
      · obtain ⟨rest, hrest, rfl⟩ := except_map_eq_ok (hr.symm.trans h)
        have hbound := ih (n - 1) (by omega) (src.drop 1) (by rw [List.length_drop, hn]) rest hrest
        rw [List.length_cons]
        omega

/-- Settles O41: `rle_length_le` rounded up to whole groups of four, and `rle_error`. -/
theorem rleOutputIsBounded : Obligations.RleOutputIsBounded := by
  intro src term
  have roundUp (n : Nat) : n / 4 * 255 + n % 4 ≤ (n + 3) / 4 * 255 := by omega
  exact ⟨fun out h => (rle_length_le src.length src term rfl out h).trans (roundUp _), rle_error src term⟩

/-! ## The stand-alone scan -/

/-- Settles O42: each token's meaning is its update of the scan. -/
theorem tokensOnAScan : Obligations.TokensOnAScan := fun _ _ _ _ _ => ⟨rfl, rfl, rfl, rfl, rfl⟩

/-- With nothing called and the scan over, any number of steps does nothing. -/
theorem run_idle (n : Nat) {s : State} (hi : s.inbox = []) (h : s.scan.stopped = true ∨ s.scan.rest = []) :
    Host.Core.run Sys2Proof.core n s = .next s := by
  induction n with
  | zero => rfl
  | succ n ih => exact ((core_run_succ n s).trans (congrArg (andThen · _) (step_idle s hi h))).trans ih

/-- The outcome `o` of stepping a scan from `s` ends as the decoder's scan `r` does. -/
def EndsAs (s : State) (r : Except LoadCause Scan) (o : Out) : Prop :=
  match r with
  | .ok sc => o = .next (s.setScan sc)
  | .error e => ∃ sc : Scan, sc.stopped = true ∧ o = .next ((s.setScan sc).setResult (.failed (.load e)))

/-- One step of a scan that has a token left runs the token and goes on. -/
theorem run_token {s : State} {sc : Scan} {t : Token} (n : Nat) (hi : s.inbox = []) (hs : sc.stopped = false)
    (ht : tokenAt sc.term sc.rest = some t) :
    Host.Core.run Sys2Proof.core (n + 1) (s.setScan sc) =
      andThen (exec (tokenInstr t) (s.setScan sc)) (Host.Core.run Sys2Proof.core n) :=
  (core_run_succ n _).trans (congrArg (andThen · _) (step_token (s.setScan sc) t hi hs ht))

/-- Step by step, a stand-alone scan does what `scanLoop` does. -/
theorem run_scan (n : Nat) {s : State} (hi : s.inbox = []) (sc : Scan) :
    EndsAs s (scanLoop n sc) (Host.Core.run Sys2Proof.core n (s.setScan sc)) := by
  induction n generalizing sc with
  | zero => rfl
  | succ n ih =>
    rw [scanLoop]
    by_cases hs : sc.stopped = true
    · rw [if_pos hs]
      exact run_idle (s := s.setScan sc) (n + 1) hi (.inl hs)
    · have hs' : sc.stopped = false := Bool.eq_false_iff.2 hs
      rw [if_neg hs]
      cases ht : tokenAt sc.term sc.rest with
      | none =>
        have hrest : sc.rest = [] := by
          by_contra hne
          exact tokenAt_ne_none _ _ hne ht
        exact run_idle (s := s.setScan sc) (n + 1) hi (.inr hrest)
      | some t =>
        rw [run_token n hi hs' ht]
        cases t with
        | stop => exact run_idle (s := s.setScan (scanEnd sc)) n hi (.inl rfl)
        | badRun cc =>
          exact ⟨_, rfl, run_idle (s := (s.setScan { sc with stopped := true }).setResult _) n hi (.inl rfl)⟩
        | run cc vv => exact ih (scanRun cc vv sc)
        | litEd => exact ih (scanLitEd sc)
        | lit b => exact ih (scanLit b sc)

/-- Settles O43: `run_scan` from a fresh scan, whose `scanLoop` is `rle`. -/
theorem standAloneScanComputesRle : Obligations.StandAloneScanComputesRle := by
  intro s src term hi
  have hends : EndsAs s (scanLoop src.length (scanOf src term)) (Host.Core.run Sys2Proof.core src.length
    (s.setScan (scanOf src term))) := run_scan src.length hi (scanOf src term)
  rw [rle_eq]
  cases hloop : scanLoop src.length (scanOf src term) with
  | ok sc =>
    rw [hloop] at hends
    refine ⟨s.setScan sc, hends, fun out hout => ⟨rfl, Except.ok.inj hout⟩, nofun⟩
  | error e =>
    rw [hloop] at hends
    obtain ⟨sc, hstopped, hrun⟩ := hends
    refine ⟨_, hrun, nofun, fun e' he => ?_⟩
    cases he
    exact ⟨rfl, hstopped⟩

end Sys2Proof.Proofs
end

section
/-! SUPPORT. Quickloads that fail in a page or in the extension header, what a load that succeeds commits, where a page goes,
and the register image (30_encoding.md R113, R116; 44_snapshot_codec.md R224-R247). -/

namespace Sys2Proof.Proofs

open Sys2Proof.Machine

/-! ## Pages whose data fail (R235, R240) -/

theorem snapPage_bytes_append_ne_nil (p : SnapPage) (tail : List Byte) : p.bytes ++ tail ≠ [] := by
  simp [SnapPage.bytes]

theorem parsePage_badData {c : Cfg} {p : SnapPage} {e : LoadCause} (tail : List Byte) (st : Stage)
    (hlen : p.data.length < 0xFFFF) (h : rle p.data false = .error e) : parsePage c (p.bytes ++ tail) st = .error e := by
  rw [parsePage_page c p tail st hlen, h]

theorem parsePage_overflow {c : Cfg} {p : SnapPage} {out : List Byte} (tail : List Byte) (st : Stage)
    (hlen : p.data.length < 0xFFFF) (h : rle p.data false = .ok out) (hout : bankSize < out.length) :
    parsePage c (p.bytes ++ tail) st = .error .outputOverflow := by
  rw [parsePage_page c p tail st hlen, h]
  exact if_pos hout

/-- Settles O47: the page fails before it is routed, and the load as the page. -/
theorem badPageDataFails : Obligations.BadPageDataFails := by
  intro s b0 pages p tail hs hstart hp hlen
  have hne := snapPage_bytes_append_ne_nil p tail
  exact ⟨fun h => exec_qload_badTail hs hstart hp hne fun st => parsePage_badData tail st hlen h,
    fun out h hout => exec_qload_badTail hs hstart hp hne fun st => parsePage_overflow tail st hlen h hout⟩

/-! ## The extension header (R226, R230) -/

theorem parseExtended_short (c : Cfg) {b : List Byte} (st : Stage) (h : b.length < 32) :
    parseExtended c b st = .error .truncatedExtHeader :=
  if_pos h

theorem parseExtended_tooShort (c : Cfg) {b : List Byte} (st : Stage) (hlen : 32 ≤ b.length) (h : u16le b 30 < 3) :
    parseExtended c b st = .error .extHeaderTooShort := by
  rw [parseExtended, if_neg (Nat.not_lt.2 hlen), if_pos h]

theorem parseExtended_truncated (c : Cfg) {b : List Byte} (st : Stage) (hlen : 32 ≤ b.length) (hext : 3 ≤ u16le b 30)
    (h : b.length < 32 + u16le b 30) : parseExtended c b st = .error .truncatedExtHeader := by
  rw [parseExtended, if_neg (Nat.not_lt.2 hlen), if_neg (Nat.not_lt.2 hext), if_pos h]

theorem parseExtended_mode {c : Cfg} {b : List Byte} (st : Stage) (hext : 3 ≤ u16le b 30)
    (hlen : 32 + u16le b 30 ≤ b.length) (h : byteAt b 34 ∉ c.supportedHwModes) :
    parseExtended c b st = .error .unsupportedHwMode := by
  rw [parseExtended, if_neg (by omega), if_neg (Nat.not_lt.2 hext), if_neg (Nat.not_lt.2 hlen), if_pos h]

/-- Both operations that take an extended input end as its load does. -/
theorem exec_extended {s : State} {b : List Byte} (hs : s.created = true) (hb : isExtended b = true) :
    exec (.qload b) s = finishLoad s (loadExtended s.cfg b s.m) ∧
      exec (.qloadExt b) s = finishLoad s (loadExtended s.cfg b s.m) := by
  rw [exec_qload, exec_qloadExt s hb, live_created _ hs, live_created _ hs, quickload_of_isExtended s.cfg s.m hb]
  exact ⟨rfl, rfl⟩

theorem exec_extended_error {s : State} {b : List Byte} {e : LoadCause} (hs : s.created = true) (hb : isExtended b = true)
    (h : parseExtended s.cfg b (stageOf s.m) = .error e) :
    exec (.qload b) s = .next (s.setResult (.failed (.load e))) ∧
      exec (.qloadExt b) s = .next (s.setResult (.failed (.load e))) := by
  have hload : loadExtended s.cfg b s.m = .error e := by rw [loadExtended, h]
  have hends := exec_extended hs hb
  rwa [hload] at hends

/-- Settles O48: the checks in their order, each past the ones before it. -/
theorem extensionHeaderChecks : Obligations.ExtensionHeaderChecks := by
  intro s b hs hlen hpc
  have fails {e : LoadCause} := exec_extended_error (e := e) hs (isExtended_iff.2 ⟨hlen, hpc⟩)
  exact ⟨fun h => fails (parseExtended_short s.cfg _ h), fun h1 h2 => fails (parseExtended_tooShort s.cfg _ h1 h2),
    fun h1 h2 h3 => fails (parseExtended_truncated s.cfg _ h1 h2 h3), fun h1 h2 h3 => fails (parseExtended_mode _ h1 h2 h3)⟩

/-! ## Legacy loads (R224, R225) -/

theorem exec_legacy {s : State} {b : List Byte} (hs : s.created = true) (hb : isLegacy b = true) :
    exec (.qload b) s = finishLoad s (loadLegacy s.cfg b s.m) ∧
      exec (.qloadLegacy b) s = finishLoad s (loadLegacy s.cfg b s.m) := by
  rw [exec_qload, exec_qloadLegacy s hb, live_created _ hs, live_created _ hs, quickload_of_isLegacy s.cfg s.m hb]
  exact ⟨rfl, rfl⟩

theorem loadLegacy_rleError {c : Cfg} {b : List Byte} {e : LoadCause} (m : MachineState)
    (h : rle (b.drop headerLength) (comprFlag b) = .error e) : loadLegacy c b m = .error e := by
  rw [loadLegacy, parseLegacy, h]

theorem loadLegacy_overflow {c : Cfg} {b out : List Byte} (m : MachineState)
    (h : rle (b.drop headerLength) (comprFlag b) = .ok out) (hout : ramSize < out.length) :
    loadLegacy c b m = .error .outputOverflow := by
  simp only [loadLegacy, parseLegacy, h, if_pos hout]

theorem loadLegacy_fits {c : Cfg} {b out : List Byte} (m : MachineState)
    (h : rle (b.drop headerLength) (comprFlag b) = .ok out) (hout : out.length ≤ ramSize) :
    loadLegacy c b m = .ok (commit c b (u16le b 6) { ram := m.ram.writeBytes 0 out, junk := m.junk } m) := by
  simp only [loadLegacy, parseLegacy, h, if_neg (Nat.not_lt.2 hout)]
  rfl

/-- Bytes laid out from key 0 on. -/
theorem read_writeBytes_zero (mem : Memory) (out : List Byte) (k : Nat) :
    (mem.writeBytes 0 out).read k = if k < out.length then out.getD k 0 else mem.read k := by
  rw [read_writeBytes]
  simp only [Nat.zero_le, true_and, Nat.zero_add, Nat.sub_zero, unlistedByte]

theorem restOfImage_atReset {c : Cfg} (img : RegImage) (h : c.imageRest = .atReset) :
    restOfImage c img = c.engineReset.rest := by
  rw [restOfImage, h]

/-- Settles O49: the three outcomes of `loadLegacy`, by what the decoder makes of the block. -/
theorem legacyLoad : Obligations.LegacyLoad := by
  refine ⟨fun c img h => restOfImage_atReset img h, ?_⟩
  intro s b hs hlen hpc both
  obtain ⟨hqload, hlegacy⟩ := exec_legacy hs (isLegacy_iff.2 ⟨hlen, hpc⟩)
  have ends {r : Except LoadCause MachineState} (h : loadLegacy s.cfg b s.m = r) : both (finishLoad s r) :=
    ⟨by rw [hqload, h], by rw [hlegacy, h]⟩
  refine ⟨fun out hout => ⟨fun hover => ends (loadLegacy_overflow s.m hout hover), fun hfits => ?fits⟩,
    fun hbad => ends (loadLegacy_rleError s.m hbad)⟩
  case fits => exact ⟨s.m.ram.writeBytes 0 out, ends (loadLegacy_fits s.m hout hfits), read_writeBytes_zero s.m.ram out⟩

/-! ## Extended loads (R226-R238) -/

/-- Settles O50: `loadExtended_pages` commits the staged pages, and `stagePage` writes each from offset 0 of its bank. -/
theorem extendedLoad : Obligations.ExtendedLoad := by
  refine ⟨fun s b0 pages hs hstart hp => ?_, fun st bank out k =>
    ⟨stagePage_ram st bank out k, rfl, stagePage_junk st out k, rfl⟩⟩
  obtain ⟨hqload, hext⟩ := exec_extended hs (isExtended_append_of_extendedStart hstart (pagesBytes pages))
  have hload := loadExtended_pages s.cfg b0 pages s.m hstart hp
  rw [hload] at hqload hext
  exact ⟨hqload, hext⟩

/-! ## Where a page goes (30_encoding.md R113) -/

theorem pageBank_below {c : Cfg} {page : Byte} (h : page.toNat < c.pageOffset) : pageBank c page = .junk := by
  have h5 : ¬ (page.toNat : Int) - c.pageOffset = 5 := by omega
  have hrange : ¬ (0 ≤ (page.toNat : Int) - c.pageOffset ∧ (page.toNat : Int) - c.pageOffset ≤ 2) := by omega
  simp only [pageBank, if_neg h5, if_neg hrange]

theorem pageBank_index {c : Cfg} {page : Byte} {idx : Nat} (h : page.toNat = c.pageOffset + idx) :
    pageBank c page = if idx = 5 then .ram 0 else if idx ≤ 2 then .ram idx else .junk := by
  have hraw : (page.toNat : Int) - c.pageOffset = idx := by omega
  simp only [pageBank, hraw]
  by_cases h5 : idx = 5
  · subst h5
    rfl
  · have h5' : ¬ (idx : Int) = 5 := by omega
    rw [if_neg h5', if_neg h5]
    by_cases h2 : idx ≤ 2
    · rw [if_pos (by omega), if_pos h2, Int.toNat_natCast]
    · rw [if_neg (by omega), if_neg h2]

/-- Settles O51: by the index, and R113's table over the 256 page numbers. -/
theorem pageDestinations : Obligations.PageDestinations :=
  ⟨fun _ _ => ⟨pageBank_below, fun _ => pageBank_index⟩, by decide +kernel⟩

/-! ## The register image (R244) -/

/-- A 16-bit value is its two bytes, the low one first. -/
theorem ofNat_u16le (b : List Byte) (i : Nat) : BitVec.ofNat 16 (u16le b i) = byteAt b (i + 1) ++ byteAt b i := by
  apply BitVec.eq_of_toNat_eq
  have hlow := (byteAt b i).isLt
  rw [BitVec.toNat_ofNat, Nat.mod_eq_of_lt (u16le_lt b i), BitVec.toNat_append, ← Nat.shiftLeft_add_eq_or_of_lt hlow,
    Nat.shiftLeft_eq, u16le]
  omega

theorem lowBits_with_top : ∀ (top : Bool) (x : Byte),
    (BitVec.ofBool top ++ x.extractLsb' 0 7 : Byte) = (x &&& 0x7F) + if top then (0x80 : Byte) else 0 := by
  decide +kernel

theorem bit_zero_shifted : ∀ y : Byte, ((y &&& 1) <<< 7 : Byte) = if y.getLsbD 0 then 0x80 else 0 := by
  decide +kernel

/-- R: its low seven bits and bit 7 from `FLAGS0` (R116). -/
theorem snapR_eq (b : List Byte) : snapR b = (byteAt b 11 &&& (0x7F : Byte)) + ((byteAt b 12 &&& (1 : Byte)) <<< 7) := by
  rw [bit_zero_shifted]
  exact lowBits_with_top _ _

theorem lowTwo_toNat : ∀ x : Byte, (x.extractLsb' 0 2).toNat = (x &&& (3 : Byte)).toNat := by decide +kernel

/-- Settles O52: single bytes as they stand, the others by the lemmas above. -/
theorem registerImage : Obligations.RegisterImage := by
  intro b pc g
  refine ⟨⟨rfl, rfl, rfl, rfl, rfl, rfl, rfl, rfl⟩, ⟨rfl, rfl, rfl, rfl, rfl, rfl, rfl, rfl⟩,
    ⟨ofNat_u16le b 8, ofNat_u16le b 23, ofNat_u16le b 25, fun hpc => ?pc⟩, ⟨rfl, snapR_eq b⟩,
    ⟨bne_iff_ne, bne_iff_ne, lowTwo_toNat _⟩⟩
  case pc => exact (BitVec.toNat_ofNat pc 16).trans (Nat.mod_eq_of_lt hpc)

end Sys2Proof.Proofs
end

section
/-! SUPPORT. Records, INIT, RESET and DINFO (44_snapshot_codec.md R250, R251; 70_reset_and_hazards.md R300, R301, R303;
45_host_interface.md R265). -/

namespace Sys2Proof.Proofs

open Sys2Proof.Machine

/-! ## Records (R250, R251) -/

theorem exec_save {s : State} (hs : s.created = true) :
    exec .save s = .next ((s.setRecords (s.records ++ [recordOf s])).setResult (.saved s.records.length)) :=
  live_created _ hs

/-- Settles O53: the record is `recordOf`. -/
theorem saveMakesACopy : Obligations.SaveMakesACopy :=
  fun s hs => ⟨recordOf s, rfl, rfl, rfl, exec_save hs⟩

theorem exec_restore {s : State} {k : Nat} {r : Record} (hs : s.created = true) (hk : s.records[k]? = some r) :
    exec (.restore k) s = restoreRecord r s := by
  refine (live_created _ hs).trans ?_
  rw [hk]

theorem exec_restore_noRecord {s : State} {k : Nat} (hs : s.created = true) (hk : s.records[k]? = none) :
    exec (.restore k) s = .refused .noSuchRecord := by
  refine (live_created _ hs).trans ?_
  rw [hk]

theorem restoreRecord_ok {s : State} {r : Record} (hversion : r.version = s.cfg.snapshotVersion)
    (hcfg : r.savedUnder = s.cfg) : restoreRecord r s = .next ((s.setMachine r.machine).setResult .restored) :=
  (if_neg (not_not_intro hversion)).trans (if_neg (not_not_intro hcfg))

theorem restoreRecord_version {s : State} {r : Record} (h : r.version ≠ s.cfg.snapshotVersion) :
    restoreRecord r s = .next (s.setResult (.failed .versionMismatch)) :=
  if_pos h

theorem restoreRecord_cfg {s : State} {r : Record} (hversion : r.version = s.cfg.snapshotVersion)
    (h : r.savedUnder ≠ s.cfg) : restoreRecord r s = .refused .cfgMismatch :=
  (if_neg (not_not_intro hversion)).trans (if_pos h)

/-- The record SAVE added is the record of the state it ran in. -/
theorem exec_save_record {s t : State} {r : Record} (ht : exec .save s = .next t) (hr : t.records = s.records ++ [r]) :
    r = recordOf s := by
  obtain ⟨-, ⟨⟩⟩ := live_next (o := .next _) ht
  exact (List.singleton_inj.1 (List.append_cancel_left hr)).symm

/-- Settles O54: a saved record has the version and the configuration RESTORE asks for, and its machine is the saved one. -/
theorem restoreAfterSaveIsTheSavedState : Obligations.RestoreAfterSaveIsTheSavedState := by
  refine ⟨fun s k r hs hk hversion hcfg => (exec_restore hs hk).trans (restoreRecord_ok hversion hcfg), ?_⟩
  intro s t u r hs ht hr hu hcfg k hk
  obtain rfl := exec_save_record ht hr
  have hversion : (recordOf s).version = u.cfg.snapshotVersion := by rw [hcfg]; rfl
  refine ⟨(exec_restore hu hk).trans (restoreRecord_ok hversion hcfg.symm), fun v hv => ?again⟩
  case again =>
    obtain ⟨-, ⟨⟩⟩ := live_next (o := .next _) hv
    have hagain : recordOf ((u.setMachine s.m).setResult .restored) = recordOf s := by
      simp only [recordOf, State.setResult_cfg, State.setMachine_cfg, State.setResult_m, State.setMachine_m, hcfg]
    exact congrArg (u.records ++ [·]) hagain

/-- Settles O55: `restoreRecord` checks the version, then the configuration. -/
theorem restoreRejects : Obligations.RestoreRejects :=
  fun _ _ hs => ⟨fun _ hk h => (exec_restore hs hk).trans (restoreRecord_version h),
    fun _ hk hversion h => (exec_restore hs hk).trans (restoreRecord_cfg hversion h), exec_restore_noRecord hs⟩

/-! ## INIT (R300, R301) -/

/-- The constraints of 00_scope.md R9, written out. -/
theorem cfgOk_iff (c : Cfg) : cfgOk c = true ↔
    1 ≤ c.scanlinePeriod ∧ 1 ≤ c.totalScanlines ∧ 1 ≤ c.intHoldTicks ∧ 2 ∣ c.leftBorderPx ∧ 2 ∣ c.rightBorderPx ∧
      c.blinkBit < 32 ∧ 1 ≤ c.romBanks ∧ c.videoBank ≤ 2 ∧ 1 ≤ c.clockHz ∧ c.palette.length = 16 := by
  simp only [cfgOk, Bool.and_eq_true, decide_eq_true_eq, Nat.dvd_iff_mod_eq_zero, and_assoc]

/-- Settles O56: INIT's two checks, and `startMachine` field by field. -/
theorem initMakesAFreshMachine : Obligations.InitMakesAFreshMachine := by
  intro s rom c
  refine ⟨cfgOk_iff c, fun hc => exec_init_badCfg s rom (Bool.eq_false_iff.1 hc), fun hc hlen =>
    ⟨_, exec_init_ok s hc hlen, ⟨rfl, rfl, rfl, rfl, rfl, rfl⟩, fun k => ⟨rfl, rfl, rfl⟩, read_installRom rom,
      ⟨rfl, rfl, rfl, rfl, rfl, rfl, rfl, rfl, rfl, rfl, rfl, rfl⟩, ⟨rfl, rfl, rfl, rfl, rfl⟩⟩⟩

/-- Settles O57: a wrong-sized image leaves no machine, so that every operation on one is refused until INIT makes one. -/
theorem badRomImageFails : Obligations.BadRomImageFails :=
  fun s _ _ hc hlen => ⟨_, exec_init_badRom s hc hlen, rfl, rfl, fun _ hi => exec_noMachine rfl hi,
    fun _ _ hc' hgood => ⟨_, exec_init_ok _ hc' hgood, rfl, rfl⟩⟩

/-! ## RESET and DINFO (R303, R265) -/

/-- Settles O59: `resetMachine_eq` is R303 field by field. -/
theorem resetClearsTransientState : Obligations.ResetClearsTransientState := by
  intro s hs
  rw [← resetMachine_eq]
  exact live_created _ hs

/-- Settles O60: the answer is `displayInfo`, the formulas of 00_scope.md R8. -/
theorem displayInfoAnswers : Obligations.DisplayInfoAnswers :=
  fun s hs => ⟨displayInfo s.cfg, live_created _ hs, rfl, rfl, rfl, rfl, rfl, rfl, rfl⟩

end Sys2Proof.Proofs
end
